-- ==== Sys2Proof/Word.lean ====
section
/-! DEFINITION. The block's units of data: bytes, 16-bit fields, and character sequences
(`spec/00_scope.md` rules R10, R11). Nothing in the block is signed and no rule sign-extends. -/

namespace Sys2Proof

/-- A byte: an unsigned integer 0..255 (R10). -/
abbrev Byte := BitVec 8

/-- A 16-bit field: a frame's length, a HEX line's address, `EAB`. -/
abbrev Half := BitVec 16

/-- A character sequence. A character is one byte, compared by its ASCII value (R11). -/
abbrev Text := List Byte

end Sys2Proof
end

