-- ==== Sys2Proof/Config.lean ====
section
/-! DEFINITION. What an implementation of the block fixes: the constants of `spec/00_scope.md` rule R8,
and the parameters of rule R9 that the source leaves open. -/

namespace Sys2Proof

namespace Config

/-- Frame start marker (R8). -/
abbrev START : Byte := 0x1B

/-- Header and payload separator (R8). -/
abbrev TOKEN : Byte := 0x0E

/-- The receive fails when the retry counter exceeds this (R8). -/
abbrev MAX_RETRY : Nat := 10

/-- Image gap fill value, the "erased-flash convention" (R8). -/
abbrev FILL : Byte := 0xFF

/-- Default `lineSize` of HEXENC (R8, R112). -/
abbrev LINESIZE_DEFAULT : Nat := 16

/-- Default `offset` of HEXDEC (R8, R112). -/
abbrev OFFSET_DEFAULT : Nat := 0

/-- First character of every HEX line, `:` (R8). -/
abbrev LINE_MARK : Byte := 0x3A

/-- Line feed, the one line separator (R11, R108). -/
abbrev LF : Byte := 0x0A

/-- The fixed end-of-file line, the 11 characters `:00000001FF` (R8, R109). -/
abbrev EOF_LINE : Text := [0x3A, 0x30, 0x30, 0x30, 0x30, 0x30, 0x30, 0x30, 0x31, 0x46, 0x46]

/-- The largest payload the 16-bit length field can count (R8, `LEN_BITS`). -/
abbrev MAX_PAYLOAD : Nat := 65535

/-- `OFFSET_APPLIED` (R9): whether `OFFSET` is added into the absolute address of a data record.
The spec leaves it OPEN (92 D15, 90 C5), so it is a constant with no body and no statement can rest
on its value (assumption 2). -/
opaque offsetApplied : Bool

end Config

/-- `UNKNOWN_POLICY` (R9): what a record of a type other than 0, 1, 2, 4 does (R198). -/
inductive UnknownPolicy
  | ignore
  | reject
  deriving DecidableEq, Repr

/-- The parameters of R9 that some rule reads. They are fixed for one machine; a state carries them so
that a statement about every state holds for every setting (assumption 2). -/
structure Params where
  /-- `OFFSET_APPLIED`. -/
  offsetApplied : Bool
  /-- `UNKNOWN_POLICY`. -/
  unknownPolicy : UnknownPolicy
  /-- `IMG_CAP`: the largest Image length the block can hold, `none` for ∞. -/
  imgCap : Option Nat
  deriving DecidableEq, Repr

/-- The "spec value" column of R9: `OFFSET_APPLIED` open, `UNKNOWN_POLICY = Ignore`, `IMG_CAP = ∞`. -/
def Params.specValue : Params :=
  { offsetApplied := Config.offsetApplied, unknownPolicy := .ignore, imgCap := none }

end Sys2Proof
end

