-- ==== Sys2Proof/Syntax.lean ====
section
/-! DEFINITION. What takes the place of an instruction set (`spec/00_scope.md` rule R2): one constructor of
`Instr` for each of the 20 rows of `spec/opcode_table.json`, with the operands its rule gives it. -/

namespace Sys2Proof

/-- The nine values of `RXSTATE` (R30). -/
inductive RxState
  | idle
  | awaitStart
  | awaitSequence
  | awaitLength
  | awaitToken
  | awaitPayload
  | awaitChecksum
  | done
  | failed
  deriving DecidableEq, Repr

/-- The kinds of event `FTE_INFO` can describe (R25): four framing mismatches and the short read. -/
inductive EventKind
  | badStart
  | badSeq
  | badToken
  | badChecksum
  | shortRead
  deriving DecidableEq, Repr

/-- One host operation with its operands, invoked by name (R40, R113 format `HOSTOP`). The timeout is
an opaque token that no rule reads (R26, assumption 4). -/
inductive HostOp
  | sendrecv (seq : Byte) (payload : List Byte) (timeout : Nat)
  | hexdec (text : Text) (offset : Nat)
  | hexenc (lineSize : Nat)
  deriving DecidableEq, Repr

/-- The decoded fields of one HEX line (R100, R101). `BC` is the number of data bytes. -/
structure Record where
  rtype : Byte
  addr : Half
  data : List Byte
  csum : Byte
  deriving DecidableEq, Repr

/-- Why a non-empty line is rejected before its record type is looked at (R183 to R185). The last two
carry the fields that had been extracted when the test failed. -/
inductive LineError
  /-- The line does not begin with `:` (R183). -/
  | noMarker
  /-- Fewer than 11 characters (R184). -/
  | tooShort
  /-- A character after the marker is no hex digit (R184). -/
  | notHex
  /-- The length is not `11 + 2 * BC` (R184). -/
  | wrongLength (bc : Byte)
  /-- The bytes do not sum to 0 modulo 256 (R185). -/
  | badChecksum (r : Record)
  deriving DecidableEq, Repr

/-- Why a byte string is not one frame (R92, R93). The receive machine turns the same failures into
retries (R96); these names belong to the pure decoder of whole frames. -/
inductive FrameError
  | tooShort
  | badStart
  | badToken
  | wrongLength
  | badChecksum
  deriving DecidableEq, Repr

/-- The four formats of `opcode_table.json` (R113). -/
inductive Format
  | frame
  | hexrec
  | rxbyte
  | hostop
  deriving DecidableEq, Repr

/-- Why bytes are no instruction of a format. -/
inductive DecodeError
  /-- A HEX line is rejected (R183 to R185). -/
  | line (e : LineError)
  /-- A byte string is not one frame (R92, R93). -/
  | frame (e : FrameError)
  /-- An `RXBYTE` row whose mask is 0 is selected by `RXSTATE` and a register, not by bits (R113). -/
  | needsState
  /-- A host operation is invoked by name and has no bits (R40, R113). -/
  | byName
  deriving DecidableEq, Repr

/-- The instructions: one constructor per row of `opcode_table.json`. -/
inductive Instr
  /-- `SENDRECV` (R130): exchange one request frame for one response frame. -/
  | sendrecv (seq : Byte) (payload : List Byte) (timeout : Nat)
  /-- `FRAME.TX` (R131): build and write one frame. `seq` and `len` are the registers `SEQ` and `TXLEN`. -/
  | frameTx (seq : Byte) (len : Half) (payload : List Byte)
  /-- `RX.START` (R151), fired in `AwaitStart`. -/
  | rxStart
  /-- `RX.SEQ` (R152), fired in `AwaitSequence`. -/
  | rxSeq
  /-- `RX.LEN` (R153), fired in `AwaitLength`. -/
  | rxLen
  /-- `RX.TOKEN` (R154), fired in `AwaitToken`. -/
  | rxToken
  /-- `RX.PAYLOAD` (R155), fired in `AwaitPayload`. -/
  | rxPayload
  /-- `RX.CSUM` (R156), fired in `AwaitChecksum`. -/
  | rxCsum
  /-- `RX.RESTART` (R157): one framing mismatch. -/
  | rxRestart (kind : EventKind) (actual expected : Byte)
  /-- `RX.STALL` (R158): a read came back short. -/
  | rxStall (asked got : Nat)
  /-- `HEXDEC` (R180): decode text into the Image. -/
  | hexdec (text : Text) (offset : Nat)
  /-- `REC.DATA` (R192), type 00. -/
  | recData (addr : Half) (data : List Byte)
  /-- `REC.EOF` (R193), type 01. -/
  | recEof (addr : Half) (data : List Byte)
  /-- `REC.ESA` (R194), type 02. -/
  | recEsa (addr : Half) (data : List Byte)
  /-- `REC.ELA` (R196), type 04. -/
  | recEla (addr : Half) (data : List Byte)
  /-- `REC.UNK` (R198), any other type. -/
  | recUnk (rtype : Byte) (addr : Half) (data : List Byte)
  /-- `HEXENC` (R220): serialize the Image. -/
  | hexenc (lineSize : Nat)
  /-- `EMIT.ELA` (R222): write one extended-linear-address line. -/
  | emitEla (v : Half)
  /-- `EMIT.DATA` (R223): write one data line; `n` of the rule is the number of bytes of `d`. -/
  | emitData (a16 : Half) (d : List Byte)
  /-- `EMIT.EOF` (R224): write the end-of-file line. -/
  | emitEof
  deriving DecidableEq, Repr

end Sys2Proof
end

