-- ==== Sys2Proof/WellFormed.lean ====
section
/-! DEFINITION. The range each instruction rule states for its operands. Decoding and the block's own
sequencing produce only instructions inside these ranges. -/

namespace Sys2Proof

/-- The record types that `REC.UNK` leaves to the other rows (R106, R187). -/
def knownType (ty : Byte) : Bool :=
  ty == 0x00 || ty == 0x01 || ty == 0x02 || ty == 0x04

/-- The operands lie in the ranges their rules state:
`FRAME.TX` has `TXLEN = |payload|` (R130, R131); `RX.RESTART` names a framing mismatch (R157);
`RX.STALL` has fewer bytes than asked, and at most 65535 are ever asked (R158, R71);
a HEX line has at most 255 data bytes (R100); `REC.UNK` has a type other than 0, 1, 2, 4 (R198);
`EMIT.ELA` has `v` in 1..65535 (R222); `EMIT.DATA` has 1..255 bytes (R223).
A host operation takes any operand: what is out of range is an error of the operation (R130, R220). -/
def Instr.wellFormed : Instr → Bool
  | .sendrecv _ _ _ => true
  | .frameTx _ len payload => decide (payload.length = len.toNat)
  | .rxStart => true
  | .rxSeq => true
  | .rxLen => true
  | .rxToken => true
  | .rxPayload => true
  | .rxCsum => true
  | .rxRestart kind _ _ => decide (kind ≠ .shortRead)
  | .rxStall asked got => decide (got < asked) && decide (asked ≤ Config.MAX_PAYLOAD)
  | .hexdec _ _ => true
  | .recData _ data => decide (data.length ≤ 255)
  | .recEof _ data => decide (data.length ≤ 255)
  | .recEsa _ data => decide (data.length ≤ 255)
  | .recEla _ data => decide (data.length ≤ 255)
  | .recUnk ty _ data => decide (data.length ≤ 255) && !knownType ty
  | .hexenc _ => true
  | .emitEla v => decide (v ≠ 0)
  | .emitData _ d => decide (1 ≤ d.length) && decide (d.length ≤ 255)
  | .emitEof => true

end Sys2Proof
end

