-- ==== Sys2Proof/Decode.lean ====
section
/-! DEFINITION. The two formats of `spec/30_encoding.md`, read and written: the frame (R92, R93) and the HEX
line (R100 to R105), the selection of an instruction by the opcode table (R106, R113, R187), and the
encoder beside them. Every function is total. -/

namespace Sys2Proof

/-! ## Bytes -/

/-- `v[15:8]` (R10). -/
def hiByte (v : Half) : Byte := BitVec.ofNat 8 (v.toNat / 256)

/-- `v[7:0]` (R10). -/
def loByte (v : Half) : Byte := BitVec.ofNat 8 v.toNat

/-- `hi << 8 | lo` (R14, R67, R68). -/
def be16 (hi lo : Byte) : Half := BitVec.ofNat 16 (hi.toNat * 256 + lo.toNat)

/-- `xor(s)`: XOR of all bytes of `s`, `xor([]) = 0` (R12, R14). -/
def xorBytes : List Byte → Byte
  | [] => 0
  | b :: s => b ^^^ xorBytes s

/-- `sum(s)`: the sum of all bytes of `s` as a natural number (R12). -/
def sumBytes : List Byte → Nat
  | [] => 0
  | b :: s => b.toNat + sumBytes s

/-- Two's complement modulo 256, `(256 - (s mod 256)) mod 256` (R14, R105). -/
def twosComplement (s : Nat) : Byte := BitVec.ofNat 8 ((256 - s % 256) % 256)

/-! ## Hex digits -/

/-- The value 0..15 of a hex digit character, in either case; none for any other character (R103). -/
def hexval (c : Byte) : Option Nat :=
  if 0x30 ≤ c.toNat ∧ c.toNat ≤ 0x39 then some (c.toNat - 0x30)
  else if 0x41 ≤ c.toNat ∧ c.toNat ≤ 0x46 then some (c.toNat - 0x41 + 10)
  else if 0x61 ≤ c.toNat ∧ c.toNat ≤ 0x66 then some (c.toNat - 0x61 + 10)
  else none

/-- The character of `0123456789ABCDEF` for a value 0..15 (R104). -/
def hexDigit (n : Nat) : Byte :=
  if n < 10 then BitVec.ofNat 8 (0x30 + n) else BitVec.ofNat 8 (0x41 + (n - 10))

/-- `HEX2(b)`: the two uppercase hex characters of a byte, high nibble first (R104). -/
def hex2 (b : Byte) : Text := [hexDigit (b.toNat / 16), hexDigit (b.toNat % 16)]

/-- Every byte of a sequence with `HEX2`, in order. -/
def hexBytes : List Byte → Text
  | [] => []
  | b :: s => hex2 b ++ hexBytes s

/-- The values of a sequence of hex digit characters; none if some character is not one (R184). -/
def nibbles : Text → Option (List Nat)
  | [] => some []
  | c :: cs =>
    match hexval c, nibbles cs with
    | some v, some vs => some (v :: vs)
    | _, _ => none

/-- The bytes `h(i) * 16 + h(i+1)` of a digit sequence, two digits at a time (R101). -/
def pairBytes : List Nat → List Byte
  | h :: l :: rest => BitVec.ofNat 8 (h * 16 + l) :: pairBytes rest
  | _ => []

/-! ## The frame -/

/-- The five header bytes: start marker, sequence, big-endian length, token (R92). -/
def frameHeader (seq : Byte) (len : Half) : List Byte :=
  [Config.START, seq, hiByte len, loByte len, Config.TOKEN]

/-- The whole frame: header, payload, and the XOR of everything before it (R92, R93, R131). -/
def frameBytes (seq : Byte) (len : Half) (payload : List Byte) : List Byte :=
  let body := frameHeader seq len ++ payload
  body ++ [xorBytes body]

/-- One whole frame, read (R92): fixed start marker and token, `LEN` payload bytes and one checksum
byte, and "a frame is valid iff XOR-reducing all bytes including the trailing checksum yields zero"
(R93). -/
def decodeFrame (bytes : List Byte) : Except FrameError Instr :=
  match bytes with
  | start :: seq :: lenHi :: lenLo :: token :: rest =>
    if start ≠ Config.START then .error .badStart
    else if token ≠ Config.TOKEN then .error .badToken
    else if rest.length ≠ (be16 lenHi lenLo).toNat + 1 then .error .wrongLength
    else if xorBytes bytes ≠ 0 then .error .badChecksum
    else .ok (.frameTx seq (be16 lenHi lenLo) (rest.take (be16 lenHi lenLo).toNat))
  | _ => .error .tooShort

/-! ## The HEX line -/

/-- The byte count of a record, `BC` (R100). -/
def Record.bc (r : Record) : Byte := BitVec.ofNat 8 r.data.length

/-- The bytes of a line before its checksum: `BC`, address high and low, type, data (R100, R105). -/
def recordBytes (rtype : Byte) (addr : Half) (data : List Byte) : List Byte :=
  BitVec.ofNat 8 data.length :: hiByte addr :: loByte addr :: rtype :: data

/-- The checksum that completes a line: the two's complement of the sum of all preceding bytes (R105). -/
def recordChecksum (rtype : Byte) (addr : Half) (data : List Byte) : Byte :=
  twosComplement (sumBytes (recordBytes rtype addr data))

/-- The sum the decoder tests: every byte of the line, the checksum included (R105, R185). -/
def lineSum (r : Record) : Nat := sumBytes (recordBytes r.rtype r.addr r.data) + r.csum.toNat

/-- One HEX line without its line feed: `:BBAAAATTDD..DDCC` in uppercase (R100, R104, R105). -/
def recordLine (rtype : Byte) (addr : Half) (data : List Byte) : Text :=
  Config.LINE_MARK ::
    hexBytes (recordBytes rtype addr data ++ [recordChecksum rtype addr data])

/-- The checks and the field extraction on one non-empty line, in the order of R186: the marker
(R183), the length and the digits (R184, fields as in R101), the checksum (R185). -/
def decodeLine (line : Text) : Except LineError Record :=
  match line with
  | [] => .error .noMarker
  | mark :: digits =>
    if mark ≠ Config.LINE_MARK then .error .noMarker
    else if line.length < 11 then .error .tooShort
    else
      match nibbles digits with
      | none => .error .notHex
      | some ns =>
        match pairBytes ns with
        | bc :: ah :: al :: ty :: rest =>
          if line.length ≠ 11 + 2 * bc.toNat then .error (.wrongLength bc)
          else
            let r : Record :=
              { rtype := ty, addr := be16 ah al, data := rest.take bc.toNat,
                csum := rest.getD bc.toNat 0 }
            if lineSum r % 256 ≠ 0 then .error (.badChecksum r) else .ok r
        | _ => .error .tooShort

/-- The record type map, the opcode map of the HEX format (R106, R187): `RTYPE` selects the row, and
`REC.UNK` is the default. -/
def Record.toInstr (r : Record) : Instr :=
  if r.rtype = 0x00 then .recData r.addr r.data
  else if r.rtype = 0x01 then .recEof r.addr r.data
  else if r.rtype = 0x02 then .recEsa r.addr r.data
  else if r.rtype = 0x04 then .recEla r.addr r.data
  else .recUnk r.rtype r.addr r.data

/-- Cut a text at its first LF: the piece before it, and what follows it, `none` when there is no LF
left (R108, R181). The LF belongs to no piece. -/
def cutLine : Text → Text × Option Text
  | [] => ([], none)
  | c :: cs =>
    if c = Config.LF then ([], some cs)
    else (c :: (cutLine cs).1, (cutLine cs).2)

/-! ## Selection of the rows -/

/-- The `RXBYTE` rows (R113): in a waiting state, the byte just read selects the state's own row when it
passes the accepting comparison, and `RX.RESTART` when it does not. `seq` and `xacc` are the registers
that `RX.SEQ` and `RX.CSUM` compare against. No row is selected in `Idle`, `Done` and `Failed`. -/
def selectRx (st : RxState) (seq xacc b : Byte) : Option Instr :=
  match st with
  | .awaitStart =>
    some (if b = Config.START then .rxStart else .rxRestart .badStart b Config.START)
  | .awaitSequence => some (if b = seq then .rxSeq else .rxRestart .badSeq b seq)
  | .awaitLength => some .rxLen
  | .awaitToken =>
    some (if b = Config.TOKEN then .rxToken else .rxRestart .badToken b Config.TOKEN)
  | .awaitPayload => some .rxPayload
  | .awaitChecksum => some (if b = xacc then .rxCsum else .rxRestart .badChecksum b xacc)
  | .idle => none
  | .done => none
  | .failed => none

/-- The rule that fires in a state of the receive machine: the case table of R150 (R30). -/
def rxRule : RxState → Option Instr
  | .awaitStart => some .rxStart
  | .awaitSequence => some .rxSeq
  | .awaitLength => some .rxLen
  | .awaitToken => some .rxToken
  | .awaitPayload => some .rxPayload
  | .awaitChecksum => some .rxCsum
  | .idle => none
  | .done => none
  | .failed => none

/-- The `RXBYTE` rows that a byte selects by itself, because their comparison is against a constant:
`RX.START` and `RX.TOKEN` (R113). -/
def decodeRxByte (b : Byte) : Except DecodeError Instr :=
  if b = Config.START then .ok .rxStart
  else if b = Config.TOKEN then .ok .rxToken
  else .error .needsState

/-- A host operation invoked by name (R40, R113 format `HOSTOP`). -/
def HostOp.toInstr : HostOp → Instr
  | .sendrecv seq payload timeout => .sendrecv seq payload timeout
  | .hexdec text offset => .hexdec text offset
  | .hexenc lineSize => .hexenc lineSize

/-- `HEXDEC` with its offset left out (R112). -/
def HostOp.hexdecDefault (text : Text) : HostOp := .hexdec text Config.OFFSET_DEFAULT

/-- `HEXENC` with its line size left out (R112). -/
def HostOp.hexencDefault : HostOp := .hexenc Config.LINESIZE_DEFAULT

/-- Decode the bytes of one format. Where an incoming and an outgoing row share bits (`REC.DATA` and
`EMIT.DATA`) this is the incoming row, since "no decoder ever chooses between them" (R113). -/
def decode (f : Format) (bytes : List Byte) : Except DecodeError Instr :=
  match f with
  | .frame => (decodeFrame bytes).mapError .frame
  | .hexrec =>
    match decodeLine bytes with
    | .ok r => .ok r.toInstr
    | .error e => .error (.line e)
  | .rxbyte =>
    match bytes with
    | [b] => decodeRxByte b
    | _ => .error .needsState
  | .hostop => .error .byName

/-! ## The encoder -/

/-- The bytes of an instruction: a whole frame for `FRAME.TX`, one line without its LF for a `REC` row,
one line with its LF for an `EMIT` row (R222 to R224), the accepted byte for a receive row that names
one. The other rows have no bits of their own (R113). -/
def encode : Instr → Option (List Byte)
  | .sendrecv _ _ _ => none
  | .frameTx seq len payload => some (frameBytes seq len payload)
  | .rxStart => some [Config.START]
  | .rxSeq => none
  | .rxLen => none
  | .rxToken => some [Config.TOKEN]
  | .rxPayload => none
  | .rxCsum => none
  | .rxRestart _ _ _ => none
  | .rxStall _ _ => none
  | .hexdec _ _ => none
  | .recData addr data => some (recordLine 0x00 addr data)
  | .recEof addr data => some (recordLine 0x01 addr data)
  | .recEsa addr data => some (recordLine 0x02 addr data)
  | .recEla addr data => some (recordLine 0x04 addr data)
  | .recUnk ty addr data => some (recordLine ty addr data)
  | .hexenc _ => none
  | .emitEla v => some (recordLine 0x04 0 [hiByte v, loByte v] ++ [Config.LF])
  | .emitData a16 d => some (recordLine 0x00 a16 d ++ [Config.LF])
  | .emitEof => some (Config.EOF_LINE ++ [Config.LF])

/-! ## The opcode table's numbers -/

/-- The HEX line whose first four bytes are the 32-bit number `w` of R113
(`BC << 24 | ADDR << 8 | RTYPE`), with `BC` data bytes of zero and the checksum they require. -/
def tableLine (w : Nat) : Text :=
  recordLine (BitVec.ofNat 8 w) (BitVec.ofNat 16 (w / 256))
    (List.replicate (w / 2 ^ 24 % 256) 0)

/-- The frame whose first five bytes are the 40-bit number `w` of R113
(`START << 32 | SEQ << 24 | LEN << 8 | TOKEN`), with a payload of zeros and its checksum. -/
def tableFrame (w : Nat) : List Byte :=
  let len : Half := BitVec.ofNat 16 (w / 256)
  let body :=
    [BitVec.ofNat 8 (w / 2 ^ 32), BitVec.ofNat 8 (w / 2 ^ 24), hiByte len, loByte len,
      BitVec.ofNat 8 w] ++ List.replicate len.toNat 0
  body ++ [xorBytes body]

/-- The instruction the decoder reads from an opcode-table number of `nbits` bits (assumption 17):
a lone byte that is a receive row's constant is that row; up to 32 bits are the first four bytes of a
HEX line; up to 40 bits are the first five bytes of a frame. -/
def decodeTableWord (nbits w : Nat) : Option Instr :=
  if nbits ≤ 8 ∧ w = Config.START.toNat then (decode .rxbyte [BitVec.ofNat 8 w]).toOption
  else if nbits ≤ 8 ∧ w = Config.TOKEN.toNat then (decode .rxbyte [BitVec.ofNat 8 w]).toOption
  else if nbits ≤ 32 then (decode .hexrec (tableLine w)).toOption
  else if nbits ≤ 40 then (decode .frame (tableFrame w)).toOption
  else none

end Sys2Proof
end

