-- ==== Sys2Proof/Machine/State.lean ====
section
/-! DEFINITION. The state of the block (`spec/10_state.md` rules R20 to R34, `spec/20_memory.md` rule R60), its
sequencing, and its environment as plain data (R40 to R46). A register whose rule says `REG <- none`
(R12, R21) is an `Option`: holding no value is the spec's own state for it (assumption 1). -/

namespace Sys2Proof.Machine

/-- The error codes of both units (R240). -/
inductive ErrCode
  | none
  | timeout
  | retryExhausted
  | formatError
  | checksumError
  | unsupportedRecord
  | payloadTooLong
  | capacityExceeded
  | encodeRefused
  deriving DecidableEq, Repr

/-- One event of the receive machine, as `FTE_INFO` records it (R25). For a short read `actual` and
`expected` are the bytes that arrived and the bytes asked for. -/
structure FteEvent where
  kind : EventKind
  actual : Nat
  expected : Nat
  state : RxState
  retry : Nat
  deriving DecidableEq, Repr

/-- `FTE_INFO`: the last event (R25), or the length that `PayloadTooLong` carries (R130, R240). -/
inductive FteInfo
  | event (e : FteEvent)
  | payloadLength (n : Nat)
  deriving DecidableEq, Repr

/-- `HIC_INFO`: line number and line text of the offending line (R27, R240). -/
structure HicInfo where
  lineNo : Nat
  line : Text
  deriving DecidableEq, Repr

/-- The registers of the Frame Transport Engine (R22), all independent of the codec's (R3). -/
structure Fte where
  /-- `SEQ`, transient: the sequence byte of this SENDRECV (R23). -/
  seq : Option Byte
  /-- `TMO`, transient: the timeout operand, opaque (R26). -/
  tmo : Option Nat
  /-- `TXLEN`, transient: the length of the request payload. -/
  txlen : Option Half
  /-- `RXSTATE`, the sequencing register (R30). -/
  rxstate : RxState
  /-- `RETRY`, transient: 0..11 (R24). -/
  retry : Option Nat
  /-- `XACC`, transient: the running XOR of the frame being received. -/
  xacc : Option Byte
  /-- `LEN`, transient: the length field of the frame being received. -/
  len : Option Half
  /-- `PAY`, transient: the payload of the frame being received. -/
  pay : Option (List Byte)
  /-- `RESULT`: the response payload of the last successful SENDRECV. -/
  result : Option (List Byte)
  /-- `FTE_ERR` (R33, R240). -/
  err : ErrCode
  /-- `FTE_INFO` (R25). -/
  info : Option FteInfo
  deriving DecidableEq, Repr

/-- The Image (R60): `IMG_LEN` bytes, of which `cells` lists those that differ from the fill value, by
rising address. An address below `len` that is not listed holds `FILL` (R66); an address at or above
`len` does not exist (R61). -/
structure Memory where
  /-- `IMG_LEN` (R27). -/
  len : Nat
  cells : List Host.Cell
  deriving DecidableEq, Repr

/-- The registers of the Hex Image Codec and its Image (R27, R44). -/
structure Hic where
  /-- `EAB`, the extended address base; kept across operations (R28). -/
  eab : Half
  /-- The Image, with `IMG_LEN` (R60). -/
  img : Memory
  /-- `OFFSET`: kept after HEXDEC so that the host can read it (R29). -/
  offset : Option Nat
  /-- `LINE_NO`, transient: counts the pieces of the text (R181). -/
  lineNo : Option Nat
  /-- `LINE`, transient: the piece being parsed. -/
  line : Option Text
  /-- `BC`, transient. -/
  bc : Option Byte
  /-- `ADDR`, transient. -/
  addr : Option Half
  /-- `RTYPE`, transient. -/
  rtype : Option Byte
  /-- `DATA`, transient. -/
  data : Option (List Byte)
  /-- `CSUM`, transient. -/
  csum : Option Byte
  /-- `ENC_LS`, transient: the line size of this HEXENC, 1..255. -/
  encLs : Option Nat
  /-- `ENC_A`, transient: the Image address of the next data line (R32). -/
  encA : Option Nat
  /-- `HIC_ERR` (R33, R240). -/
  err : ErrCode
  /-- `HIC_INFO` (R27). -/
  info : Option HicInfo
  /-- `TXT_OUT`, the output text (R44). -/
  txtOut : Option Text
  deriving DecidableEq, Repr

/-- The two units (R1). -/
inductive UnitName
  | fte
  | hic
  deriving DecidableEq, Repr

/-- Where the one host operation in progress stands (R40, R45). With `RXSTATE`, `LINE_NO` and `ENC_A` this
is what the block has in the place of a program counter (R30 to R32; assumption 3). -/
inductive Activity
  /-- No operation is in progress. -/
  | idle
  /-- SENDRECV has latched its operands and calls FRAME.TX next (R130). -/
  | transmit (payload : List Byte)
  /-- The receive machine runs (R150). -/
  | receive
  /-- HEXDEC runs; `rest` is the text not yet cut, `none` once the last piece is taken (R31, R181). -/
  | decode (rest : Option Text)
  /-- HEXENC runs; `elaDone` says that the extended-linear-address line for the present address has
  been emitted (R221). -/
  | encode (elaDone : Bool)
  /-- The operation of the unit is over and returns to the host (R241). -/
  | ret (u : UnitName)
  deriving DecidableEq, Repr

/-- One thing the RX side of the byte stream will do (R42): deliver a byte, or let one read's timeout
elapse. Every choice R42 leaves the environment is a list of these (assumption 5). -/
inductive RxItem
  | byte (b : Byte)
  | stall
  deriving DecidableEq, Repr

/-- The environment (R40 to R46, R280): no state of the block, kept beside it as plain data. -/
structure Env where
  /-- What the RX side of the byte stream will do, in order. -/
  rx : List RxItem
  /-- The byte sequences handed to the TX side, one per `StreamWrite`, oldest first (R41). -/
  tx : List (List Byte)
  /-- The read timeout last applied to the stream (R135, R282). -/
  streamTmo : Option Nat
  /-- The host operations the host will start, in order (R40). -/
  cmds : List HostOp
  /-- The reset event (R280): the next step resets the block. -/
  resetReq : Bool
  deriving DecidableEq, Repr

/-- The whole machine: two units that share no state (R3), their sequencing, the environment and the
parameters. -/
structure State where
  fte : Fte
  hic : Hic
  act : Activity
  env : Env
  params : Params
  deriving DecidableEq, Repr

/-- The registers that can hold no value (R21). -/
inductive Reg
  | SEQ
  | TMO
  | TXLEN
  | RETRY
  | XACC
  | LEN
  | PAY
  | OFFSET
  | LINE_NO
  | LINE
  | BC
  | ADDR
  | RTYPE
  | DATA
  | CSUM
  | ENC_LS
  | ENC_A
  | TXT_OUT
  deriving DecidableEq, Repr

/-- Why the machine stops. -/
inductive Fault
  /-- A rule read a register that holds no value: R21 asks for a fault, not a zero. Raised by
  `need`. Safe: no state that the block can reach raises it. -/
  | noValue (r : Reg)
  /-- `MemRead` or `MemWrite` outside the Image: R64 and R65 require `a + n <= IMG_LEN`, and no byte
  exists beyond it (R61). Raised by `memRead` and `memWrite` through their callers. Safe. -/
  | outsideImage (a n : Nat)
  deriving DecidableEq, Repr

/-- Why the machine gives an instruction no meaning. -/
inductive Refusal
  /-- Raised by an arm of `exec` whose instruction has no meaning yet. Safe. No arm answers so. -/
  | notModelled (mnemonic : String)
  /-- A host operation was started while another is in progress: "undefined and must be prevented by the
  caller" (R45, R291, 93 U1). Raised by SENDRECV, HEXDEC and HEXENC. Safe. -/
  | operationInFlight
  /-- An operand lies outside the range its rule states, so the rule gives no effect. No decoder and no
  step produces such an instruction. Raised by `ifWellFormed`. Safe. -/
  | illFormed
  deriving DecidableEq, Repr

/-- The FTE after reset (R22, R50). -/
def Fte.reset : Fte :=
  { seq := none, tmo := none, txlen := none, rxstate := .idle, retry := none, xacc := none,
    len := none, pay := none, result := none, err := .none, info := none }

/-- The Image "created empty" (R50, R60). -/
def Memory.empty : Memory := { len := 0, cells := [] }

/-- The HIC after reset (R27, R50). -/
def Hic.reset : Hic :=
  { eab := 0, img := Memory.empty, offset := none, lineNo := none, line := none, bc := none,
    addr := none, rtype := none, data := none, csum := none, encLs := none, encA := none,
    err := .none, info := none, txtOut := none }

/-- An environment in which nothing waits: the model's own start for what R282 says reset does not
touch (assumption 6). -/
def Env.quiet : Env :=
  { rx := [], tx := [], streamTmo := none, cmds := [], resetReq := false }

/-- The machine right after reset (R50, R280). -/
def State.reset : State :=
  { fte := Fte.reset, hic := Hic.reset, act := .idle, env := Env.quiet,
    params := Params.specValue }

/-- Replace the FTE registers. -/
def State.withFte (s : State) (f : Fte) : State := { s with fte := f }

/-- Replace the HIC registers. -/
def State.withHic (s : State) (h : Hic) : State := { s with hic := h }

/-- Replace the activity. -/
def State.withAct (s : State) (a : Activity) : State := { s with act := a }

/-- Replace the environment. -/
def State.withEnv (s : State) (e : Env) : State := { s with env := e }

end Sys2Proof.Machine
end

