-- ==== Sys2Proof/Machine/Memory.lean ====
section
/-! DEFINITION. The Image and its primitives `MemRead`, `MemWrite` and `ImgGrow` (`spec/20_memory.md` rules R60,
R64 to R66), over the canonical list of the cells that differ from the fill value. -/

namespace Sys2Proof.Machine

/-- What an unlisted address below `IMG_LEN` reads as: every newly introduced byte is `FILL` (R66). -/
abbrev Memory.unlisted : Byte := Config.FILL

/-- The addresses rise strictly from `lo` on, lie below `len`, and no listed byte is the fill value. -/
def cellsWf (len : Nat) : Nat → List Host.Cell → Bool
  | _, [] => true
  | lo, (a, b) :: cs =>
    decide (lo ≤ a) && decide (a < len) && decide (b ≠ Memory.unlisted) && cellsWf len (a + 1) cs

/-- The canonical form: equal Images are equal data. -/
def Memory.wf (m : Memory) : Bool := cellsWf m.len 0 m.cells

/-- The byte a cell list holds at an address. -/
def cellAt (a : Nat) : List Host.Cell → Byte
  | [] => Memory.unlisted
  | (a', b) :: cs => if a = a' then b else cellAt a cs

/-- `IMG[a]`; none when the Image has no byte there (R60, R61). -/
def Memory.get (m : Memory) (a : Nat) : Option Byte :=
  if a < m.len then some (cellAt a m.cells) else none

/-- Put a byte at an address: the fill value removes the cell. -/
def setCell (a : Nat) (b : Byte) : List Host.Cell → List Host.Cell
  | [] => if b = Memory.unlisted then [] else [(a, b)]
  | (a', b') :: cs =>
    if a < a' then (if b = Memory.unlisted then (a', b') :: cs else (a, b) :: (a', b') :: cs)
    else if a = a' then (if b = Memory.unlisted then cs else (a, b) :: cs)
    else (a', b') :: setCell a b cs

/-- Put a sequence of bytes at ascending addresses from `a` on (R65, R68). -/
def setCells (a : Nat) : List Byte → List Host.Cell → List Host.Cell
  | [], cs => cs
  | b :: bs, cs => setCells (a + 1) bs (setCell a b cs)

/-- The `n` bytes a cell list holds from `a` on. -/
def cellsFrom (cs : List Host.Cell) (a : Nat) : Nat → List Byte
  | 0 => []
  | n + 1 => cellAt a cs :: cellsFrom cs (a + 1) n

/-- `MemRead(a, n)` (R64): it requires `a + n <= IMG_LEN`, and has no side effect. -/
def memRead (a n : Nat) (m : Memory) : Option (List Byte) :=
  if a + n ≤ m.len then some (cellsFrom m.cells a n) else none

/-- `MemWrite(a, n, v)` (R65): it requires `|v| = n` and `a + n <= IMG_LEN`; other bytes keep their
values. -/
def memWrite (a n : Nat) (v : List Byte) (m : Memory) : Option Memory :=
  if v.length = n ∧ a + n ≤ m.len then some { m with cells := setCells a v m.cells } else none

/-- `ImgGrow(m)` (R66): nothing when the Image is long enough; none, for `CapacityExceeded`, past
`IMG_CAP`; otherwise the new bytes hold `FILL`. It never shrinks the Image. -/
def imgGrow (cap : Option Nat) (n : Nat) (m : Memory) : Option Memory :=
  if n ≤ m.len then some m
  else
    match cap with
    | none => some { m with len := n }
    | some c => if n ≤ c then some { m with len := n } else none

end Sys2Proof.Machine
end

