-- ==== Sys2Proof/Machine/Ops.lean ====
section
/-! DEFINITION. The pseudocode primitives of `spec/00_scope.md` rule R12 over the state, the raising of an error and
the return to the host (`spec/60_exceptions.md` rules R241, R250, R251), the receive machine's restart and
stall (R157, R158), and reset (R280 to R282). -/

namespace Sys2Proof.Machine

/-- The outcome of a rule. -/
abbrev Out := Host.Outcome State Fault Refusal

/-- Go on from a next state; a fault or a refusal stands. -/
def andThen (o : Out) (k : State → Out) : Out :=
  match o with
  | .next s => k s
  | .fault r => .fault r
  | .refused r => .refused r

/-- Read a register that may hold no value; reading none is a fault (R21). -/
def need {α : Type} (r : Reg) (o : Option α) (k : α → Out) : Out :=
  match o with
  | some v => k v
  | none => .fault (.noValue r)

/-- A rule gives an effect only to operands in the range it states (`wellFormed`). -/
def ifWellFormed (i : Instr) (k : Out) : Out :=
  if i.wellFormed then k else .refused .illFormed

/-- A host operation starts only when no other is in progress (R40, R45, R291, 93 U1). -/
def ifIdle (s : State) (k : Out) : Out :=
  if s.act = .idle then k else .refused .operationInFlight

/-! ## The byte stream -/

/-- What `StreamRead(n)` takes from the RX side (R42): up to `n` bytes, in order, ending early at a
timeout or where the stream has nothing more. What it returns is consumed. -/
def takeBytes : Nat → List RxItem → List Byte × List RxItem
  | 0, q => ([], q)
  | _ + 1, [] => ([], [])
  | _ + 1, .stall :: q => ([], q)
  | n + 1, .byte b :: q => (b :: (takeBytes n q).1, (takeBytes n q).2)

/-- `StreamRead(n)` (R12, R42): the bytes, and the state after they are consumed. -/
def streamRead (n : Nat) (s : State) : List Byte × State :=
  ((takeBytes n s.env.rx).1, s.withEnv { s.env with rx := (takeBytes n s.env.rx).2 })

/-- `StreamWrite(s)` (R12, R41): the whole sequence in one call, assumed to complete. -/
def streamWrite (bytes : List Byte) (s : State) : State :=
  s.withEnv { s.env with tx := s.env.tx ++ [bytes] }

/-- `Emit(s)` (R12, R44): append to the output text. -/
def emit (t : Text) (s : State) : Out :=
  need .TXT_OUT s.hic.txtOut fun out => .next (s.withHic { s.hic with txtOut := some (out ++ t) })

/-! ## Errors -/

/-- An error with the information it carries (R240). -/
inductive Raised
  | fte (e : ErrCode) (info : FteInfo)
  | hic (e : ErrCode) (info : Option HicInfo)
  deriving DecidableEq, Repr

/-- `raise E(info)` (R241): the unit's error register and information register are set and the
operation ends at that point; nothing else changes (R250). There is no handler to go to. -/
def raise (r : Raised) (s : State) : State :=
  match r with
  | .fte e info => (s.withFte { s.fte with err := e, info := some info }).withAct (.ret .fte)
  | .hic e info => (s.withHic { s.hic with err := e, info := info }).withAct (.ret .hic)

/-- Raise a HEXDEC error at the line in `LINE` (R240, R241). -/
def raiseLine (e : ErrCode) (s : State) : Out :=
  need .LINE_NO s.hic.lineNo fun n =>
  need .LINE s.hic.line fun l => .next (raise (.hic e (some { lineNo := n, line := l })) s)

/-- The FTE outside an operation: its transient registers hold no value (R21, R22). -/
def Fte.clearTransient (f : Fte) : Fte :=
  { f with seq := none, tmo := none, txlen := none, retry := none, xacc := none, len := none,
           pay := none }

/-- The HIC outside an operation: its transient registers hold no value (R21, R27), but `OFFSET`
stays readable until the next HEXDEC (R29). -/
def Hic.clearTransient (h : Hic) : Hic :=
  { h with lineNo := none, line := none, bc := none, addr := none, rtype := none, data := none,
           csum := none, encLs := none, encA := none }

/-- An operation of a unit returns to the host, after success or after an error (R241, R251): outside
it the unit's transient registers hold no value (R21). -/
def finish (u : UnitName) (s : State) : State :=
  match u with
  | .fte => (s.withFte s.fte.clearTransient).withAct .idle
  | .hic => (s.withHic s.hic.clearTransient).withAct .idle

/-! ## The receive machine's restart and stall -/

/-- The accumulator of a receive attempt is dropped (R157, R158, R292). -/
def Fte.dropFrame (f : Fte) : Fte := { f with xacc := none, len := none, pay := none }

/-- `RX.RESTART(kind, actual, expected)` (R157): the one place `RETRY` grows; past `MAX_RETRY` the
machine is in `Failed`, before any other byte is read. -/
def restart (kind : EventKind) (actual expected : Byte) (s : State) : Out :=
  need .RETRY s.fte.retry fun r =>
    let info : FteInfo := .event
      { kind := kind, actual := actual.toNat, expected := expected.toNat, state := s.fte.rxstate,
        retry := r + 1 }
    let f : Fte := { s.fte.dropFrame with retry := some (r + 1), info := some info }
    if r + 1 > Config.MAX_RETRY then
      .next (raise (.fte .retryExhausted info)
        (s.withFte { f with rxstate := .failed, err := .retryExhausted }))
    else .next (s.withFte { f with rxstate := .awaitStart })

/-- `RX.STALL(asked, got)` (R158): a short read is a `Timeout`, whatever `RETRY` holds. -/
def stall (asked got : Nat) (s : State) : Out :=
  need .RETRY s.fte.retry fun r =>
    let info : FteInfo := .event
      { kind := .shortRead, actual := got, expected := asked, state := s.fte.rxstate, retry := r }
    .next (raise (.fte .timeout info)
      (s.withFte { s.fte.dropFrame with info := some info, rxstate := .failed, err := .timeout }))

/-! ## Reset -/

/-- The reset event (R280): every register takes its reset value; the environment and the parameters
stay as they are (R282), and the event itself is over. -/
def resetBlock (s : State) : State :=
  { State.reset with env := { s.env with resetReq := false }, params := s.params }

end Sys2Proof.Machine
end

