-- ==== Sys2Proof/Machine/Operands.lean ====
section
/-! DEFINITION. How operands are latched and used: a record's fields (R101, R184), the address of a data record
(R75, R192), the segment amount of a type-2 record (R194), the domain and the strides of HEXENC (R220,
R221). -/

namespace Sys2Proof.Machine

/-! ## The record of a HEX line -/

/-- R184: `BC`, `ADDR`, `RTYPE`, `DATA` and `CSUM` take the fields of the line. -/
def Hic.latch (h : Hic) (r : Record) : Hic :=
  { h with bc := some r.bc, addr := some r.addr, rtype := some r.rtype, data := some r.data,
           csum := some r.csum }

/-- The record that a line with a good checksum holds (R105). -/
def goodRecord (rtype : Byte) (addr : Half) (data : List Byte) : Record :=
  { rtype := rtype, addr := addr, data := data, csum := recordChecksum rtype addr data }

/-- The fields that R184 and R185 had latched when they rejected the line (R250). -/
def Hic.latchRejected (h : Hic) : LineError → Hic
  | .noMarker => h
  | .tooShort => h
  | .notHex => h
  | .wrongLength bc => { h with bc := some bc }
  | .badChecksum r => h.latch r

/-- The error a rejected line raises (R183 to R185, R244, R245). -/
def lineErrCode : LineError → ErrCode
  | .noMarker => .formatError
  | .tooShort => .formatError
  | .notHex => .formatError
  | .wrongLength _ => .formatError
  | .badChecksum _ => .checksumError

/-! ## Addresses -/

/-- The `OFFSET` term of R75: `OFFSET if OFFSET_APPLIED else 0`. It is written by cases on the offset
first, so that an offset of 0 gives 0 without asking for the parameter. -/
def offsetTerm (applied : Bool) : Nat → Nat
  | 0 => 0
  | n + 1 => if applied then n + 1 else 0

/-- `abs = (EAB << 16) + ADDR + (OFFSET if OFFSET_APPLIED else 0)` (R75, R192), on naturals: it never
wraps (R62). -/
def recordAddress (eab addr : Half) (applied : Bool) (offset : Nat) : Nat :=
  eab.toNat * 65536 + addr.toNat + offsetTerm applied offset

/-- The absolute address of a data record (R192), given to the rest of the rule. `OFFSET` is read only
when `OFFSET_APPLIED` (R27); reading it with no value is a fault (R21). -/
def withRecordAddress (addr : Half) (s : State) (k : Nat → Out) : Out :=
  match s.hic.offset with
  | some n => k (recordAddress s.hic.eab addr s.params.offsetApplied n)
  | none =>
    if s.params.offsetApplied then .fault (.noValue .OFFSET)
    else k (recordAddress s.hic.eab addr false 0)

/-- `(DATA[1] << 4) | ((DATA[0] & 0xFF) << 12)`, the amount a type-2 record adds to `OFFSET`, exactly as
printed (R194, 93 U4). -/
def segmentAmount (d0 d1 : Byte) : Nat := (d1.toNat <<< 4) ||| ((d0.toNat &&& 0xFF) <<< 12)

/-! ## The encoder's operands -/

/-- The three tests with which HEXENC refuses a request (R220, R225). -/
def encodeRefused (lineSize imgLen : Nat) : Bool :=
  decide (lineSize < 1) || decide (lineSize > 255) || decide (imgLen > 2 ^ 32) ||
    (decide (65536 % lineSize ≠ 0) && decide (imgLen > 65536))

/-- `n = min(ENC_LS, IMG_LEN - ENC_A)` (R221). -/
def encodeCount (ls a imgLen : Nat) : Nat := min ls (imgLen - a)

/-- `ENC_A[15:0]` (R221). -/
def encodeLow (a : Nat) : Half := BitVec.ofNat 16 a

/-- `ENC_A >> 16` (R221). -/
def encodeHigh (a : Nat) : Half := BitVec.ofNat 16 (a / 65536)

/-- Whether the walk is at a 64 KiB boundary past the first line (R221). -/
def atBoundary (a : Nat) : Bool := decide (0 < a) && decide (a % 65536 = 0)

end Sys2Proof.Machine
end

