-- ==== Sys2Proof/Machine/Flags.lean ====
section
/-! DEFINITION. The block has no condition codes and no arithmetic flags; what a host can test is the status of
`spec/10_state.md` rule R33 and the numeric error codes of `spec/60_exceptions.md` rule R240. -/

namespace Sys2Proof.Machine

/-- The code of an error (R240). -/
def ErrCode.number : ErrCode → Nat
  | .none => 0
  | .timeout => 1
  | .retryExhausted => 2
  | .formatError => 3
  | .checksumError => 4
  | .unsupportedRecord => 5
  | .payloadTooLong => 6
  | .capacityExceeded => 7
  | .encodeRefused => 8

/-- The error codes of the FTE (R240, column "unit"). -/
def ErrCode.ofFte : ErrCode → Bool
  | .none => true
  | .timeout => true
  | .retryExhausted => true
  | .payloadTooLong => true
  | .formatError => false
  | .checksumError => false
  | .unsupportedRecord => false
  | .capacityExceeded => false
  | .encodeRefused => false

/-- The error codes of the HIC (R240, column "unit"). -/
def ErrCode.ofHic : ErrCode → Bool
  | .none => true
  | .timeout => false
  | .retryExhausted => false
  | .payloadTooLong => false
  | .formatError => true
  | .checksumError => true
  | .unsupportedRecord => true
  | .capacityExceeded => true
  | .encodeRefused => true

/-- The six waiting states of the receive machine (R30). -/
def isWaiting : RxState → Bool
  | .idle => false
  | .awaitStart => true
  | .awaitSequence => true
  | .awaitLength => true
  | .awaitToken => true
  | .awaitPayload => true
  | .awaitChecksum => true
  | .done => false
  | .failed => false

/-- What a host reads back of the FTE (R22, R33, R34): `RXSTATE`, the code in `FTE_ERR`, `FTE_INFO` and
`RESULT`. -/
def fteStatus (s : State) : RxState × Nat × Option FteInfo × Option (List Byte) :=
  (s.fte.rxstate, s.fte.err.number, s.fte.info, s.fte.result)

/-- What a host reads back of the HIC (R27, R33, R34, R40): the code in `HIC_ERR`, `HIC_INFO`, `OFFSET`,
`IMG_LEN` and `TXT_OUT`. -/
def hicStatus (s : State) : Nat × Option HicInfo × Option Nat × Nat × Option Text :=
  (s.hic.err.number, s.hic.info, s.hic.offset, s.hic.img.len, s.hic.txtOut)

end Sys2Proof.Machine
end

