-- ==== Sys2Proof/Machine/FrameTransmit.lean ====
section
/-! DEFINITION. SENDRECV and the frame encoder (`spec/40_frame_transmit.md`). -/

namespace Sys2Proof.Machine

/-- SENDRECV clears what an earlier call left (R130, first two lines). -/
def Fte.startCall (f : Fte) : Fte :=
  { f with err := .none, info := none, result := none, xacc := none, len := none, pay := none }

/-- SENDRECV latches its operands (R130). -/
def Fte.latchCall (f : Fte) (seq : Byte) (timeout : Nat) (payload : List Byte) : Fte :=
  { f with seq := some seq, tmo := some timeout, txlen := some (BitVec.ofNat 16 payload.length) }

/-- `SENDRECV` (R130) up to its call of `FRAME.TX`: a payload longer than 65535 bytes is refused with
`PayloadTooLong` before anything is written; otherwise the operands are latched. The rest of the
operation is `startReceive`, the receive machine (R150) and the return (`finish`). -/
def execSendrecv (seq : Byte) (payload : List Byte) (timeout : Nat) (s : State) : Out :=
  ifIdle s <|
    if payload.length > Config.MAX_PAYLOAD then
      .next (raise (.fte .payloadTooLong (.payloadLength payload.length))
        (s.withFte { s.fte.startCall with rxstate := .failed }))
    else
      .next ((s.withFte (s.fte.startCall.latchCall seq timeout payload)).withAct
        (.transmit payload))

/-- `FRAME.TX` (R131): one `StreamWrite` of the whole frame. -/
def execFrameTx (seq : Byte) (len : Half) (payload : List Byte) (s : State) : Out :=
  ifWellFormed (.frameTx seq len payload) <| .next (streamWrite (frameBytes seq len payload) s)

/-- SENDRECV after its call of `FRAME.TX` (R130, R135): the stream's read timeout is `TMO` from here
on, `RETRY` is 0 and the receive machine starts in `AwaitStart`. -/
def startReceive (s : State) : Out :=
  need .TMO s.fte.tmo fun t =>
    .next (((s.withEnv { s.env with streamTmo := some t }).withFte
      { s.fte with retry := some 0, rxstate := .awaitStart }).withAct .receive)

end Sys2Proof.Machine
end

