-- ==== Sys2Proof/Machine/FrameReceive.lean ====
section
/-! DEFINITION. The receive state machine (`spec/41_frame_receive.md`): one meaning for each of its eight rows. A
firing is one `StreamRead` of the state's full size and then a move, a restart or a stall (R150). -/

namespace Sys2Proof.Machine

/-- `RX.START` (R151): the accumulator is set afresh at the accepted start marker; any other byte is
discarded and costs one retry (90 C1). -/
def execRxStart (s : State) : Out :=
  match streamRead 1 s with
  | (b :: _, s1) =>
    if b = Config.START then
      .next (s1.withFte { s1.fte with xacc := some Config.START, rxstate := .awaitSequence })
    else restart .badStart b Config.START s1
  | ([], s1) => stall 1 0 s1

/-- `RX.SEQ` (R152): the byte must equal `SEQ` in all eight bits. -/
def execRxSeq (s : State) : Out :=
  match streamRead 1 s with
  | (b :: _, s1) =>
    need .SEQ s1.fte.seq fun q =>
      if b = q then
        need .XACC s1.fte.xacc fun x =>
          .next (s1.withFte { s1.fte with xacc := some (x ^^^ b), rxstate := .awaitLength })
      else restart .badSeq b q s1
  | ([], s1) => stall 1 0 s1

/-- `RX.LEN` (R153): two bytes, big-endian, every value accepted. -/
def execRxLen (s : State) : Out :=
  match streamRead 2 s with
  | (hi :: lo :: _, s1) =>
    need .XACC s1.fte.xacc fun x =>
      .next (s1.withFte
        { s1.fte with len := some (be16 hi lo), xacc := some (x ^^^ hi ^^^ lo),
                      rxstate := .awaitToken })
  | (got, s1) => stall 2 got.length s1

/-- `RX.TOKEN` (R154): the byte must be the token. -/
def execRxToken (s : State) : Out :=
  match streamRead 1 s with
  | (b :: _, s1) =>
    if b = Config.TOKEN then
      need .XACC s1.fte.xacc fun x =>
        .next (s1.withFte
          { s1.fte with xacc := some (x ^^^ Config.TOKEN), rxstate := .awaitPayload })
    else restart .badToken b Config.TOKEN s1
  | ([], s1) => stall 1 0 s1

/-- `RX.PAYLOAD` (R155): one read of `LEN` bytes, none at all when `LEN = 0` (90 C2). -/
def execRxPayload (s : State) : Out :=
  need .LEN s.fte.len fun len =>
    if len = 0 then .next (s.withFte { s.fte with pay := some [], rxstate := .awaitChecksum })
    else
      match streamRead len.toNat s with
      | (r, s1) =>
        if r.length < len.toNat then stall len.toNat r.length s1
        else
          need .XACC s1.fte.xacc fun x =>
            .next (s1.withFte
              { s1.fte with pay := some r, xacc := some (x ^^^ xorBytes r),
                            rxstate := .awaitChecksum })

/-- `RX.CSUM` (R156): the byte must equal the XOR of everything accumulated; then the payload is the
result and the machine is in `Done`. `RETRY` is not cleared by success. -/
def execRxCsum (s : State) : Out :=
  match streamRead 1 s with
  | (b :: _, s1) =>
    need .XACC s1.fte.xacc fun x =>
      if b = x then
        need .PAY s1.fte.pay fun p =>
          .next (s1.withFte { s1.fte with result := some p, err := .none, rxstate := .done })
      else restart .badChecksum b x s1
  | ([], s1) => stall 1 0 s1

/-- `RX.RESTART` (R157): the shared operation `restart`, which the mismatches above also call. -/
def execRxRestart (kind : EventKind) (actual expected : Byte) (s : State) : Out :=
  ifWellFormed (.rxRestart kind actual expected) <| restart kind actual expected s

/-- `RX.STALL` (R158): the shared operation `stall`, which the short reads above also call. -/
def execRxStall (asked got : Nat) (s : State) : Out :=
  ifWellFormed (.rxStall asked got) <| stall asked got s

end Sys2Proof.Machine
end

