-- ==== Sys2Proof/Machine/HexDecode.lean ====
section
/-! DEFINITION. HEXDEC and the record types (`spec/42_hex_decode.md`). A `REC` meaning runs on a line that has
passed the checks of R183 to R185 (`decodeLine`): it latches the record's fields (R184) and then does
what its type does. -/

namespace Sys2Proof.Machine

/-- `HEXDEC` (R180) up to its line loop: the error registers are cleared, `OFFSET` is loaded, `LINE_NO`
is 0. `EAB` and the Image are kept (R28, R189). The loop over the pieces is `nextPiece`. -/
def execHexdec (text : Text) (offset : Nat) (s : State) : Out :=
  ifIdle s <|
    .next ((s.withHic
      { s.hic with err := .none, info := none, offset := some offset, lineNo := some 0 }).withAct
        (.decode (some text)))

/-- The state after R184 has latched a line's fields. -/
def latchRecord (rtype : Byte) (addr : Half) (data : List Byte) (s : State) : State :=
  s.withHic (s.hic.latch (goodRecord rtype addr data))

/-- `ImgGrow(abs + BC)` and `MemWrite(abs, BC, DATA)` (R192). -/
def storeRecord (abs n : Nat) (data : List Byte) (s : State) : Out :=
  match imgGrow s.params.imgCap (abs + n) s.hic.img with
  | none => raiseLine .capacityExceeded s
  | some grown =>
    match memWrite abs n data grown with
    | none => .fault (.outsideImage abs n)
    | some written => .next (s.withHic { s.hic with img := written })

/-- `REC.DATA` (R192): the Image grows to `abs + BC` and `DATA[k]` goes to `abs + k`. -/
def execRecData (addr : Half) (data : List Byte) (s : State) : Out :=
  ifWellFormed (.recData addr data) <|
    let s1 := latchRecord 0x00 addr data s
    need .ADDR s1.hic.addr fun a =>
    need .BC s1.hic.bc fun n =>
    need .DATA s1.hic.data fun d =>
    withRecordAddress a s1 fun abs => storeRecord abs n.toNat d s1

/-- `REC.EOF` (R193): parsed and summed, no further effect; the line loop goes on (90 C8). -/
def execRecEof (addr : Half) (data : List Byte) (s : State) : Out :=
  ifWellFormed (.recEof addr data) <| .next (latchRecord 0x01 addr data s)

/-- The two data bytes of a type-2 or type-4 record; any other count is a `FormatError` (R194, R196). -/
def withTwoBytes (s : State) (k : Byte → Byte → Out) : Out :=
  need .BC s.hic.bc fun n =>
  need .DATA s.hic.data fun d =>
    match d with
    | [d0, d1] => if n = 2 then k d0 d1 else raiseLine .formatError s
    | _ => raiseLine .formatError s

/-- `REC.ESA` (R194): `EAB` is replaced by `DATA[0] >> 4` and `OFFSET` grows by the segment amount. -/
def execRecEsa (addr : Half) (data : List Byte) (s : State) : Out :=
  ifWellFormed (.recEsa addr data) <|
    let s1 := latchRecord 0x02 addr data s
    withTwoBytes s1 fun d0 d1 =>
    need .OFFSET s1.hic.offset fun off =>
      .next (s1.withHic
        { s1.hic with eab := BitVec.ofNat 16 (d0.toNat >>> 4),
                      offset := some (off + segmentAmount d0 d1) })

/-- `REC.ELA` (R196): `EAB` is replaced by the two data bytes, big-endian; `OFFSET` is untouched. -/
def execRecEla (addr : Half) (data : List Byte) (s : State) : Out :=
  ifWellFormed (.recEla addr data) <|
    let s1 := latchRecord 0x04 addr data s
    withTwoBytes s1 fun d0 d1 => .next (s1.withHic { s1.hic with eab := be16 d0 d1 })

/-- `REC.UNK` (R198): no effect under `Ignore`, `UnsupportedRecord` under `Reject`. -/
def execRecUnk (rtype : Byte) (addr : Half) (data : List Byte) (s : State) : Out :=
  ifWellFormed (.recUnk rtype addr data) <|
    let s1 := latchRecord rtype addr data s
    match s1.params.unknownPolicy with
    | .ignore => .next s1
    | .reject => raiseLine .unsupportedRecord s1

end Sys2Proof.Machine
end

