-- ==== Sys2Proof/Machine/HexEncode.lean ====
section
/-! DEFINITION. HEXENC and the emitted lines (`spec/43_hex_encode.md`). -/

namespace Sys2Proof.Machine

/-- `HEXENC` (R220) up to its walk: it refuses outside the domain of R225 with nothing emitted;
otherwise the walk starts at address 0 with an empty output text. The walk (R221) is `nextLine`. -/
def execHexenc (lineSize : Nat) (s : State) : Out :=
  ifIdle s <|
    let h : Hic := { s.hic with err := .none, info := none, txtOut := none }
    if encodeRefused lineSize s.hic.img.len then
      .next (raise (.hic .encodeRefused none) (s.withHic h))
    else
      .next ((s.withHic { h with encLs := some lineSize, txtOut := some [], encA := some 0 }).withAct
        (.encode false))

/-- `EMIT.ELA(v)` (R222): the line `:02000004HHLLCC` and LF. -/
def execEmitEla (v : Half) (s : State) : Out :=
  ifWellFormed (.emitEla v) <|
    emit (recordLine 0x04 0 [hiByte v, loByte v] ++ [Config.LF]) s

/-- `EMIT.DATA(n, a16, d)` (R223): one data line and LF. -/
def execEmitData (a16 : Half) (d : List Byte) (s : State) : Out :=
  ifWellFormed (.emitData a16 d) <| emit (recordLine 0x00 a16 d ++ [Config.LF]) s

/-- `EMIT.EOF` (R224): the fixed end-of-file line and LF. -/
def execEmitEof (s : State) : Out := emit (Config.EOF_LINE ++ [Config.LF]) s

end Sys2Proof.Machine
end

