-- ==== Sys2Proof/Machine/Dispatch.lean ====
section
/-! DEFINITION. One arm per row of the opcode table, each one direct call of the instruction's meaning. -/

namespace Sys2Proof.Machine

def exec (i : Instr) (s : State) : Host.Outcome State Fault Refusal :=
  match i with
  | .sendrecv seq payload timeout => Sys2Proof.Machine.execSendrecv seq payload timeout s
  | .frameTx seq len payload => Sys2Proof.Machine.execFrameTx seq len payload s
  | .rxStart => Sys2Proof.Machine.execRxStart s
  | .rxSeq => Sys2Proof.Machine.execRxSeq s
  | .rxLen => Sys2Proof.Machine.execRxLen s
  | .rxToken => Sys2Proof.Machine.execRxToken s
  | .rxPayload => Sys2Proof.Machine.execRxPayload s
  | .rxCsum => Sys2Proof.Machine.execRxCsum s
  | .rxRestart kind actual expected => Sys2Proof.Machine.execRxRestart kind actual expected s
  | .rxStall asked got => Sys2Proof.Machine.execRxStall asked got s
  | .hexdec text offset => Sys2Proof.Machine.execHexdec text offset s
  | .recData addr data => Sys2Proof.Machine.execRecData addr data s
  | .recEof addr data => Sys2Proof.Machine.execRecEof addr data s
  | .recEsa addr data => Sys2Proof.Machine.execRecEsa addr data s
  | .recEla addr data => Sys2Proof.Machine.execRecEla addr data s
  | .recUnk rtype addr data => Sys2Proof.Machine.execRecUnk rtype addr data s
  | .hexenc lineSize => Sys2Proof.Machine.execHexenc lineSize s
  | .emitEla v => Sys2Proof.Machine.execEmitEla v s
  | .emitData a16 d => Sys2Proof.Machine.execEmitData a16 d s
  | .emitEof => Sys2Proof.Machine.execEmitEof s

end Sys2Proof.Machine
end

