-- ==== Sys2Proof/Machine/Sequencer.lean ====
section
/-! DEFINITION. What runs next, and what the calling operation does after it: the receive loop (R150), HEXDEC's line
loop (R180, R181), HEXENC's walk (R221), the start of a host operation (R40) and its return (R241). One
step runs one instruction of the opcode table (assumption 3); `RX.RESTART` and `RX.STALL` are part of the
firing that calls them. -/

namespace Sys2Proof.Machine

/-- What the operation in progress does when the instruction it called is over. -/
inductive Resume
  /-- Nothing: the next instruction follows from the state. -/
  | plain
  /-- SENDRECV after `FRAME.TX` (R130). -/
  | afterFrame
  /-- HEXENC after `EMIT.ELA` (R221). -/
  | afterEla
  /-- HEXENC after `EMIT.DATA` (R221). -/
  | afterData
  /-- HEXENC after `EMIT.EOF` (R220). -/
  | afterEof
  deriving DecidableEq, Repr

/-- What a step finds to do. -/
inductive Selected
  /-- Run an instruction at a state, then resume the operation that called it. -/
  | run (i : Instr) (s : State) (k : Resume)
  /-- No instruction is involved. -/
  | outcome (o : Out)

/-- Read a register that may hold no value, as `need` does. -/
def needFor {α : Type} (r : Reg) (o : Option α) (k : α → Selected) : Selected :=
  match o with
  | some v => k v
  | none => .outcome (.fault (.noValue r))

/-- HEXDEC takes the next piece of its text (R180, R181): `LINE_NO` counts it, `LINE` holds it; an empty
piece is skipped (R182); a piece that fails a check raises its error (R183 to R186); any other is
dispatched on its type (R187). -/
def nextPiece (t : Text) (s : State) : Selected :=
  needFor .LINE_NO s.hic.lineNo fun n =>
    let p := (cutLine t).1
    let s1 := (s.withHic { s.hic with lineNo := some (n + 1), line := some p }).withAct
      (.decode (cutLine t).2)
    if p = [] then .outcome (.next s1)
    else
      match decodeLine p with
      | .error e =>
        .outcome (raiseLine (lineErrCode e) (s1.withHic (s1.hic.latchRejected e)))
      | .ok r => .run r.toInstr s1 .plain

/-- HEXENC's walk (R221): while Image bytes remain, an extended-linear-address line at a 64 KiB boundary
past the first line, then the data line; when none remain, the end-of-file line (R220). -/
def nextLine (elaDone : Bool) (s : State) : Selected :=
  needFor .ENC_A s.hic.encA fun a =>
  needFor .ENC_LS s.hic.encLs fun ls =>
    if a < s.hic.img.len then
      if atBoundary a && !elaDone then .run (.emitEla (encodeHigh a)) s .afterEla
      else
        match memRead a (encodeCount ls a s.hic.img.len) s.hic.img with
        | some d => .run (.emitData (encodeLow a) d) s .afterData
        | none => .outcome (.fault (.outsideImage a (encodeCount ls a s.hic.img.len)))
    else .run .emitEof s .afterEof

/-- `FRAME.TX` with its operands `SEQ` and `TXLEN` read from their registers (R131). -/
def nextFrame (payload : List Byte) (s : State) : Selected :=
  needFor .SEQ s.fte.seq fun q =>
  needFor .TXLEN s.fte.txlen fun len => .run (.frameTx q len payload) s .afterFrame

/-- The host starts its next operation and is then waiting for it (R40); with none to start the block
does nothing. -/
def nextCommand (s : State) : Selected :=
  match s.env.cmds with
  | [] => .outcome (.next s)
  | c :: cs => .run c.toInstr (s.withEnv { s.env with cmds := cs }) .plain

/-- What the machine does next: a reset (R280) comes before anything else; otherwise the operation in
progress says it. -/
def fetch (s : State) : Selected :=
  if s.env.resetReq then .outcome (.next (resetBlock s))
  else
    match s.act with
    | .idle => nextCommand s
    | .transmit payload => nextFrame payload s
    | .receive =>
      match rxRule s.fte.rxstate with
      | some i => .run i s .plain
      | none => .outcome (.next (finish .fte s))
    | .decode (some t) => nextPiece t s
    | .decode none => .outcome (.next (finish .hic s))
    | .encode elaDone => nextLine elaDone s
    | .ret u => .outcome (.next (finish u s))

/-- What the calling operation does after the instruction it called. -/
def resume (k : Resume) (s : State) : Out :=
  match k with
  | .plain => .next s
  | .afterFrame => startReceive s
  | .afterEla => .next (s.withAct (.encode true))
  | .afterData =>
    need .ENC_A s.hic.encA fun a =>
    need .ENC_LS s.hic.encLs fun ls =>
      .next ((s.withHic { s.hic with encA := some (a + ls) }).withAct (.encode false))
  | .afterEof => .next (s.withAct (.ret .hic))

/-! ## Placing an instruction -/

/-- HEXDEC about to take `line` as the last piece of its text: the registers that HEXDEC loads before its
line loop hold their values, 0 where the state has none (R180, assumption 18). -/
def placeLine (line : Text) (s : State) : State :=
  (s.withHic { s.hic with offset := some (s.hic.offset.getD 0),
                          lineNo := some (s.hic.lineNo.getD 0) }).withAct (.decode (some line))

/-- The receive machine about to read `b` in state `st` (assumption 18). -/
def placeByte (st : RxState) (b : Byte) (s : State) : State :=
  ((s.withFte { s.fte with rxstate := st, xacc := some (s.fte.xacc.getD 0) }).withEnv
    { s.env with rx := .byte b :: s.env.rx }).withAct .receive

/-- SENDRECV about to call `FRAME.TX` (assumption 18). -/
def placeFrame (seq : Byte) (len : Half) (payload : List Byte) (s : State) : State :=
  (s.withFte { s.fte with seq := some seq, txlen := some len,
                          tmo := some (s.fte.tmo.getD 0) }).withAct (.transmit payload)

/-- The instruction of an opcode-table number, placed where the next step finds it. -/
def placeWord (nbits w : Nat) (s : State) : State :=
  let s0 := s.withEnv { s.env with resetReq := false }
  match decodeTableWord nbits w with
  | some .rxStart => placeByte .awaitStart Config.START s0
  | some .rxToken => placeByte .awaitToken Config.TOKEN s0
  | some (.frameTx seq len payload) => placeFrame seq len payload s0
  | some _ => placeLine (tableLine w) s0
  | none => s

end Sys2Proof.Machine
end

