-- ==== Sys2Proof/Machine/Step.lean ====
section
/-! DEFINITION. One step: what the sequencing finds to do, run by `exec`. -/

namespace Sys2Proof.Machine

/-- Run what was selected. -/
def runSelected (f : Selected) : Out :=
  match f with
  | .run i s k => andThen (exec i s) (resume k)
  | .outcome o => o

/-- One step of the machine: next, fault or refusal. -/
def step (s : State) : Host.Outcome State Fault Refusal := runSelected (fetch s)

/-- The state with the instruction of an opcode-table number placed where `step` finds it next. -/
def State.withFetchWord (s : State) (nbits w : Nat) : State := placeWord nbits w s

end Sys2Proof.Machine
end

