-- ==== Sys2Proof/Safety.lean ====
section
/-! DEFINITION. What a legal state of the block is, in the terms the statements use: which registers hold a value
when (R21), what the accumulator holds in each waiting state (R93, R156), the retry range (R24), the error
codes of each unit (R240), the canonical Image, and the domain of the encoder's walk (R220, R221). -/

namespace Sys2Proof.Machine

/-- The activity is SENDRECV's. -/
def fteBusy : Activity → Bool
  | .idle => false
  | .transmit _ => true
  | .receive => true
  | .decode _ => false
  | .encode _ => false
  | .ret .fte => true
  | .ret .hic => false

/-- The activity is HEXDEC's or HEXENC's. -/
def hicBusy : Activity → Bool
  | .idle => false
  | .transmit _ => false
  | .receive => false
  | .decode _ => true
  | .encode _ => true
  | .ret .fte => false
  | .ret .hic => true

/-- Outside an operation of its unit a transient register holds no value (R21). -/
def TransientOutside (s : State) : Prop :=
  (fteBusy s.act = false → s.fte.clearTransient = s.fte) ∧
  (hicBusy s.act = false → s.hic.clearTransient = s.hic)

/-- Each error register holds a code of its own unit (R240). -/
def OwnErrorCodes (s : State) : Prop :=
  s.fte.err.ofFte = true ∧ s.hic.err.ofHic = true

/-- What the accumulators of one receive attempt hold in each state of the receive machine: `XACC` is
the XOR of the accepted bytes of the frame so far (R93, R151 to R156). -/
def AttemptHolds (f : Fte) (q : Byte) : Prop :=
  match f.rxstate with
  | .idle => False
  | .awaitStart => True
  | .awaitSequence => f.xacc = some Config.START
  | .awaitLength => f.xacc = some (xorBytes [Config.START, q])
  | .awaitToken =>
    ∃ len, f.len = some len ∧ f.xacc = some (xorBytes [Config.START, q, hiByte len, loByte len])
  | .awaitPayload =>
    ∃ len, f.len = some len ∧ f.xacc = some (xorBytes (frameHeader q len))
  | .awaitChecksum =>
    ∃ len p, f.len = some len ∧ f.pay = some p ∧ p.length = len.toNat ∧
      f.xacc = some (xorBytes (frameHeader q len ++ p))
  | .done => ∃ p, f.result = some p
  | .failed => False

/-- A receive attempt in progress (R130, R150): `SEQ`, `TMO` and `RETRY` hold values, at most ten
mismatches have been forgiven (R24, R157), no error has been raised, and the accumulators fit. -/
def ReceiveHolds (f : Fte) : Prop :=
  (∃ q, f.seq = some q ∧ AttemptHolds f q) ∧ (∃ t, f.tmo = some t) ∧
  (∃ r, f.retry = some r ∧ r ≤ Config.MAX_RETRY) ∧ f.err = .none

/-- SENDRECV between latching its operands and FRAME.TX (R130). -/
def TransmitHolds (f : Fte) (payload : List Byte) : Prop :=
  (∃ q, f.seq = some q) ∧ (∃ t, f.tmo = some t) ∧
  f.txlen = some (BitVec.ofNat 16 payload.length) ∧ payload.length ≤ Config.MAX_PAYLOAD ∧
  f.err = .none ∧ isWaiting f.rxstate = false

/-- The FTE when SENDRECV neither transmits nor receives (R33, R159): no state is a waiting state,
`Failed` goes with an error code and `Done` with a result. -/
def FteSettled (f : Fte) : Prop :=
  isWaiting f.rxstate = false ∧ (f.rxstate = .failed ↔ f.err ≠ .none) ∧
  (f.rxstate = .done → ∃ p, f.result = some p)

/-- HEXDEC in its line loop (R180): `LINE_NO` and `OFFSET` hold values. -/
def DecodeHolds (h : Hic) : Prop := (∃ n, h.lineNo = some n) ∧ (∃ o, h.offset = some o)

/-- HEXENC in its walk (R220, R221): the request is inside the admitted domain, `ENC_A` is a multiple of
`ENC_LS` (R70), the output text has begun; after an extended-linear-address line a data line is due. -/
def EncodeHolds (h : Hic) (elaDone : Bool) : Prop :=
  ∃ ls a out, h.encLs = some ls ∧ h.encA = some a ∧ h.txtOut = some out ∧
    encodeRefused ls h.img.len = false ∧ ls ∣ a ∧
    (elaDone = true → a < h.img.len ∧ atBoundary a = true)

/-- What holds of the FTE and the HIC for each activity. -/
def ActivityHolds (s : State) : Prop :=
  match s.act with
  | .idle => FteSettled s.fte
  | .transmit payload => TransmitHolds s.fte payload
  | .receive => ReceiveHolds s.fte
  | .decode _ => FteSettled s.fte ∧ DecodeHolds s.hic
  | .encode elaDone => FteSettled s.fte ∧ EncodeHolds s.hic elaDone
  | .ret _ => FteSettled s.fte

/-- A legal state of the block. -/
def Legal (s : State) : Prop :=
  s.hic.img.wf = true ∧ OwnErrorCodes s ∧ TransientOutside s ∧ ActivityHolds s

/-- A safe step: the machine neither faults nor refuses. -/
def StepsOn (s : State) : Prop := ∃ t, step s = .next t

/-- `t` is the state after exactly `k` steps from `s`, none of which stops. -/
def Reaches : Nat → State → State → Prop
  | 0, s, t => s = t
  | k + 1, s, t => ∃ u, step s = .next u ∧ Reaches k u t

/-- The state that an accepted read of a waiting state leads to (R150 to R156). -/
def acceptedNext : RxState → Option RxState
  | .idle => none
  | .awaitStart => some .awaitSequence
  | .awaitSequence => some .awaitLength
  | .awaitLength => some .awaitToken
  | .awaitToken => some .awaitPayload
  | .awaitPayload => some .awaitChecksum
  | .awaitChecksum => some .done
  | .done => none
  | .failed => none

/-- How many bytes a firing asks of the stream: two of the length, `LEN` of the payload, one in every
other waiting state (R151 to R156). -/
def bytesAsked (f : Fte) : Nat :=
  match f.rxstate with
  | .idle => 0
  | .awaitStart => 1
  | .awaitSequence => 1
  | .awaitLength => 2
  | .awaitToken => 1
  | .awaitPayload => (f.len.getD 0).toNat
  | .awaitChecksum => 1
  | .done => 0
  | .failed => 0

/-- `h(i)`: the value of the digit at a character offset of a line (R101). -/
def lineDigit (line : Text) (i : Nat) : Nat := (hexval (line.getD i 0)).getD 0

/-- The byte at a character offset of a line, `h(i) * 16 + h(i+1)` (R101). -/
def lineByte (line : Text) (i : Nat) : Nat := lineDigit line i * 16 + lineDigit line (i + 1)

/-- The next step is one of SENDRECV's: it is in progress, or the host starts it. -/
def fteSteps (s : State) : Bool :=
  match s.act, s.env.cmds with
  | .idle, .sendrecv _ _ _ :: _ => true
  | a, _ => fteBusy a

/-- The next step is one of HEXDEC's or HEXENC's: one is in progress, or the host starts one. -/
def hicSteps (s : State) : Bool :=
  match s.act, s.env.cmds with
  | .idle, .hexdec _ _ :: _ => true
  | .idle, .hexenc _ :: _ => true
  | a, _ => hicBusy a

/-- The part of a state that the FTE's rules read and write (R3, R61): its registers, the sequencing and
the environment. -/
def fteView (s : State) : Fte × Activity × Env := (s.fte, s.act, s.env)

/-- The part of a state that the HIC's rules read and write (R3, R61): its registers, the sequencing, the
parameters and what the host starts next. -/
def hicView (s : State) : Hic × Activity × Params × List HostOp :=
  (s.hic, s.act, s.params, s.env.cmds)

end Sys2Proof.Machine
end

