-- ==== Sys2Proof/Certificates/Slice0/Obligations.lean ====
section
/-! DEFINITION. The statements for the provers, each from the numbered rules of spec/ it names. A statement of what
an instruction does writes out the whole next state, so it is also the instruction's frame: whatever the
record update does not name is unchanged, every other register, the Image and the environment. -/

open Sys2Proof Sys2Proof.Machine

/-! ## Reset -/

/-- R50: the value every register holds after reset.
All but the empty Image is the spec's own decision D22 (R50). -/
def Obligations.ResetGivesEveryRegisterItsValue : Prop :=
  State.reset.fte =
      { seq := none, tmo := none, txlen := none, rxstate := .idle, retry := none, xacc := none,
        len := none, pay := none, result := none, err := .none, info := none } ∧
    State.reset.hic =
      { eab := 0, img := { len := 0, cells := [] }, offset := none, lineNo := none, line := none,
        bc := none, addr := none, rtype := none, data := none, csum := none, encLs := none,
        encA := none, err := .none, info := none, txtOut := none } ∧
    State.reset.act = .idle

/-- R280, R282: the reset event, between any two steps of an operation or outside one, gives every
register its reset value, abandons the operation with no error code, and leaves the environment.
The reset event and its values are the spec's own decision D22; that it is sampled between two steps is
the model's choice (assumption 15). -/
def Obligations.ResetEventLeavesTheEnvironment : Prop :=
  ∀ s : State, s.env.resetReq = true →
    step s = .next
      { fte := State.reset.fte, hic := State.reset.hic, act := .idle,
        env := { s.env with resetReq := false }, params := s.params }

/-- The state after reset is legal.
`Legal` is the model's own predicate (Safety.lean). -/
def Obligations.ResetStateIsLegal : Prop := Legal State.reset

/-- R281: no step but a reset shortens the Image (`IMG_LEN` never falls).
The spec derives it from R28 and R66. -/
def Obligations.ImageNeverShrinks : Prop :=
  ∀ s t : State, s.env.resetReq = false → step s = .next t → s.hic.img.len ≤ t.hic.img.len

/-! ## A step runs what is selected -/

/-- A step runs the decoded instruction. A HEX line that is the next piece of the text and decodes to
`i` is run as `i`, after `LINE_NO` and `LINE` have taken the piece (R180, R187); a waiting state runs its
rule (R150); a host operation is run by name (R40); SENDRECV's `FRAME.TX` is followed by its start of the
receive machine (R130).
What one step is, is the model's choice (assumption 3). -/
def Obligations.StepRunsTheDecodedInstruction : Prop :=
  (∀ (s : State) (text line : Text) (rest : Option Text) (n : Nat) (i : Instr),
    s.env.resetReq = false → s.act = .decode (some text) → s.hic.lineNo = some n →
    cutLine text = (line, rest) → line ≠ [] → decode .hexrec line = .ok i →
    i.wellFormed = true →
      step s = exec i
        { s with hic := { s.hic with lineNo := some (n + 1), line := some line },
                 act := .decode rest }) ∧
  (∀ (s : State) (i : Instr),
    s.env.resetReq = false → s.act = .receive → rxRule s.fte.rxstate = some i →
      step s = exec i s) ∧
  (∀ (s : State) (c : HostOp) (cs : List HostOp),
    s.env.resetReq = false → s.act = .idle → s.env.cmds = c :: cs →
      step s = exec c.toInstr { s with env := { s.env with cmds := cs } }) ∧
  (∀ (s t : State) (q : Byte) (len : Half) (payload : List Byte) (x : Nat),
    s.env.resetReq = false → s.act = .transmit payload → s.fte.seq = some q →
    s.fte.txlen = some len → s.fte.tmo = some x → exec (.frameTx q len payload) s = .next t →
      step s = .next
        { t with env := { t.env with streamTmo := some x },
                 fte := { t.fte with retry := some 0, rxstate := .awaitStart },
                 act := .receive })

/-- A few lines and frames written out from the spec's encodings decode to what they stand for
(R92, R100, R106, R109, R110). -/
def Obligations.WrittenWordsDecode : Prop :=
  decode .hexrec Config.EOF_LINE = .ok (.recEof 0 []) ∧
  decode .hexrec
      [0x3A, 0x30, 0x32, 0x30, 0x30, 0x30, 0x30, 0x30, 0x34, 0x30, 0x30, 0x30, 0x31, 0x46, 0x39] =
    .ok (.recEla 0 [0x00, 0x01]) ∧
  decode .frame [0x1B, 0x01, 0x00, 0x01, 0x0E, 0x01, 0x14] = .ok (.frameTx 0x01 1 [0x01]) ∧
  decode .rxbyte [0x1B] = .ok .rxStart

/-- R45, R291: a host operation started while another is in progress is given no meaning.
The treatment is the one 93 U1 recommends (decision D23; assumption 10). -/
def Obligations.OverlappingOperationsAreRefused : Prop :=
  ∀ (s : State) (c : HostOp), s.act ≠ .idle → exec c.toInstr s = .refused .operationInFlight

/-! ## SENDRECV and FRAME.TX -/

/-- R130: SENDRECV with a payload of at most 65535 bytes clears the error and attempt registers and
latches `SEQ`, `TMO` and `TXLEN`; a longer payload fails with `PayloadTooLong` and nothing is written.
The refusal of a longer payload is the spec's own decision D5; that `FTE_INFO` holds the length is
assumption 8. -/
def Obligations.SendrecvLatchesItsOperands : Prop :=
  ∀ (s : State) (seq : Byte) (payload : List Byte) (timeout : Nat), s.act = .idle →
    (∀ n : Half, payload.length = n.toNat →
      exec (.sendrecv seq payload timeout) s = .next
        { s with
          fte := { s.fte with err := .none, info := none, result := none, xacc := none, len := none,
                              pay := none, seq := some seq, tmo := some timeout, txlen := some n },
          act := .transmit payload }) ∧
    (65535 < payload.length →
      exec (.sendrecv seq payload timeout) s = .next
        { s with
          fte := { s.fte with err := .payloadTooLong, info := some (.payloadLength payload.length),
                              result := none, xacc := none, len := none, pay := none,
                              rxstate := .failed },
          act := .ret .fte })

/-- R131: FRAME.TX hands the stream one byte sequence: start marker, sequence, big-endian length, token,
payload, and a byte that makes the XOR of the whole frame 0; nothing else changes. -/
def Obligations.FrameTxWritesOneFrame : Prop :=
  ∀ (s : State) (seq hi lo : Byte) (len : Half) (payload : List Byte),
    payload.length = len.toNat → len.toNat = hi.toNat * 256 + lo.toNat →
      ∃ sum : Byte,
        exec (.frameTx seq len payload) s = .next
          { s with env := { s.env with
              tx := s.env.tx ++ [[0x1B, seq, hi, lo, 0x0E] ++ payload ++ [sum]] } } ∧
        sum = ([0x1B, seq, hi, lo, 0x0E] ++ payload).foldl (· ^^^ ·) 0

/-- R132: the trailing byte of an encoded frame is the XOR of all other bytes in it. -/
def Obligations.FrameChecksumIsTheXorOfTheRest : Prop :=
  ∀ (seq : Byte) (payload : List Byte) (len : Half), payload.length = len.toNat →
    (frameBytes seq len payload).foldl (· ^^^ ·) 0 = 0 ∧
    ∃ body sum, frameBytes seq len payload = body ++ [sum] ∧ sum = body.foldl (· ^^^ ·) 0

/-- R92 to R94: reading back the bytes of a well-formed FRAME.TX gives the same sequence, length and
payload.
The reader of whole frames is the model's own (assumption 19). -/
def Obligations.FrameDecodesToWhatWasEncoded : Prop :=
  ∀ (seq : Byte) (len : Half) (payload : List Byte),
    (Instr.frameTx seq len payload).wellFormed = true →
      ∃ bytes, encode (.frameTx seq len payload) = some bytes ∧
        decode .frame bytes = .ok (.frameTx seq len payload)

/-- R92, R93: bytes that decode as a frame are exactly the encoding of what they decode to.
The reader of whole frames is the model's own (assumption 19). -/
def Obligations.DecodedFrameIsItsOwnEncoding : Prop :=
  ∀ (bytes : List Byte) (i : Instr), decode .frame bytes = .ok i →
    i.wellFormed = true ∧ encode i = some bytes

/-- R130, R131, R135: the step that sends the request: one frame written, the timeout applied, `RETRY` 0,
the receive machine in `AwaitStart`.
That the timeout is applied after the write is the spec's own decision D7 (assumption 21). -/
def Obligations.RequestIsSentAndReceptionStarts : Prop :=
  ∀ (s : State) (seq : Byte) (len : Half) (payload : List Byte) (x : Nat),
    s.env.resetReq = false → s.act = .transmit payload → s.fte.seq = some seq →
    s.fte.txlen = some len → s.fte.tmo = some x → payload.length = len.toNat →
      step s = .next
        { s with
          env := { s.env with tx := s.env.tx ++ [frameBytes seq len payload],
                              streamTmo := some x },
          fte := { s.fte with retry := some 0, rxstate := .awaitStart },
          act := .receive }

/-- R61, R159, R288: the TX stream is written only by FRAME.TX, so no retry sends the request again, and
the RX stream is read only in a waiting state of the receive machine.
The spec derives R159 and R288 from the rules it names. -/
def Obligations.StreamsAreTouchedOnlyByTheirRules : Prop :=
  ∀ s t : State, step s = .next t →
    ((∀ payload, s.act ≠ .transmit payload) → t.env.tx = s.env.tx) ∧
    ((s.act = .receive → isWaiting s.fte.rxstate = false) → t.env.rx = s.env.rx)

/-! ## The receive machine -/

/-- R42: a complete read returns the next `n` bytes of the stream, in order; a short read ends at a
timeout of the environment's choosing or where the stream has nothing more; what is returned is
consumed and nothing else changes.
The stream as a list of what it will do is the model's choice (assumption 5). -/
def Obligations.StreamReadConsumesInOrder : Prop :=
  ∀ (n : Nat) (s t : State) (r : List Byte), streamRead n s = (r, t) →
    t = { s with env := { s.env with rx := t.env.rx } } ∧
    ((r.length = n ∧ s.env.rx = r.map .byte ++ t.env.rx) ∨
      (r.length < n ∧
        (s.env.rx = r.map .byte ++ .stall :: t.env.rx ∨
          (s.env.rx = r.map .byte ∧ t.env.rx = []))))

/-- R151: RX.START accepts the start marker, sets `XACC` afresh and waits for the sequence byte; any
other byte is discarded and is one RX.RESTART; a short read is an RX.STALL.
That a discarded byte is one RX.RESTART, and so costs one retry, is the resolution C1 of
90_conflicts.md (assumption 20). -/
def Obligations.RxStartAcceptsTheStartMarker : Prop :=
  ∀ (s : State) (q : List RxItem),
    (s.env.rx = .byte 0x1B :: q →
      exec .rxStart s = .next
        { s with fte := { s.fte with xacc := some 0x1B, rxstate := .awaitSequence },
                 env := { s.env with rx := q } }) ∧
    (∀ b : Byte, b ≠ 0x1B → s.env.rx = .byte b :: q →
      exec .rxStart s =
        exec (.rxRestart .badStart b 0x1B) { s with env := { s.env with rx := q } }) ∧
    (s.env.rx = .stall :: q →
      exec .rxStart s = exec (.rxStall 1 0) { s with env := { s.env with rx := q } }) ∧
    (s.env.rx = [] → exec .rxStart s = exec (.rxStall 1 0) s)

/-- R152: RX.SEQ accepts the byte equal to `SEQ`. -/
def Obligations.RxSeqAcceptsTheSequenceByte : Prop :=
  ∀ (s : State) (q : List RxItem) (c x : Byte), s.fte.seq = some c → s.fte.xacc = some x →
    (s.env.rx = .byte c :: q →
      exec .rxSeq s = .next
        { s with fte := { s.fte with xacc := some (x ^^^ c), rxstate := .awaitLength },
                 env := { s.env with rx := q } }) ∧
    (∀ b : Byte, b ≠ c → s.env.rx = .byte b :: q →
      exec .rxSeq s = exec (.rxRestart .badSeq b c) { s with env := { s.env with rx := q } }) ∧
    (s.env.rx = .stall :: q →
      exec .rxSeq s = exec (.rxStall 1 0) { s with env := { s.env with rx := q } }) ∧
    (s.env.rx = [] → exec .rxSeq s = exec (.rxStall 1 0) s)

/-- R153: RX.LEN takes two bytes, big-endian, every value accepted; one byte and then a stall is an
RX.STALL and that byte is lost.
That a read of one byte of the two is a stall at once is the spec's own decision D24 (assumption 20). -/
def Obligations.RxLenTakesTwoBytes : Prop :=
  ∀ (s : State) (q : List RxItem) (x : Byte), s.fte.xacc = some x →
    (∀ (hi lo : Byte) (v : Half), v.toNat = hi.toNat * 256 + lo.toNat →
      s.env.rx = .byte hi :: .byte lo :: q →
      exec .rxLen s = .next
        { s with fte := { s.fte with len := some v, xacc := some (x ^^^ hi ^^^ lo),
                                     rxstate := .awaitToken },
                 env := { s.env with rx := q } }) ∧
    (∀ hi : Byte, s.env.rx = .byte hi :: .stall :: q →
      exec .rxLen s = exec (.rxStall 2 1) { s with env := { s.env with rx := q } }) ∧
    (∀ hi : Byte, s.env.rx = [.byte hi] →
      exec .rxLen s = exec (.rxStall 2 1) { s with env := { s.env with rx := [] } }) ∧
    (s.env.rx = .stall :: q →
      exec .rxLen s = exec (.rxStall 2 0) { s with env := { s.env with rx := q } }) ∧
    (s.env.rx = [] → exec .rxLen s = exec (.rxStall 2 0) s)

/-- R154: RX.TOKEN accepts the token; a wrong byte abandons the frame. -/
def Obligations.RxTokenAcceptsTheToken : Prop :=
  ∀ (s : State) (q : List RxItem) (x : Byte), s.fte.xacc = some x →
    (s.env.rx = .byte 0x0E :: q →
      exec .rxToken s = .next
        { s with fte := { s.fte with xacc := some (x ^^^ 0x0E), rxstate := .awaitPayload },
                 env := { s.env with rx := q } }) ∧
    (∀ b : Byte, b ≠ 0x0E → s.env.rx = .byte b :: q →
      exec .rxToken s =
        exec (.rxRestart .badToken b 0x0E) { s with env := { s.env with rx := q } }) ∧
    (s.env.rx = .stall :: q →
      exec .rxToken s = exec (.rxStall 1 0) { s with env := { s.env with rx := q } }) ∧
    (s.env.rx = [] → exec .rxToken s = exec (.rxStall 1 0) s)

/-- R155: RX.PAYLOAD reads exactly `LEN` bytes in one read, and none at all when `LEN` is 0; a read that
ends early is an RX.STALL and what arrived is lost.
That an empty payload issues no read is the spec's own decision D6 (90 C2), and that a read ending early
is a stall at once its decision D24 (both in assumption 20). -/
def Obligations.RxPayloadReadsExactlyLenBytes : Prop :=
  ∀ (s : State) (q : List RxItem) (len : Half) (x : Byte) (p : List Byte),
    s.fte.len = some len → s.fte.xacc = some x →
    (len = 0 →
      exec .rxPayload s = .next
        { s with fte := { s.fte with pay := some [], rxstate := .awaitChecksum } }) ∧
    (len ≠ 0 → p.length = len.toNat → s.env.rx = p.map .byte ++ q →
      exec .rxPayload s = .next
        { s with fte := { s.fte with pay := some p, xacc := some (p.foldl (· ^^^ ·) x),
                                     rxstate := .awaitChecksum },
                 env := { s.env with rx := q } }) ∧
    (p.length < len.toNat → s.env.rx = p.map .byte ++ .stall :: q →
      exec .rxPayload s =
        exec (.rxStall len.toNat p.length) { s with env := { s.env with rx := q } }) ∧
    (p.length < len.toNat → s.env.rx = p.map .byte →
      exec .rxPayload s =
        exec (.rxStall len.toNat p.length) { s with env := { s.env with rx := [] } })

/-- R156: RX.CSUM accepts the byte equal to `XACC`; then the payload is the result and the machine is
`Done`, with `RETRY` as it was. -/
def Obligations.RxCsumAcceptsTheChecksum : Prop :=
  ∀ (s : State) (q : List RxItem) (x : Byte) (p : List Byte),
    s.fte.xacc = some x → s.fte.pay = some p →
    (s.env.rx = .byte x :: q →
      exec .rxCsum s = .next
        { s with fte := { s.fte with result := some p, err := .none, rxstate := .done },
                 env := { s.env with rx := q } }) ∧
    (∀ b : Byte, b ≠ x → s.env.rx = .byte b :: q →
      exec .rxCsum s =
        exec (.rxRestart .badChecksum b x) { s with env := { s.env with rx := q } }) ∧
    (s.env.rx = .stall :: q →
      exec .rxCsum s = exec (.rxStall 1 0) { s with env := { s.env with rx := q } }) ∧
    (s.env.rx = [] → exec .rxCsum s = exec (.rxStall 1 0) s)

/-- R157: the first ten mismatches of an attempt go back to `AwaitStart` with `RETRY` grown by one; the
eleventh fails with `RetryExhausted`. -/
def Obligations.RxRestartForgivesTenMismatches : Prop :=
  ∀ (s : State) (kind : EventKind) (actual expected : Byte) (r : Nat),
    kind ≠ .shortRead → s.fte.retry = some r →
    (r < 10 →
      exec (.rxRestart kind actual expected) s = .next
        { s with fte := { s.fte with
            retry := some (r + 1), xacc := none, len := none, pay := none, rxstate := .awaitStart,
            info := some (.event
              { kind := kind, actual := actual.toNat, expected := expected.toNat,
                state := s.fte.rxstate, retry := r + 1 }) } }) ∧
    (10 ≤ r →
      exec (.rxRestart kind actual expected) s = .next
        { s with
          fte := { s.fte with
            retry := some (r + 1), xacc := none, len := none, pay := none, rxstate := .failed,
            err := .retryExhausted,
            info := some (.event
              { kind := kind, actual := actual.toNat, expected := expected.toNat,
                state := s.fte.rxstate, retry := r + 1 }) },
          act := .ret .fte })

/-- R158: a short read fails with `Timeout` at every value of `RETRY`, which it does not change. -/
def Obligations.RxStallIsATimeout : Prop :=
  ∀ (s : State) (asked got r : Nat), got < asked → asked ≤ 65535 → s.fte.retry = some r →
    exec (.rxStall asked got) s = .next
      { s with
        fte := { s.fte with
          xacc := none, len := none, pay := none, rxstate := .failed, err := .timeout,
          info := some (.event
            { kind := .shortRead, actual := got, expected := asked, state := s.fte.rxstate,
              retry := r }) },
        act := .ret .fte }

/-- R113, R150: in every waiting state the byte `b` that comes next selects a row of the opcode table. Where
it fails the state's comparison, which is against `c` in `SEQ`, `x` in `XACC` or a constant, the row is
RX.RESTART and the firing does just that. Where it passes, the row is the state's own, and the firing
consumes what the state asks for, keeps `RETRY` and leads to the next state; only a read of more than
one byte that ends early is an RX.STALL instead.
The table's reading is the spec's own decision D3; that a start byte's mismatch is an RX.RESTART is C1 of
90_conflicts.md, what a state reads its decisions D6 and D24 (assumption 20); `Legal` is the model's own
predicate. -/
def Obligations.FiringFollowsTheOpcodeTable : Prop :=
  ∀ (s : State) (q : List RxItem) (b c x : Byte), Legal s → s.act = .receive →
    isWaiting s.fte.rxstate = true → s.env.rx = .byte b :: q → s.fte.seq = some c →
    (s.fte.rxstate = .awaitChecksum → s.fte.xacc = some x) →
      ∃ row rule, selectRx s.fte.rxstate c x b = some row ∧ rxRule s.fte.rxstate = some rule ∧
        ((∃ kind expected, row = .rxRestart kind b expected ∧ b ≠ expected ∧
            exec rule s = exec row { s with env := { s.env with rx := q } }) ∨
          (row = rule ∧ ∃ (got : List Byte) (t : State),
            got.length = bytesAsked s.fte ∧ s.env.rx = got.map .byte ++ t.env.rx ∧
            exec rule s = .next t ∧ t.fte.retry = s.fte.retry ∧
            acceptedNext s.fte.rxstate = some t.fte.rxstate) ∨
          (row = rule ∧ ∃ (got : List Byte) (u : State),
            streamRead (bytesAsked s.fte) s = (got, u) ∧ 0 < got.length ∧
            got.length < bytesAsked s.fte ∧
            exec rule s = exec (.rxStall (bytesAsked s.fte) got.length) u))

/-- R24, R157: in an operation `RETRY` is changed only by a restart, which adds one, by the start of
reception, which sets it to 0, and by the return to the host, after which it holds no value.
The range of `RETRY` is the spec's own decision D10; that it is dropped at the return is assumption 7. -/
def Obligations.RetryGrowsOnlyByRestart : Prop :=
  ∀ (s t : State) (r : Nat), s.env.resetReq = false → s.fte.retry = some r → step s = .next t →
    t.fte.retry = some r ∨
    (t.fte.retry = some (r + 1) ∧ s.act = .receive ∧ isWaiting s.fte.rxstate = true ∧
      (t.fte.rxstate = .awaitStart ∨ (t.fte.rxstate = .failed ∧ t.fte.err = .retryExhausted))) ∨
    (t.fte.retry = some 0 ∧ ∃ p, s.act = .transmit p) ∨
    (t.fte.retry = none ∧ fteBusy s.act = true ∧ t.act = .idle)

/-- R23, R133: no step changes the sequence byte of an operation in progress: it is the host's, and it
is dropped only when the operation returns.
That it is dropped in a step of its own is assumption 7. -/
def Obligations.SequenceByteIsNeverAdvanced : Prop :=
  ∀ (s t : State) (c : Byte), s.env.resetReq = false → s.act ≠ .idle → s.fte.seq = some c →
    step s = .next t →
      t.fte.seq = some c ∨ (t.fte.seq = none ∧ t.act = .idle)

/-- R159: `Failed` is entered only with one of the FTE's three errors, each from the place its rule
names.
The spec derives it from R150 to R158. -/
def Obligations.FailedIsEnteredOnlyByAnError : Prop :=
  ∀ s t : State, step s = .next t → s.fte.rxstate ≠ .failed → t.fte.rxstate = .failed →
    (s.act = .receive ∧ (t.fte.err = .timeout ∨ t.fte.err = .retryExhausted)) ∨
    (s.act = .idle ∧ t.fte.err = .payloadTooLong)

/-- R163: in every waiting state of a legal machine and at every value of `RETRY`, a stream with nothing
to give ends the attempt with `Timeout`, unless the state asks for no byte (R155).
The spec derives it from R157 and R158; the exception is its decision D6. -/
def Obligations.EmptyStreamTimesOut : Prop :=
  ∀ s : State, Legal s → s.env.resetReq = false → s.act = .receive →
    isWaiting s.fte.rxstate = true → s.env.rx = [] →
    ¬(s.fte.rxstate = .awaitPayload ∧ s.fte.len = some 0) →
      ∃ t, step s = .next t ∧ t.fte.rxstate = .failed ∧ t.fte.err = .timeout ∧
        t.fte.retry = s.fte.retry ∧ t.act = .ret .fte

/-- R162: `k` bytes that are not the start marker leave `RETRY` grown by `k` while the budget of ten
lasts, and the machine again in `AwaitStart` with what follows them; the eleventh mismatch fails the
attempt with `RetryExhausted`, and what follows it stays in the stream.
The spec derives it from R151, R156 and R157, with C1 of 90_conflicts.md. -/
def Obligations.NoiseBytesSpendTheRetryBudget : Prop :=
  ∀ (s : State) (noise : List Byte) (q : List RxItem) (r : Nat),
    s.env.resetReq = false → s.act = .receive → s.fte.rxstate = .awaitStart →
    s.fte.retry = some r → (∀ b ∈ noise, b ≠ 0x1B) → s.env.rx = noise.map .byte ++ q →
    (r + noise.length ≤ 10 →
      ∃ t, Reaches noise.length s t ∧ t.act = .receive ∧ t.fte.rxstate = .awaitStart ∧
        t.fte.retry = some (r + noise.length) ∧ t.fte.seq = s.fte.seq ∧ t.env.rx = q ∧
        t.hic = s.hic) ∧
    (r ≤ 10 → r + noise.length = 11 →
      ∃ t, Reaches noise.length s t ∧ t.fte.rxstate = .failed ∧ t.fte.err = .retryExhausted ∧
        t.fte.retry = some 11 ∧ t.env.rx = q ∧ t.act = .ret .fte ∧ t.hic = s.hic)

/-- R134: a SENDRECV whose stream gives at most ten noise bytes and then one frame with its sequence
byte, whatever the payload, ends in `Done` with that payload as its result, after writing its own
request once; what follows the frame stays in the stream.
The spec derives it from R131 and R151 to R156; the number of steps is
assumption 3. -/
def Obligations.SendrecvReturnsTheResponsePayload : Prop :=
  ∀ (s : State) (seq : Byte) (request response noise : List Byte) (lenQ lenR : Half) (x : Nat)
    (q : List RxItem),
    s.env.resetReq = false → s.act = .idle → s.env.cmds = [.sendrecv seq request x] →
    request.length = lenQ.toNat → response.length = lenR.toNat →
    (∀ b ∈ noise, b ≠ 0x1B) → noise.length ≤ 10 →
    s.env.rx = (noise ++ frameBytes seq lenR response).map .byte ++ q →
      ∃ t, Reaches (noise.length + 9) s t ∧ t.act = .idle ∧ t.fte.rxstate = .done ∧
        t.fte.err = .none ∧ t.fte.result = some response ∧
        t.env.tx = s.env.tx ++ [frameBytes seq lenQ request] ∧ t.env.rx = q ∧ t.hic = s.hic

/-- R164: a receive attempt of a legal machine is over, and SENDRECV back at the host, within 67 steps
(66 firings and the return), whatever the stream does.
The spec derives the bound of 66 reads from R150 to R158; steps are those of assumption 3. -/
def Obligations.ReceiveAttemptEnds : Prop :=
  ∀ s : State, Legal s → s.env.resetReq = false → s.act = .receive →
    ∃ k t, k ≤ 67 ∧ Reaches k s t ∧ t.act = .idle ∧
      (t.fte.rxstate = .done ∨ t.fte.rxstate = .failed)

/-! ## HEXDEC and the records -/

/-- R180: HEXDEC clears the error registers, loads `OFFSET`, sets `LINE_NO` to 0 and starts at the first
piece; the Image and `EAB` are not cleared.
Keeping `EAB` is the spec's own decision D18. -/
def Obligations.HexdecStartsItsLineLoop : Prop :=
  ∀ (s : State) (text : Text) (offset : Nat), s.act = .idle →
    exec (.hexdec text offset) s = .next
      { s with hic := { s.hic with err := .none, info := none, offset := some offset,
                                   lineNo := some 0 },
               act := .decode (some text) }

/-- R181: the text is cut at its LF characters: a piece with no LF in it, followed by LF, is taken and
the LF belongs to no piece; a text without LF is one last piece. -/
def Obligations.TextIsCutAtLineFeeds : Prop :=
  ∀ (piece rest : Text), (∀ c ∈ piece, c ≠ 0x0A) →
    cutLine (piece ++ 0x0A :: rest) = (piece, some rest) ∧ cutLine piece = (piece, none)

/-- R182, R180: an empty piece is counted and skipped; when no piece is left HEXDEC returns, its
transient registers hold no value and `OFFSET` keeps its value.
What an empty piece is, is the spec's own decision D11; the return in a step of its own is assumption 7. -/
def Obligations.EmptyPiecesAndTheEndOfText : Prop :=
  ∀ s : State, s.env.resetReq = false →
    (∀ (n : Nat) (rest : Text), s.act = .decode (some (0x0A :: rest)) → s.hic.lineNo = some n →
      step s = .next
        { s with hic := { s.hic with lineNo := some (n + 1), line := some [] },
                 act := .decode (some rest) }) ∧
    (∀ n : Nat, s.act = .decode (some []) → s.hic.lineNo = some n →
      step s = .next
        { s with hic := { s.hic with lineNo := some (n + 1), line := some [] },
                 act := .decode none }) ∧
    (s.act = .decode none →
      step s = .next
        { s with hic := { s.hic with lineNo := none, line := none, bc := none, addr := none,
                                     rtype := none, data := none, csum := none, encLs := none,
                                     encA := none },
                 act := .idle })

/-- R184, R185, R101, R103: a line is accepted exactly when it begins with `:`, all other characters are
hex digits, it has `11 + 2 * BC` characters, and its bytes sum to 0 modulo 256; its fields are the bytes
at the offsets of R101. The hex digits are `0` to `9`, `A` to `F` and `a` to `f` with the values 0 to 15,
and no other character is one.
The exact length and the two cases of a digit are the spec's own decision D13 (assumption 20). -/
def Obligations.AcceptedLineHasTheWrittenFields : Prop :=
  (∀ (c : Byte) (v : Nat),
    hexval c = some v ↔
      (v < 10 ∧ c.toNat = 0x30 + v) ∨
        ∃ k, k < 6 ∧ v = 10 + k ∧ (c.toNat = 0x41 + k ∨ c.toNat = 0x61 + k)) ∧
  ∀ (line : Text) (r : Record),
    decodeLine line = .ok r ↔
      (line.head? = some 0x3A ∧ (∀ c ∈ line.tail, (hexval c).isSome = true) ∧
        line.length = 11 + 2 * r.data.length ∧ r.data.length = lineByte line 1 ∧
        r.addr.toNat = lineByte line 3 * 256 + lineByte line 5 ∧
        r.rtype.toNat = lineByte line 7 ∧
        (∀ k, k < r.data.length → (r.data.getD k 0).toNat = lineByte line (9 + 2 * k)) ∧
        r.csum.toNat = lineByte line (9 + 2 * r.data.length) ∧
        (r.data.length + r.addr.toNat / 256 + r.addr.toNat % 256 + r.rtype.toNat +
            (r.data.map BitVec.toNat).sum + r.csum.toNat) % 256 = 0)

/-- R183, R184, R186: a non-empty piece that does not begin with `:`; or has fewer than 11 characters; or
holds, after the marker, a character that is no hex digit; or has another length than `11 + 2 * BC`:
each ends HEXDEC with `FormatError` naming the line and its number, whatever its bytes sum to. Everything
but the line registers and the error registers is as it was, the Image among it.
That a wrong length is a `FormatError` is the spec's own decision D13; no rollback and no effect of the
offending line (R188) is its decision D16 (both in assumption 20); that `BC` alone has been latched in the
last case is assumption 9. -/
def Obligations.MalformedLineIsAFormatError : Prop :=
  ∀ (s : State) (text line : Text) (rest : Option Text) (n : Nat),
    s.env.resetReq = false → s.act = .decode (some text) → s.hic.lineNo = some n →
    cutLine text = (line, rest) → line ≠ [] →
    (line.head? ≠ some 0x3A ∨ line.length < 11 ∨ (∃ c ∈ line.tail, hexval c = none) →
      step s = .next
        { s with hic := { s.hic with lineNo := some (n + 1), line := some line, err := .formatError,
                                     info := some { lineNo := n + 1, line := line } },
                 act := .ret .hic }) ∧
    (line.head? = some 0x3A → 11 ≤ line.length → (∀ c ∈ line.tail, (hexval c).isSome = true) →
      line.length ≠ 11 + 2 * lineByte line 1 →
      step s = .next
        { s with hic := { s.hic with lineNo := some (n + 1), line := some line,
                                     bc := some (BitVec.ofNat 8 (lineByte line 1)),
                                     err := .formatError,
                                     info := some { lineNo := n + 1, line := line } },
                 act := .ret .hic })

/-- R105, R185, R200: a line whose checksum byte is any other than the one R105 gives is rejected for
its checksum, whatever its record type, and the one R105 gives is accepted.
The spec derives R200 from R185. -/
def Obligations.OnlyTheRightChecksumIsAccepted : Prop :=
  ∀ (ty : Byte) (addr : Half) (data : List Byte) (c : Byte), data.length ≤ 255 →
    decodeLine (0x3A :: hexBytes (recordBytes ty addr data ++ [c])) =
      if (data.length + addr.toNat / 256 + addr.toNat % 256 + ty.toNat +
          (data.map BitVec.toNat).sum + c.toNat) % 256 = 0
      then .ok { rtype := ty, addr := addr, data := data, csum := c }
      else .error (.badChecksum { rtype := ty, addr := addr, data := data, csum := c })

/-- R185: a piece that begins with `:`, holds hex digits only and has the length its byte count says, but
whose bytes do not sum to 0 modulo 256, ends HEXDEC with `ChecksumError` naming the line and its number,
whatever its record type; the Image, `EAB` and `OFFSET` are as they were.
That they are (R188, R250) is the spec's own decision D16; that digits of either case reach the checksum
test is its decision D13 (both in assumption 20). -/
def Obligations.BadChecksumEndsHexdec : Prop :=
  ∀ (s : State) (text digits : Text) (rest : Option Text) (n : Nat),
    s.env.resetReq = false → s.act = .decode (some text) → s.hic.lineNo = some n →
    cutLine text = (0x3A :: digits, rest) → (∀ c ∈ digits, (hexval c).isSome = true) →
    digits.length = 10 + 2 * lineByte (0x3A :: digits) 1 →
    ((List.range (lineByte (0x3A :: digits) 1 + 5)).map
        fun i => lineByte (0x3A :: digits) (1 + 2 * i)).sum % 256 ≠ 0 →
      ∃ t, step s = .next t ∧ t.hic.err = .checksumError ∧
        t.hic.info = some { lineNo := n + 1, line := 0x3A :: digits } ∧ t.hic.img = s.hic.img ∧
        t.hic.eab = s.hic.eab ∧ t.hic.offset = s.hic.offset ∧ t.hic.txtOut = s.hic.txtOut ∧
        t.act = .ret .hic ∧ t.fte = s.fte ∧ t.env = s.env ∧ t.params = s.params

/-- Every record of the HEX format, with every address, every data of at most 255 bytes and every type,
is read back from its own line as itself (R100 to R106).
The encoder of records the block only reads is the model's own. -/
def Obligations.RecordsDecodeToThemselves : Prop :=
  ∀ i : Instr, i.wellFormed = true →
    (∀ addr data, i = .recData addr data ∨ i = .recEof addr data ∨ i = .recEsa addr data ∨
        i = .recEla addr data ∨ (∃ ty, i = .recUnk ty addr data) →
      ∃ line, encode i = some line ∧ decode .hexrec line = .ok i)

/-- R109, R110, R222 to R224: an emitted line without its LF is read back as the record it stands for.
The shape of the emitted lines is the spec's own decision D21. -/
def Obligations.EmittedLinesDecodeAsRecords : Prop :=
  (∀ (v : Half) (hi lo : Byte), v ≠ 0 → v.toNat = hi.toNat * 256 + lo.toNat →
    ∃ line, encode (.emitEla v) = some (line ++ [0x0A]) ∧
      decode .hexrec line = .ok (.recEla 0 [hi, lo])) ∧
  (∀ (a16 : Half) (d : List Byte), (Instr.emitData a16 d).wellFormed = true →
    ∃ line, encode (.emitData a16 d) = some (line ++ [0x0A]) ∧
      decode .hexrec line = .ok (.recData a16 d)) ∧
  (∃ line, encode .emitEof = some (line ++ [0x0A]) ∧ decode .hexrec line = .ok (.recEof 0 []))

/-- R192, R75, R66, R65: a data record grows the Image to `abs + BC`, fills what is new, and puts its
bytes at `abs` on, with `abs = (EAB << 16) + ADDR + (OFFSET if OFFSET_APPLIED else 0)`; every other byte
reads as before. The record's registers take its fields (R184) and nothing else changes.
The `OFFSET` term is under the spec's open parameter of decision D15. -/
def Obligations.RecDataWritesTheImage : Prop :=
  ∀ (s : State) (addr : Half) (data : List Byte) (off abs : Nat),
    data.length ≤ 255 → s.hic.img.wf = true → s.hic.offset = some off →
    abs = s.hic.eab.toNat * 65536 + addr.toNat + (if s.params.offsetApplied then off else 0) →
    (∀ cap, s.params.imgCap = some cap → abs + data.length ≤ max cap s.hic.img.len) →
      ∃ m : Memory,
        exec (.recData addr data) s = .next
          { s with hic := { s.hic with
              img := m, bc := some (BitVec.ofNat 8 data.length), addr := some addr,
              rtype := some 0, data := some data,
              csum := some (recordChecksum 0 addr data) } } ∧
        m.wf = true ∧ m.len = max s.hic.img.len (abs + data.length) ∧
        ∀ a, m.get a =
          if abs ≤ a ∧ a < abs + data.length then data[a - abs]?
          else if a < s.hic.img.len then s.hic.img.get a
          else if a < abs + data.length then some 0xFF else none

/-- R66, R192: a data record that would grow the Image past `IMG_CAP` raises `CapacityExceeded` with the
Image as it was.
`IMG_CAP` and its error are the spec's own decision D19. -/
def Obligations.RecDataPastTheCapacity : Prop :=
  ∀ (s : State) (addr : Half) (data : List Byte) (off abs cap n : Nat) (line : Text),
    data.length ≤ 255 → s.hic.offset = some off → s.hic.lineNo = some n →
    s.hic.line = some line →
    abs = s.hic.eab.toNat * 65536 + addr.toNat + (if s.params.offsetApplied then off else 0) →
    s.params.imgCap = some cap → cap < abs + data.length → s.hic.img.len < abs + data.length →
      exec (.recData addr data) s = .next
        { s with
          hic := { s.hic with
            bc := some (BitVec.ofNat 8 data.length), addr := some addr, rtype := some 0,
            data := some data, csum := some (recordChecksum 0 addr data),
            err := .capacityExceeded, info := some { lineNo := n, line := line } },
          act := .ret .hic }

/-- R193: an end-of-file record has no effect but the fields every line leaves in the record registers
(R184): it does not end HEXDEC.
That parsing goes on is the spec's own decision D17 (90 C8). -/
def Obligations.RecEofHasNoEffect : Prop :=
  ∀ (s : State) (addr : Half) (data : List Byte), data.length ≤ 255 →
    exec (.recEof addr data) s = .next
      { s with hic := { s.hic with
          bc := some (BitVec.ofNat 8 data.length), addr := some addr, rtype := some 1,
          data := some data, csum := some (recordChecksum 1 addr data) } }

/-- R194: a type-2 record replaces `EAB` by the top four bits of its first byte and adds 16 times its
16-bit segment to `OFFSET`; with any other number of bytes it is a `FormatError`.
"Accumulates" as addition is the spec's decision D15, the count of two its decision D14. -/
def Obligations.RecEsaSetsTheSegment : Prop :=
  ∀ (s : State) (addr : Half),
    (∀ (d0 d1 : Byte) (off : Nat) (base : Half), s.hic.offset = some off →
      base.toNat = d0.toNat / 16 →
      exec (.recEsa addr [d0, d1]) s = .next
        { s with hic := { s.hic with
            bc := some 2, addr := some addr, rtype := some 2, data := some [d0, d1],
            csum := some (recordChecksum 2 addr [d0, d1]), eab := base,
            offset := some (off + 16 * (d0.toNat * 256 + d1.toNat)) } }) ∧
    (∀ (data : List Byte) (n : Nat) (line : Text), data.length ≤ 255 → data.length ≠ 2 →
      s.hic.lineNo = some n → s.hic.line = some line →
      exec (.recEsa addr data) s = .next
        { s with
          hic := { s.hic with
            bc := some (BitVec.ofNat 8 data.length), addr := some addr, rtype := some 2,
            data := some data, csum := some (recordChecksum 2 addr data), err := .formatError,
            info := some { lineNo := n, line := line } },
          act := .ret .hic })

/-- R196: a type-4 record replaces `EAB` by its two bytes, big-endian, and leaves `OFFSET` and the Image;
with any other number of bytes it is a `FormatError`.
The count of two is the spec's own decision D14. -/
def Obligations.RecElaSetsTheBase : Prop :=
  ∀ (s : State) (addr : Half),
    (∀ (d0 d1 : Byte) (base : Half), base.toNat = d0.toNat * 256 + d1.toNat →
      exec (.recEla addr [d0, d1]) s = .next
        { s with hic := { s.hic with
            bc := some 2, addr := some addr, rtype := some 4, data := some [d0, d1],
            csum := some (recordChecksum 4 addr [d0, d1]), eab := base } }) ∧
    (∀ (data : List Byte) (n : Nat) (line : Text), data.length ≤ 255 → data.length ≠ 2 →
      s.hic.lineNo = some n → s.hic.line = some line →
      exec (.recEla addr data) s = .next
        { s with
          hic := { s.hic with
            bc := some (BitVec.ofNat 8 data.length), addr := some addr, rtype := some 4,
            data := some data, csum := some (recordChecksum 4 addr data), err := .formatError,
            info := some { lineNo := n, line := line } },
          act := .ret .hic })

/-- R198: a record of any other type has no effect under `Ignore` and raises `UnsupportedRecord` under
`Reject`.
The policy is the spec's open parameter of decision D12. -/
def Obligations.RecUnkFollowsThePolicy : Prop :=
  ∀ (s : State) (ty : Byte) (addr : Half) (data : List Byte), data.length ≤ 255 →
    ty ≠ 0 → ty ≠ 1 → ty ≠ 2 → ty ≠ 4 →
    (s.params.unknownPolicy = .ignore →
      exec (.recUnk ty addr data) s = .next
        { s with hic := { s.hic with
            bc := some (BitVec.ofNat 8 data.length), addr := some addr, rtype := some ty,
            data := some data, csum := some (recordChecksum ty addr data) } }) ∧
    (∀ (n : Nat) (line : Text), s.params.unknownPolicy = .reject → s.hic.lineNo = some n →
      s.hic.line = some line →
      exec (.recUnk ty addr data) s = .next
        { s with
          hic := { s.hic with
            bc := some (BitVec.ofNat 8 data.length), addr := some addr, rtype := some ty,
            data := some data, csum := some (recordChecksum ty addr data),
            err := .unsupportedRecord, info := some { lineNo := n, line := line } },
          act := .ret .hic })

/-- R188, R250: a step of HEXDEC that raises an error leaves the Image, `EAB` and `OFFSET` as they were:
the offending line has no effect.
No rollback is the spec's own decision D16. -/
def Obligations.OffendingLineHasNoEffect : Prop :=
  ∀ (s t : State) (rest : Option Text), s.env.resetReq = false → s.act = .decode rest →
    s.hic.err = .none → step s = .next t → t.hic.err ≠ .none →
      t.hic.img = s.hic.img ∧ t.hic.eab = s.hic.eab ∧ t.hic.offset = s.hic.offset ∧
        t.act = .ret .hic ∧ ∃ n line, t.hic.info = some { lineNo := n, line := line }

/-! ## HEXENC and the emitted lines -/

/-- R220, R225: HEXENC starts its walk at address 0 with an empty output text when `lineSize` is 1..255,
the Image at most 2^32 bytes, and `lineSize` divides 65536 or the Image is at most 65536 bytes; otherwise
it raises `EncodeRefused` and the output text holds no value.
The three refusals are the spec's own decision D20. -/
def Obligations.HexencStartsOrRefuses : Prop :=
  ∀ (s : State) (ls : Nat), s.act = .idle →
    (1 ≤ ls → ls ≤ 255 → s.hic.img.len ≤ 2 ^ 32 → (ls ∣ 65536 ∨ s.hic.img.len ≤ 65536) →
      exec (.hexenc ls) s = .next
        { s with hic := { s.hic with err := .none, info := none, encLs := some ls,
                                     txtOut := some [], encA := some 0 },
                 act := .encode false }) ∧
    (ls = 0 ∨ 255 < ls ∨ 2 ^ 32 < s.hic.img.len ∨ (¬ ls ∣ 65536 ∧ 65536 < s.hic.img.len) →
      exec (.hexenc ls) s = .next
        { s with hic := { s.hic with err := .encodeRefused, info := none, txtOut := none },
                 act := .ret .hic })

/-- R221, R220: one round of the walk: at a multiple of 65536 past the first line an
extended-linear-address line comes first; a data line holds the next `min(ENC_LS, IMG_LEN - ENC_A)` bytes
of the Image; past the end comes the end-of-file line and the operation is over. -/
def Obligations.WalkEmitsTheImageInOrder : Prop :=
  ∀ (s : State) (a ls : Nat) (elaDone : Bool) (out : Text), s.env.resetReq = false →
    s.act = .encode elaDone → s.hic.encA = some a → s.hic.encLs = some ls →
    s.hic.txtOut = some out →
    (∀ v : Half, a < s.hic.img.len → s.hic.img.len ≤ 2 ^ 32 → 0 < a → a % 65536 = 0 →
        elaDone = false → v.toNat = a / 65536 →
      ∃ line, encode (.emitEla v) = some line ∧
        step s = .next
          { s with hic := { s.hic with txtOut := some (out ++ line) }, act := .encode true }) ∧
    (∀ (a16 : Half) (d : List Byte), a < s.hic.img.len →
        (a = 0 ∨ a % 65536 ≠ 0 ∨ elaDone = true) → 1 ≤ ls → ls ≤ 255 → a16.toNat = a % 65536 →
        d.length = min ls (s.hic.img.len - a) →
        (∀ k, k < d.length → s.hic.img.get (a + k) = some (d.getD k 0)) →
      ∃ line, encode (.emitData a16 d) = some line ∧
        step s = .next
          { s with hic := { s.hic with txtOut := some (out ++ line), encA := some (a + ls) },
                   act := .encode false }) ∧
    (s.hic.img.len ≤ a →
      ∃ line, encode .emitEof = some line ∧
        step s = .next
          { s with hic := { s.hic with txtOut := some (out ++ line) }, act := .ret .hic })

/-- R222: EMIT.ELA appends `:02000004HHLLCC` and LF, where the six bytes sum with `CC` to 0 modulo 256.
The shape of the line (R110: address field 0000, uppercase digits, LF) is the spec's own decision D21. -/
def Obligations.EmitElaWritesItsLine : Prop :=
  ∀ (s : State) (v : Half) (hh ll cc : Byte) (out : Text), v ≠ 0 →
    v.toNat = hh.toNat * 256 + ll.toNat → (0x02 + 0x04 + hh.toNat + ll.toNat + cc.toNat) % 256 = 0 →
    s.hic.txtOut = some out →
      exec (.emitEla v) s = .next
        { s with hic := { s.hic with
            txtOut := some (out ++ [0x3A, 0x30, 0x32, 0x30, 0x30, 0x30, 0x30, 0x30, 0x34] ++
              hex2 hh ++ hex2 ll ++ hex2 cc ++ [0x0A]) } }

/-- R223, R104: EMIT.DATA appends `:BBAAAA00DD..DDCC` and LF: the byte count, the low 16 bits of the
address, type 00, the data bytes in order, and a checksum that makes the line sum to 0 modulo 256. Every
byte is written as two characters of `0123456789ABCDEF`, the high digit first.
That every field is uppercase and that LF follows every line is the spec's own decision D21. -/
def Obligations.EmitDataWritesItsLine : Prop :=
  (∀ b : Byte, ∃ hi lo : Byte, hex2 b = [hi, lo] ∧
    [0x30, 0x31, 0x32, 0x33, 0x34, 0x35, 0x36, 0x37, 0x38, 0x39, 0x41, 0x42, 0x43, 0x44, 0x45,
      0x46][b.toNat / 16]? = some hi ∧
    [0x30, 0x31, 0x32, 0x33, 0x34, 0x35, 0x36, 0x37, 0x38, 0x39, 0x41, 0x42, 0x43, 0x44, 0x45,
      0x46][b.toNat % 16]? = some lo) ∧
  ∀ (s : State) (a16 : Half) (d : List Byte) (n ah al cc : Byte) (out : Text),
    d.length = n.toNat → n ≠ 0 → a16.toNat = ah.toNat * 256 + al.toNat →
    (n.toNat + ah.toNat + al.toNat + (d.map BitVec.toNat).sum + cc.toNat) % 256 = 0 →
    s.hic.txtOut = some out →
      exec (.emitData a16 d) s = .next
        { s with hic := { s.hic with
            txtOut := some (out ++ 0x3A :: hex2 n ++ hex2 ah ++ hex2 al ++ [0x30, 0x30] ++
              d.flatMap hex2 ++ hex2 cc ++ [0x0A]) } }

/-- R224: EMIT.EOF appends `:00000001FF` and LF.
The LF after the last line is the spec's own decision D21. -/
def Obligations.EmitEofWritesTheFixedLine : Prop :=
  ∀ (s : State) (out : Text), s.hic.txtOut = some out →
    exec .emitEof s = .next
      { s with hic := { s.hic with
          txtOut := some (out ++
            [0x3A, 0x30, 0x30, 0x30, 0x30, 0x30, 0x30, 0x30, 0x31, 0x46, 0x46, 0x0A]) } }

/-- R220, R73: no step of HEXENC changes the Image, `IMG_LEN`, `EAB` or `OFFSET`.
`OFFSET` is written by R180 and R194 only (R29). -/
def Obligations.HexencLeavesTheImage : Prop :=
  ∀ (s t : State) (elaDone : Bool), s.env.resetReq = false → s.act = .encode elaDone →
    step s = .next t →
      t.hic.img = s.hic.img ∧ t.hic.eab = s.hic.eab ∧ t.hic.offset = s.hic.offset

/-- R226: HEXENC of any Image in its domain succeeds, and a block fresh from reset that decodes the text
ends with the same Image, and `EAB` at the upper address of its last byte, under every setting of
`OFFSET_APPLIED` and `UNKNOWN_POLICY`.
The spec derives it from R192, R196, R221 to R224. -/
def Obligations.EncodedImageDecodesToItself : Prop :=
  ∀ (s : State) (ls : Nat) (p : Params),
    s.env.resetReq = false → s.act = .idle → s.env.cmds = [.hexenc ls] → s.hic.img.wf = true →
    1 ≤ ls → ls ≤ 255 → s.hic.img.len ≤ 2 ^ 32 → (ls ∣ 65536 ∨ s.hic.img.len ≤ 65536) →
    p.imgCap = none →
      ∃ k t out, Reaches k s t ∧ t.act = .idle ∧ t.env.cmds = [] ∧ t.hic.err = .none ∧
        t.hic.txtOut = some out ∧ t.hic.img = s.hic.img ∧
        ∃ k' u, Reaches k'
            { State.reset with
              env := { State.reset.env with cmds := [.hexdec out 0] }, params := p } u ∧
          u.act = .idle ∧ u.env.cmds = [] ∧ u.hic.err = .none ∧ u.hic.img = s.hic.img ∧
          u.hic.eab.toNat = (s.hic.img.len - 1) / 65536

/-! ## The two units -/

/-- R3: the two units share no state. A step of SENDRECV leaves the codec and its Image, and does the same
whatever they hold; a step of HEXDEC or HEXENC leaves the frame engine and the stream, and does the same
whatever they hold. -/
def Obligations.UnitsShareNoState : Prop :=
  ∀ s s' t : State, s.env.resetReq = false → s'.env.resetReq = false → step s = .next t →
    (fteSteps s = true →
      t.hic = s.hic ∧ t.params = s.params ∧
      (fteView s = fteView s' → ∃ t', step s' = .next t' ∧ fteView t = fteView t')) ∧
    (hicSteps s = true →
      t.fte = s.fte ∧ t.env.rx = s.env.rx ∧ t.env.tx = s.env.tx ∧
      t.env.streamTmo = s.env.streamTmo ∧ t.params = s.params ∧
      (hicView s = hicView s' → ∃ t', step s' = .next t' ∧ hicView t = hicView t'))

/-- R241, R251, R21: the end of an operation, after an error of its unit or in `Done`: the unit's transient
registers hold no value, its status registers and everything else stay, and the host may start the next
operation. That the registers are dropped in a step of its own is the model's choice (assumption 7). -/
def Obligations.OperationReturnsToTheHost : Prop :=
  ∀ s : State, s.env.resetReq = false →
    (s.act = .ret .fte ∨ (s.act = .receive ∧ s.fte.rxstate = .done) →
      step s = .next
        { s with fte := { s.fte with seq := none, tmo := none, txlen := none, retry := none,
                                     xacc := none, len := none, pay := none },
                 act := .idle }) ∧
    (s.act = .ret .hic →
      step s = .next
        { s with hic := { s.hic with lineNo := none, line := none, bc := none, addr := none,
                                     rtype := none, data := none, csum := none, encLs := none,
                                     encA := none },
                 act := .idle })

/-! ## The whole machine -/

/-- R60: every step, from any state, keeps the canonical form of the Image.
The canonical form is the model's own (assumption 12). -/
def Obligations.EveryStepKeepsTheImageCanonical : Prop :=
  ∀ s t : State, s.hic.img.wf = true → step s = .next t → t.hic.img.wf = true

/-- Every step from a legal state leads to a legal state: registers hold values exactly when R21 says,
`XACC` is the XOR of the accepted bytes (R156), `RETRY` stays in its range (R24), `Failed` goes with an
error code, the walk stays in its domain, the Image stays canonical.
`Legal` is the model's own predicate. -/
def Obligations.EveryStepKeepsTheStateLegal : Prop :=
  ∀ s t : State, Legal s → step s = .next t → Legal t

/-- R21: from a legal state no rule reads a register that holds no value, and no access leaves the
Image: the machine never stops.
`Legal` is the model's own predicate. -/
def Obligations.LegalMachineNeverStops : Prop := ∀ s : State, Legal s → StepsOn s

/-- R164, R180, R221: every host operation in progress ends: a legal machine reaches a state with no
operation in progress, whatever the stream, the text and the Image are.
The spec derives R164 from R150 to R158; `Legal` is the model's own predicate. -/
def Obligations.EveryOperationEnds : Prop :=
  ∀ s : State, Legal s → s.env.resetReq = false → ∃ k t, Reaches k s t ∧ t.act = .idle
end

