-- ==== Sys2Proof/Laws/Bytes.lean ====
section
/-! SUPPORT. The small lemmas of the byte, digit and line functions of Decode.lean. -/

namespace Sys2Proof

/-! ## Bytes of a 16-bit field -/

theorem be16_toNat (hi lo : Byte) : (be16 hi lo).toNat = hi.toNat * 256 + lo.toNat := by
  have := hi.isLt
  have := lo.isLt
  simp only [be16, BitVec.toNat_ofNat]
  omega

theorem hiByte_toNat (v : Half) : (hiByte v).toNat = v.toNat / 256 := by
  have := v.isLt
  simp only [hiByte, BitVec.toNat_ofNat]
  omega

theorem loByte_toNat (v : Half) : (loByte v).toNat = v.toNat % 256 := by
  simp only [loByte, BitVec.toNat_ofNat]

@[simp] theorem be16_hi_lo (v : Half) : be16 (hiByte v) (loByte v) = v := by
  apply BitVec.eq_of_toNat_eq
  rw [be16_toNat, hiByte_toNat, loByte_toNat]
  omega

@[simp] theorem hiByte_be16 (hi lo : Byte) : hiByte (be16 hi lo) = hi := by
  have := lo.isLt
  apply BitVec.eq_of_toNat_eq
  rw [hiByte_toNat, be16_toNat]
  omega

@[simp] theorem loByte_be16 (hi lo : Byte) : loByte (be16 hi lo) = lo := by
  have := lo.isLt
  apply BitVec.eq_of_toNat_eq
  rw [loByte_toNat, be16_toNat]
  omega

/-! ## XOR and sum -/

@[simp] theorem xorBytes_nil : xorBytes [] = 0 := rfl

@[simp] theorem xorBytes_cons (b : Byte) (s : List Byte) : xorBytes (b :: s) = b ^^^ xorBytes s := rfl

theorem xorBytes_append (s t : List Byte) : xorBytes (s ++ t) = xorBytes s ^^^ xorBytes t := by
  induction s with
  | nil => simp
  | cons b s ih => simp [ih, BitVec.xor_assoc]

@[simp] theorem sumBytes_nil : sumBytes [] = 0 := rfl

@[simp] theorem sumBytes_cons (b : Byte) (s : List Byte) :
    sumBytes (b :: s) = b.toNat + sumBytes s := rfl

theorem sumBytes_append (s t : List Byte) : sumBytes (s ++ t) = sumBytes s + sumBytes t := by
  induction s with
  | nil => simp
  | cons b s ih => simp [ih, Nat.add_assoc]

theorem twosComplement_toNat (s : Nat) : (twosComplement s).toNat = (256 - s % 256) % 256 := by
  simp only [twosComplement, BitVec.toNat_ofNat]
  omega

/-- A sum and its two's complement make 0 modulo 256. -/
theorem add_twosComplement (s : Nat) : (s + (twosComplement s).toNat) % 256 = 0 := by
  rw [twosComplement_toNat]
  omega

/-- The two's complement is the only byte that does. -/
theorem eq_twosComplement {s : Nat} {c : Byte} (h : (s + c.toNat) % 256 = 0) :
    c = twosComplement s := by
  have := c.isLt
  apply BitVec.eq_of_toNat_eq
  rw [twosComplement_toNat]
  omega

/-! ## Hex digits -/

theorem hexval_hexDigit {n : Nat} (h : n < 16) : hexval (hexDigit n) = some n := by
  have : ∀ k : Fin 16, hexval (hexDigit k.val) = some k.val := by decide
  exact this ⟨n, h⟩

theorem hexval_lt {c : Byte} {v : Nat} (h : hexval c = some v) : v < 16 := by
  unfold hexval at h
  split at h
  · obtain rfl := Option.some.inj h; omega
  · split at h
    · obtain rfl := Option.some.inj h; omega
    · split at h
      · obtain rfl := Option.some.inj h; omega
      · cases h

theorem hexBytes_length (s : List Byte) : (hexBytes s).length = 2 * s.length := by
  induction s with
  | nil => rfl
  | cons b s ih => simp [hexBytes, hex2, ih]; omega

theorem hexBytes_append (s t : List Byte) : hexBytes (s ++ t) = hexBytes s ++ hexBytes t := by
  induction s with
  | nil => rfl
  | cons b s ih => simp [hexBytes, ih]

/-- Two nibble values for each byte. -/
def nibbleValues : List Byte → List Nat
  | [] => []
  | b :: s => b.toNat / 16 :: b.toNat % 16 :: nibbleValues s

theorem nibbles_hexBytes (s : List Byte) : nibbles (hexBytes s) = some (nibbleValues s) := by
  induction s with
  | nil => rfl
  | cons b s ih =>
    have := b.isLt
    simp only [hexBytes, hex2, List.cons_append, List.nil_append, nibbles, nibbleValues, ih,
      hexval_hexDigit (show b.toNat / 16 < 16 by omega),
      hexval_hexDigit (show b.toNat % 16 < 16 by omega)]

theorem pairBytes_nibbleValues (s : List Byte) : pairBytes (nibbleValues s) = s := by
  induction s with
  | nil => rfl
  | cons b s ih =>
    simp only [nibbleValues, pairBytes, ih, List.cons.injEq, and_true]
    apply BitVec.eq_of_toNat_eq
    have := b.isLt
    simp only [BitVec.toNat_ofNat]
    omega

theorem nibbles_length : ∀ {t : Text} {ns : List Nat}, nibbles t = some ns → ns.length = t.length
  | [], ns, h => by
    obtain rfl : [] = ns := by simpa [nibbles] using h
    rfl
  | c :: cs, ns, h => by
    unfold nibbles at h
    split at h
    · rename_i h2
      obtain rfl := Option.some.inj h
      simp [nibbles_length h2]
    · cases h

theorem pairBytes_length : ∀ (ns : List Nat), (pairBytes ns).length = ns.length / 2
  | [] => rfl
  | [_] => by simp [pairBytes]
  | _ :: _ :: rest => by
    have := pairBytes_length rest
    simp only [pairBytes, List.length_cons, this]
    omega

/-! ## Lines -/

theorem recordBytes_length (ty : Byte) (addr : Half) (data : List Byte) :
    (recordBytes ty addr data).length = data.length + 4 := by
  simp [recordBytes]

theorem recordLine_length (ty : Byte) (addr : Half) (data : List Byte) :
    (recordLine ty addr data).length = 11 + 2 * data.length := by
  simp only [recordLine, List.length_cons, hexBytes_length, List.length_append,
    recordBytes_length, List.length_nil]
  omega

theorem frameBytes_length (seq : Byte) (len : Half) (payload : List Byte) :
    (frameBytes seq len payload).length = payload.length + 6 := by
  simp [frameBytes, frameHeader]

/-- What `decodeLine` accepts: the field lengths fit, `BC` counts the data bytes, and the line sums to 0. -/
theorem decodeLine_ok {line : Text} {r : Record} (h : decodeLine line = .ok r) :
    line.length = 11 + 2 * r.data.length ∧ r.data.length ≤ 255 ∧ lineSum r % 256 = 0 := by
  unfold decodeLine at h
  split at h
  · cases h
  rename_i mark digits
  split at h
  · cases h
  split at h
  · cases h
  rename_i hlen
  split at h
  · cases h
  rename_i ns hns
  split at h
  · rename_i bc ah al ty rest hp
    split at h
    · cases h
    rename_i hbc
    dsimp only at h
    split at h
    · cases h
    rename_i hsum
    obtain rfl := Except.ok.inj h
    have h1 := pairBytes_length ns
    rw [hp, nibbles_length hns] at h1
    simp only [List.length_cons] at h1 hbc hlen ⊢
    have h2 := bc.isLt
    have h3 : (rest.take bc.toNat).length = bc.toNat := by
      rw [List.length_take]
      omega
    simp only [h3]
    exact ⟨by omega, by omega, by simpa using hsum⟩
  · cases h

/-- A record from an accepted line is dispatched to a well-formed instruction. -/
theorem toInstr_wellFormed {r : Record} (h : r.data.length ≤ 255) :
    r.toInstr.wellFormed = true := by
  unfold Record.toInstr
  split
  · simpa [Instr.wellFormed] using h
  split
  · simpa [Instr.wellFormed] using h
  split
  · simpa [Instr.wellFormed] using h
  split
  · simpa [Instr.wellFormed] using h
  · rename_i h0 h1 h2 h4
    simp only [Instr.wellFormed, knownType, h, decide_true, Bool.true_and, Bool.not_eq_true',
      Bool.or_eq_false_iff, beq_eq_false_iff_ne]
    exact ⟨⟨⟨h0, h1⟩, h2⟩, h4⟩

end Sys2Proof
end

