-- ==== Sys2Proof/Laws/State.lean ====
section
/-! SUPPORT. One lemma per field per update of the state, true by unfolding, so that no later proof unfolds a
record update. -/

namespace Sys2Proof.Machine

/-! ## `withFte` -/

@[simp] theorem State.withFte_fte (s : State) (f : Fte) : (s.withFte f).fte = f := rfl

@[simp] theorem State.withFte_hic (s : State) (f : Fte) : (s.withFte f).hic = s.hic := rfl

@[simp] theorem State.withFte_act (s : State) (f : Fte) : (s.withFte f).act = s.act := rfl

@[simp] theorem State.withFte_env (s : State) (f : Fte) : (s.withFte f).env = s.env := rfl

@[simp] theorem State.withFte_params (s : State) (f : Fte) : (s.withFte f).params = s.params := rfl

/-! ## `withHic` -/

@[simp] theorem State.withHic_fte (s : State) (h : Hic) : (s.withHic h).fte = s.fte := rfl

@[simp] theorem State.withHic_hic (s : State) (h : Hic) : (s.withHic h).hic = h := rfl

@[simp] theorem State.withHic_act (s : State) (h : Hic) : (s.withHic h).act = s.act := rfl

@[simp] theorem State.withHic_env (s : State) (h : Hic) : (s.withHic h).env = s.env := rfl

@[simp] theorem State.withHic_params (s : State) (h : Hic) : (s.withHic h).params = s.params := rfl

/-! ## `withAct` -/

@[simp] theorem State.withAct_fte (s : State) (a : Activity) : (s.withAct a).fte = s.fte := rfl

@[simp] theorem State.withAct_hic (s : State) (a : Activity) : (s.withAct a).hic = s.hic := rfl

@[simp] theorem State.withAct_act (s : State) (a : Activity) : (s.withAct a).act = a := rfl

@[simp] theorem State.withAct_env (s : State) (a : Activity) : (s.withAct a).env = s.env := rfl

@[simp] theorem State.withAct_params (s : State) (a : Activity) : (s.withAct a).params = s.params := rfl

/-! ## `withEnv` -/

@[simp] theorem State.withEnv_fte (s : State) (e : Env) : (s.withEnv e).fte = s.fte := rfl

@[simp] theorem State.withEnv_hic (s : State) (e : Env) : (s.withEnv e).hic = s.hic := rfl

@[simp] theorem State.withEnv_act (s : State) (e : Env) : (s.withEnv e).act = s.act := rfl

@[simp] theorem State.withEnv_env (s : State) (e : Env) : (s.withEnv e).env = e := rfl

@[simp] theorem State.withEnv_params (s : State) (e : Env) : (s.withEnv e).params = s.params := rfl

/-! ## `Fte.startCall` -/

@[simp] theorem Fte.startCall_seq (f : Fte) : (f.startCall).seq = f.seq := rfl

@[simp] theorem Fte.startCall_tmo (f : Fte) : (f.startCall).tmo = f.tmo := rfl

@[simp] theorem Fte.startCall_txlen (f : Fte) : (f.startCall).txlen = f.txlen := rfl

@[simp] theorem Fte.startCall_rxstate (f : Fte) : (f.startCall).rxstate = f.rxstate := rfl

@[simp] theorem Fte.startCall_retry (f : Fte) : (f.startCall).retry = f.retry := rfl

@[simp] theorem Fte.startCall_xacc (f : Fte) : (f.startCall).xacc = none := rfl

@[simp] theorem Fte.startCall_len (f : Fte) : (f.startCall).len = none := rfl

@[simp] theorem Fte.startCall_pay (f : Fte) : (f.startCall).pay = none := rfl

@[simp] theorem Fte.startCall_result (f : Fte) : (f.startCall).result = none := rfl

@[simp] theorem Fte.startCall_err (f : Fte) : (f.startCall).err = .none := rfl

@[simp] theorem Fte.startCall_info (f : Fte) : (f.startCall).info = none := rfl

/-! ## `Fte.latchCall` -/

@[simp] theorem Fte.latchCall_seq (f : Fte) (q : Byte) (t : Nat) (p : List Byte) : (f.latchCall q t p).seq = some q := rfl

@[simp] theorem Fte.latchCall_tmo (f : Fte) (q : Byte) (t : Nat) (p : List Byte) : (f.latchCall q t p).tmo = some t := rfl

@[simp] theorem Fte.latchCall_txlen (f : Fte) (q : Byte) (t : Nat) (p : List Byte) : (f.latchCall q t p).txlen = some (BitVec.ofNat 16 p.length) := rfl

@[simp] theorem Fte.latchCall_rxstate (f : Fte) (q : Byte) (t : Nat) (p : List Byte) : (f.latchCall q t p).rxstate = f.rxstate := rfl

@[simp] theorem Fte.latchCall_retry (f : Fte) (q : Byte) (t : Nat) (p : List Byte) : (f.latchCall q t p).retry = f.retry := rfl

@[simp] theorem Fte.latchCall_xacc (f : Fte) (q : Byte) (t : Nat) (p : List Byte) : (f.latchCall q t p).xacc = f.xacc := rfl

@[simp] theorem Fte.latchCall_len (f : Fte) (q : Byte) (t : Nat) (p : List Byte) : (f.latchCall q t p).len = f.len := rfl

@[simp] theorem Fte.latchCall_pay (f : Fte) (q : Byte) (t : Nat) (p : List Byte) : (f.latchCall q t p).pay = f.pay := rfl

@[simp] theorem Fte.latchCall_result (f : Fte) (q : Byte) (t : Nat) (p : List Byte) : (f.latchCall q t p).result = f.result := rfl

@[simp] theorem Fte.latchCall_err (f : Fte) (q : Byte) (t : Nat) (p : List Byte) : (f.latchCall q t p).err = f.err := rfl

@[simp] theorem Fte.latchCall_info (f : Fte) (q : Byte) (t : Nat) (p : List Byte) : (f.latchCall q t p).info = f.info := rfl

/-! ## `Fte.dropFrame` -/

@[simp] theorem Fte.dropFrame_seq (f : Fte) : (f.dropFrame).seq = f.seq := rfl

@[simp] theorem Fte.dropFrame_tmo (f : Fte) : (f.dropFrame).tmo = f.tmo := rfl

@[simp] theorem Fte.dropFrame_txlen (f : Fte) : (f.dropFrame).txlen = f.txlen := rfl

@[simp] theorem Fte.dropFrame_rxstate (f : Fte) : (f.dropFrame).rxstate = f.rxstate := rfl

@[simp] theorem Fte.dropFrame_retry (f : Fte) : (f.dropFrame).retry = f.retry := rfl

@[simp] theorem Fte.dropFrame_xacc (f : Fte) : (f.dropFrame).xacc = none := rfl

@[simp] theorem Fte.dropFrame_len (f : Fte) : (f.dropFrame).len = none := rfl

@[simp] theorem Fte.dropFrame_pay (f : Fte) : (f.dropFrame).pay = none := rfl

@[simp] theorem Fte.dropFrame_result (f : Fte) : (f.dropFrame).result = f.result := rfl

@[simp] theorem Fte.dropFrame_err (f : Fte) : (f.dropFrame).err = f.err := rfl

@[simp] theorem Fte.dropFrame_info (f : Fte) : (f.dropFrame).info = f.info := rfl

/-! ## `Fte.clearTransient` -/

@[simp] theorem Fte.clearTransient_seq (f : Fte) : (f.clearTransient).seq = none := rfl

@[simp] theorem Fte.clearTransient_tmo (f : Fte) : (f.clearTransient).tmo = none := rfl

@[simp] theorem Fte.clearTransient_txlen (f : Fte) : (f.clearTransient).txlen = none := rfl

@[simp] theorem Fte.clearTransient_rxstate (f : Fte) : (f.clearTransient).rxstate = f.rxstate := rfl

@[simp] theorem Fte.clearTransient_retry (f : Fte) : (f.clearTransient).retry = none := rfl

@[simp] theorem Fte.clearTransient_xacc (f : Fte) : (f.clearTransient).xacc = none := rfl

@[simp] theorem Fte.clearTransient_len (f : Fte) : (f.clearTransient).len = none := rfl

@[simp] theorem Fte.clearTransient_pay (f : Fte) : (f.clearTransient).pay = none := rfl

@[simp] theorem Fte.clearTransient_result (f : Fte) : (f.clearTransient).result = f.result := rfl

@[simp] theorem Fte.clearTransient_err (f : Fte) : (f.clearTransient).err = f.err := rfl

@[simp] theorem Fte.clearTransient_info (f : Fte) : (f.clearTransient).info = f.info := rfl

/-! ## `Hic.latch` -/

@[simp] theorem Hic.latch_eab (h : Hic) (r : Record) : (h.latch r).eab = h.eab := rfl

@[simp] theorem Hic.latch_img (h : Hic) (r : Record) : (h.latch r).img = h.img := rfl

@[simp] theorem Hic.latch_offset (h : Hic) (r : Record) : (h.latch r).offset = h.offset := rfl

@[simp] theorem Hic.latch_lineNo (h : Hic) (r : Record) : (h.latch r).lineNo = h.lineNo := rfl

@[simp] theorem Hic.latch_line (h : Hic) (r : Record) : (h.latch r).line = h.line := rfl

@[simp] theorem Hic.latch_bc (h : Hic) (r : Record) : (h.latch r).bc = some r.bc := rfl

@[simp] theorem Hic.latch_addr (h : Hic) (r : Record) : (h.latch r).addr = some r.addr := rfl

@[simp] theorem Hic.latch_rtype (h : Hic) (r : Record) : (h.latch r).rtype = some r.rtype := rfl

@[simp] theorem Hic.latch_data (h : Hic) (r : Record) : (h.latch r).data = some r.data := rfl

@[simp] theorem Hic.latch_csum (h : Hic) (r : Record) : (h.latch r).csum = some r.csum := rfl

@[simp] theorem Hic.latch_encLs (h : Hic) (r : Record) : (h.latch r).encLs = h.encLs := rfl

@[simp] theorem Hic.latch_encA (h : Hic) (r : Record) : (h.latch r).encA = h.encA := rfl

@[simp] theorem Hic.latch_err (h : Hic) (r : Record) : (h.latch r).err = h.err := rfl

@[simp] theorem Hic.latch_info (h : Hic) (r : Record) : (h.latch r).info = h.info := rfl

@[simp] theorem Hic.latch_txtOut (h : Hic) (r : Record) : (h.latch r).txtOut = h.txtOut := rfl

/-! ## `Hic.clearTransient` -/

@[simp] theorem Hic.clearTransient_eab (h : Hic) : (h.clearTransient).eab = h.eab := rfl

@[simp] theorem Hic.clearTransient_img (h : Hic) : (h.clearTransient).img = h.img := rfl

@[simp] theorem Hic.clearTransient_offset (h : Hic) : (h.clearTransient).offset = h.offset := rfl

@[simp] theorem Hic.clearTransient_lineNo (h : Hic) : (h.clearTransient).lineNo = none := rfl

@[simp] theorem Hic.clearTransient_line (h : Hic) : (h.clearTransient).line = none := rfl

@[simp] theorem Hic.clearTransient_bc (h : Hic) : (h.clearTransient).bc = none := rfl

@[simp] theorem Hic.clearTransient_addr (h : Hic) : (h.clearTransient).addr = none := rfl

@[simp] theorem Hic.clearTransient_rtype (h : Hic) : (h.clearTransient).rtype = none := rfl

@[simp] theorem Hic.clearTransient_data (h : Hic) : (h.clearTransient).data = none := rfl

@[simp] theorem Hic.clearTransient_csum (h : Hic) : (h.clearTransient).csum = none := rfl

@[simp] theorem Hic.clearTransient_encLs (h : Hic) : (h.clearTransient).encLs = none := rfl

@[simp] theorem Hic.clearTransient_encA (h : Hic) : (h.clearTransient).encA = none := rfl

@[simp] theorem Hic.clearTransient_err (h : Hic) : (h.clearTransient).err = h.err := rfl

@[simp] theorem Hic.clearTransient_info (h : Hic) : (h.clearTransient).info = h.info := rfl

@[simp] theorem Hic.clearTransient_txtOut (h : Hic) : (h.clearTransient).txtOut = h.txtOut := rfl

/-! ## `resetBlock` -/

@[simp] theorem resetBlock_fte (s : State) : (resetBlock s).fte = Fte.reset := rfl

@[simp] theorem resetBlock_hic (s : State) : (resetBlock s).hic = Hic.reset := rfl

@[simp] theorem resetBlock_act (s : State) : (resetBlock s).act = .idle := rfl

@[simp] theorem resetBlock_params (s : State) : (resetBlock s).params = s.params := rfl

@[simp] theorem resetBlock_rx (s : State) : (resetBlock s).env.rx = s.env.rx := rfl

@[simp] theorem resetBlock_tx (s : State) : (resetBlock s).env.tx = s.env.tx := rfl

@[simp] theorem resetBlock_streamTmo (s : State) : (resetBlock s).env.streamTmo = s.env.streamTmo := rfl

@[simp] theorem resetBlock_cmds (s : State) : (resetBlock s).env.cmds = s.env.cmds := rfl

@[simp] theorem resetBlock_resetReq (s : State) : (resetBlock s).env.resetReq = false := rfl

/-! ## `latchRejected`: what a rejected line leaves alone -/

@[simp] theorem Hic.latchRejected_eab (h : Hic) (e : LineError) :
    (h.latchRejected e).eab = h.eab := by cases e <;> rfl

@[simp] theorem Hic.latchRejected_img (h : Hic) (e : LineError) :
    (h.latchRejected e).img = h.img := by cases e <;> rfl

@[simp] theorem Hic.latchRejected_offset (h : Hic) (e : LineError) :
    (h.latchRejected e).offset = h.offset := by cases e <;> rfl

@[simp] theorem Hic.latchRejected_lineNo (h : Hic) (e : LineError) :
    (h.latchRejected e).lineNo = h.lineNo := by cases e <;> rfl

@[simp] theorem Hic.latchRejected_line (h : Hic) (e : LineError) :
    (h.latchRejected e).line = h.line := by cases e <;> rfl

@[simp] theorem Hic.latchRejected_encLs (h : Hic) (e : LineError) :
    (h.latchRejected e).encLs = h.encLs := by cases e <;> rfl

@[simp] theorem Hic.latchRejected_encA (h : Hic) (e : LineError) :
    (h.latchRejected e).encA = h.encA := by cases e <;> rfl

@[simp] theorem Hic.latchRejected_err (h : Hic) (e : LineError) :
    (h.latchRejected e).err = h.err := by cases e <;> rfl

@[simp] theorem Hic.latchRejected_info (h : Hic) (e : LineError) :
    (h.latchRejected e).info = h.info := by cases e <;> rfl

@[simp] theorem Hic.latchRejected_txtOut (h : Hic) (e : LineError) :
    (h.latchRejected e).txtOut = h.txtOut := by cases e <;> rfl

end Sys2Proof.Machine
end

