-- ==== Sys2Proof/Laws/Memory.lean ====
section
/-! SUPPORT. The Image: every operation keeps the canonical form, a read after a write gives what was written, a
write leaves every other byte alone, and growth adds fill bytes only. -/

namespace Sys2Proof.Machine

theorem cellsWf_cons {len lo a : Nat} {b : Byte} {cs : List Host.Cell} :
    cellsWf len lo ((a, b) :: cs) = true ↔
      lo ≤ a ∧ a < len ∧ b ≠ Memory.unlisted ∧ cellsWf len (a + 1) cs = true := by
  simp [cellsWf, and_assoc]

theorem cellsWf_mono {len lo lo' : Nat} (h : lo' ≤ lo) :
    ∀ {cs : List Host.Cell}, cellsWf len lo cs = true → cellsWf len lo' cs = true
  | [], _ => rfl
  | (_, _) :: _, hw => by
    rw [cellsWf_cons] at hw ⊢
    exact ⟨h.trans hw.1, hw.2⟩

theorem cellsWf_grow {len len' : Nat} (h : len ≤ len') :
    ∀ {lo : Nat} {cs : List Host.Cell}, cellsWf len lo cs = true → cellsWf len' lo cs = true
  | _, [], _ => rfl
  | _, (_, _) :: _, hw => by
    rw [cellsWf_cons] at hw ⊢
    exact ⟨hw.1, hw.2.1.trans_le h, hw.2.2.1, cellsWf_grow h hw.2.2.2⟩

/-- An address below the first cell is not listed. -/
theorem cellAt_below {len lo a : Nat} (h : a < lo) :
    ∀ {cs : List Host.Cell}, cellsWf len lo cs = true → cellAt a cs = Memory.unlisted
  | [], _ => rfl
  | (a', b') :: cs, hw => by
    rw [cellsWf_cons] at hw
    have : a ≠ a' := by omega
    simp only [cellAt, this, if_false]
    exact cellAt_below (by omega) hw.2.2.2

/-- An address at or above the length is not listed. -/
theorem cellAt_above {len a : Nat} (h : len ≤ a) :
    ∀ {lo : Nat} {cs : List Host.Cell}, cellsWf len lo cs = true → cellAt a cs = Memory.unlisted
  | _, [], _ => rfl
  | _, (a', b') :: cs, hw => by
    rw [cellsWf_cons] at hw
    have : a ≠ a' := by omega
    simp only [cellAt, this, if_false]
    exact cellAt_above h hw.2.2.2

theorem setCell_wf {len a : Nat} {b : Byte} (ha : a < len) :
    ∀ {lo : Nat} {cs : List Host.Cell}, lo ≤ a → cellsWf len lo cs = true →
      cellsWf len lo (setCell a b cs) = true
  | lo, [], hlo, _ => by
    unfold setCell
    split
    · rfl
    · rw [cellsWf_cons]; exact ⟨hlo, ha, ‹_›, rfl⟩
  | lo, (a', b') :: cs, hlo, hw => by
    have hw' := hw
    rw [cellsWf_cons] at hw
    unfold setCell
    split
    · split
      · exact hw'
      · rw [cellsWf_cons, cellsWf_cons]
        exact ⟨hlo, ha, ‹_›, by omega, hw.2⟩
    · split
      · split
        · exact cellsWf_mono (by omega) hw.2.2.2
        · rw [cellsWf_cons]
          exact ⟨hlo, ha, ‹_›, by subst_vars; exact hw.2.2.2⟩
      · rw [cellsWf_cons]
        exact ⟨hw.1, hw.2.1, hw.2.2.1, setCell_wf ha (by omega) hw.2.2.2⟩

theorem setCells_wf {len : Nat} :
    ∀ {v : List Byte} {a : Nat} {cs : List Host.Cell}, a + v.length ≤ len →
      cellsWf len 0 cs = true → cellsWf len 0 (setCells a v cs) = true
  | [], _, _, _, hw => hw
  | b :: bs, a, cs, h, hw => by
    simp only [List.length_cons] at h
    exact setCells_wf (v := bs) (a := a + 1) (by omega) (setCell_wf (by omega) (Nat.zero_le _) hw)

/-- Read after write of one cell. -/
theorem cellAt_setCell {len x a : Nat} {b : Byte} :
    ∀ {lo : Nat} {cs : List Host.Cell}, cellsWf len lo cs = true →
      cellAt x (setCell a b cs) = if x = a then b else cellAt x cs
  | _, [], _ => by
    unfold setCell
    split <;> simp_all [cellAt]
  | lo, (a', b') :: cs, hw => by
    rw [cellsWf_cons] at hw
    unfold setCell
    split
    · rename_i hlt
      split
      · rename_i hb
        by_cases hx : x = a
        · subst hx hb
          have hne : x ≠ a' := by omega
          simp only [if_true, cellAt, hne, if_false]
          exact cellAt_below (by omega) hw.2.2.2
        · simp [hx]
      · simp [cellAt]
    · rename_i hlt
      split
      · rename_i heq
        subst heq
        split
        · rename_i hb
          by_cases hx : x = a
          · subst hx hb
            simp only [if_true]
            exact cellAt_below (Nat.lt_succ_self _) hw.2.2.2
          · simp [hx, cellAt]
        · by_cases hx : x = a <;> simp [hx, cellAt]
      · rename_i hne
        by_cases hx : x = a'
        · subst hx
          have : x ≠ a := fun h => hne h.symm
          simp [cellAt, this]
        · simp only [cellAt, hx, if_false]
          exact cellAt_setCell hw.2.2.2

/-- Read after write of a run of bytes. -/
theorem cellAt_setCells {len x : Nat} :
    ∀ {v : List Byte} {a : Nat} {cs : List Host.Cell}, a + v.length ≤ len →
      cellsWf len 0 cs = true →
      cellAt x (setCells a v cs) =
        if a ≤ x ∧ x < a + v.length then v.getD (x - a) 0 else cellAt x cs
  | [], a, cs, _, _ => by
    have : ¬(a ≤ x ∧ x < a + ([] : List Byte).length) := by simp only [List.length_nil]; omega
    simp only [this, if_false, setCells]
  | b :: bs, a, cs, h, hw => by
    simp only [List.length_cons] at h
    simp only [setCells]
    rw [cellAt_setCells (by omega) (setCell_wf (by omega) (Nat.zero_le _) hw), cellAt_setCell hw]
    simp only [List.length_cons]
    by_cases h1 : x = a
    · subst h1
      have : ¬(x + 1 ≤ x ∧ x < x + 1 + bs.length) := by omega
      have h2 : x ≤ x ∧ x < x + (bs.length + 1) := by omega
      simp only [this, if_false, if_true, h2, and_self, Nat.sub_self, List.getD_cons_zero]
    · by_cases h2 : a + 1 ≤ x ∧ x < a + 1 + bs.length
      · have h3 : a ≤ x ∧ x < a + (bs.length + 1) := by omega
        have h4 : x - a = (x - (a + 1)) + 1 := by omega
        simp only [h2, h3, and_self, if_true, h4, List.getD_cons_succ]
      · have h3 : ¬(a ≤ x ∧ x < a + (bs.length + 1)) := by omega
        simp only [h2, h3, if_false, h1]

theorem Memory.empty_wf : Memory.empty.wf = true := rfl

theorem Memory.get_none {m : Memory} {a : Nat} (h : m.len ≤ a) : m.get a = none := by
  simp [Memory.get, Nat.not_lt.mpr h]

/-- What `imgGrow` can do: nothing, or lengthen the Image without touching a cell (R66). -/
theorem imgGrow_cases {cap : Option Nat} {n : Nat} {m m' : Memory} (h : imgGrow cap n m = some m') :
    (n ≤ m.len ∧ m' = m) ∨
      (m.len < n ∧ (∀ c, cap = some c → n ≤ c) ∧ m' = { m with len := n }) := by
  unfold imgGrow at h
  split at h
  · exact .inl ⟨‹_›, by simpa using h.symm⟩
  · split at h
    · exact .inr ⟨by omega, by simp, by simpa using h.symm⟩
    · split at h
      · exact .inr ⟨by omega, by simpa, by simpa using h.symm⟩
      · cases h

theorem imgGrow_len {cap : Option Nat} {n : Nat} {m m' : Memory} (h : imgGrow cap n m = some m') :
    m'.len = max m.len n := by
  obtain ⟨h1, rfl⟩ | ⟨h1, -, rfl⟩ := imgGrow_cases h
  · omega
  · show n = max m.len n
    omega

theorem imgGrow_wf {cap : Option Nat} {n : Nat} {m m' : Memory} (h : imgGrow cap n m = some m')
    (hw : m.wf = true) : m'.wf = true := by
  obtain ⟨-, rfl⟩ | ⟨h1, -, rfl⟩ := imgGrow_cases h
  · exact hw
  · exact cellsWf_grow (by show m.len ≤ n; omega) hw

/-- A byte of the grown Image: an old byte, or the fill value (R66). -/
theorem imgGrow_get {cap : Option Nat} {n : Nat} {m m' : Memory} (h : imgGrow cap n m = some m')
    (hw : m.wf = true) (a : Nat) :
    m'.get a = if a < m.len then m.get a else if a < n then some Config.FILL else none := by
  obtain ⟨h1, rfl⟩ | ⟨h1, -, rfl⟩ := imgGrow_cases h
  · by_cases ha : a < m'.len
    · simp [ha]
    · have : ¬ a < n := by omega
      simp [Memory.get, ha, this]
  · by_cases ha : a < m.len
    · have : a < n := by omega
      simp [Memory.get, ha, this]
    · simp only [Memory.get, ha, if_false]
      split
      · exact congrArg some (cellAt_above (by omega) hw)
      · rfl

/-- `ImgGrow` fails only past the capacity (R66). -/
theorem imgGrow_none {cap : Option Nat} {n : Nat} {m : Memory} :
    imgGrow cap n m = none ↔ m.len < n ∧ ∃ c, cap = some c ∧ c < n := by
  unfold imgGrow
  split
  · simp; omega
  · cases cap with
    | none => simp
    | some c =>
      simp only [Option.some.injEq, exists_eq_left']
      split <;> simp <;> omega

/-- What `memWrite` can do (R65). -/
theorem memWrite_cases {a n : Nat} {v : List Byte} {m m' : Memory} (h : memWrite a n v m = some m') :
    v.length = n ∧ a + n ≤ m.len ∧ m' = { m with cells := setCells a v m.cells } := by
  unfold memWrite at h
  split at h
  · rename_i hc
    exact ⟨hc.1, hc.2, by simpa using h.symm⟩
  · cases h

theorem memWrite_wf {a n : Nat} {v : List Byte} {m m' : Memory} (h : memWrite a n v m = some m')
    (hw : m.wf = true) : m'.wf = true := by
  obtain ⟨h1, h2, rfl⟩ := memWrite_cases h
  exact setCells_wf (by show a + v.length ≤ m.len; omega) hw

/-- A byte after a write: the written byte inside the range, the old one outside it (R65). -/
theorem memWrite_get {a n : Nat} {v : List Byte} {m m' : Memory} (h : memWrite a n v m = some m')
    (hw : m.wf = true) (x : Nat) :
    m'.get x = if a ≤ x ∧ x < a + n then some (v.getD (x - a) 0) else m.get x := by
  obtain ⟨h1, h2, rfl⟩ := memWrite_cases h
  simp only [Memory.get]
  rw [cellAt_setCells (by omega) hw, h1]
  by_cases hx : a ≤ x ∧ x < a + n
  · have : x < m.len := by omega
    simp [hx, this]
  · simp [hx]

theorem cellsFrom_length (cs : List Host.Cell) : ∀ (n a : Nat), (cellsFrom cs a n).length = n
  | 0, _ => rfl
  | n + 1, a => by simp [cellsFrom, cellsFrom_length cs n]

theorem cellsFrom_getD (cs : List Host.Cell) :
    ∀ (n a k : Nat), k < n → (cellsFrom cs a n).getD k 0 = cellAt (a + k) cs
  | n + 1, a, 0, _ => rfl
  | n + 1, a, k + 1, h => by
    simp only [cellsFrom, List.getD_cons_succ]
    rw [cellsFrom_getD cs n (a + 1) k (by omega)]
    congr 1
    omega

/-- What `memRead` can do (R64): `n` bytes, each the byte of its address. -/
theorem memRead_cases {a n : Nat} {m : Memory} {d : List Byte} (h : memRead a n m = some d) :
    a + n ≤ m.len ∧ d.length = n ∧ ∀ k, k < n → m.get (a + k) = some (d.getD k 0) := by
  unfold memRead at h
  split at h
  · rename_i hle
    obtain rfl : cellsFrom m.cells a n = d := by simpa using h
    refine ⟨hle, cellsFrom_length _ _ _, fun k hk => ?_⟩
    have : a + k < m.len := by omega
    rw [cellsFrom_getD _ _ _ _ hk]
    simp [Memory.get, this]
  · cases h

theorem memRead_some {a n : Nat} {m : Memory} (h : a + n ≤ m.len) :
    memRead a n m = some (cellsFrom m.cells a n) := by simp [memRead, h]

/-- Two canonical Images with the same bytes are the same data. -/
theorem cells_ext {len : Nat} :
    ∀ {lo : Nat} {cs ds : List Host.Cell}, cellsWf len lo cs = true → cellsWf len lo ds = true →
      (∀ a, cellAt a cs = cellAt a ds) → cs = ds
  | _, [], [], _, _, _ => rfl
  | _, [], (a, b) :: ds, _, hd, h => by
    rw [cellsWf_cons] at hd
    have := h a
    simp only [cellAt, if_true] at this
    exact absurd this.symm hd.2.2.1
  | _, (a, b) :: cs, [], hc, _, h => by
    rw [cellsWf_cons] at hc
    have := h a
    simp only [cellAt, if_true] at this
    exact absurd this hc.2.2.1
  | lo, (a, b) :: cs, (a', b') :: ds, hc, hd, h => by
    have hc' := hc
    have hd' := hd
    rw [cellsWf_cons] at hc hd
    have haa : a = a' := by
      rcases Nat.lt_trichotomy a a' with hlt | heq | hlt
      · have h1 := h a
        have hne : a ≠ a' := by omega
        simp only [cellAt, if_true, hne, if_false] at h1
        rw [cellAt_below (by omega) hd.2.2.2] at h1
        exact absurd h1 hc.2.2.1
      · exact heq
      · have h1 := h a'
        have hne : a' ≠ a := by omega
        simp only [cellAt, if_true, hne, if_false] at h1
        rw [cellAt_below (by omega) hc.2.2.2] at h1
        exact absurd h1.symm hd.2.2.1
    subst haa
    have hbb : b = b' := by simpa [cellAt] using h a
    subst hbb
    congr 1
    refine cells_ext hc.2.2.2 hd.2.2.2 fun x => ?_
    by_cases hx : x = a
    · subst hx
      rw [cellAt_below (Nat.lt_succ_self _) hc.2.2.2, cellAt_below (Nat.lt_succ_self _) hd.2.2.2]
    · simpa [cellAt, hx] using h x

theorem Memory.ext_get {m m' : Memory} (hw : m.wf = true) (hw' : m'.wf = true)
    (hl : m.len = m'.len) (h : ∀ a, m.get a = m'.get a) : m = m' := by
  have hc : m.cells = m'.cells := by
    refine cells_ext (len := m.len) hw (hl ▸ hw') fun a => ?_
    by_cases ha : a < m.len
    · have := h a
      simp only [Memory.get, ← hl, ha, if_true, Option.some.injEq] at this
      exact this
    · rw [cellAt_above (Nat.not_lt.mp ha) hw, cellAt_above (by omega) hw']
  cases m
  cases m'
  simp_all

end Sys2Proof.Machine
end

