-- ==== Sys2Proof/Laws/Ops.lean ====
section
/-! SUPPORT. For each shared operation, one lemma that says everything it can do when it answers a next state. -/

namespace Sys2Proof.Machine

theorem andThen_next {o : Out} {k : State → Out} {t : State} :
    andThen o k = .next t ↔ ∃ s, o = .next s ∧ k s = .next t := by
  cases o <;> simp [andThen]

@[simp] theorem need_some {α : Type} {r : Reg} {v : α} {k : α → Out} : need r (some v) k = k v := rfl

@[simp] theorem need_none {α : Type} {r : Reg} {k : α → Out} :
    need r none k = .fault (.noValue r) := rfl

theorem need_next {α : Type} {r : Reg} {o : Option α} {k : α → Out} {t : State} :
    need r o k = .next t ↔ ∃ v, o = some v ∧ k v = .next t := by
  cases o <;> simp [need]

theorem ifWellFormed_next {i : Instr} {k : Out} {t : State} :
    ifWellFormed i k = .next t ↔ i.wellFormed = true ∧ k = .next t := by
  unfold ifWellFormed
  split <;> simp_all

theorem ifIdle_next {s : State} {k : Out} {t : State} :
    ifIdle s k = .next t ↔ s.act = .idle ∧ k = .next t := by
  unfold ifIdle
  split <;> simp_all

/-! ## The byte stream -/

theorem takeBytes_length : ∀ (n : Nat) (q : List RxItem), (takeBytes n q).1.length ≤ n
  | 0, _ => Nat.le_refl _
  | _ + 1, [] => Nat.zero_le _
  | _ + 1, .stall :: _ => Nat.zero_le _
  | n + 1, .byte _ :: q => Nat.succ_le_succ (takeBytes_length n q)

/-- A complete read takes exactly the next `n` bytes; a short read ends at a timeout, which it consumes,
or at the end of what the stream holds (R42). -/
theorem takeBytes_cases : ∀ (n : Nat) (q : List RxItem),
    ((takeBytes n q).1.length = n ∧ q = (takeBytes n q).1.map .byte ++ (takeBytes n q).2) ∨
    ((takeBytes n q).1.length < n ∧
      (q = (takeBytes n q).1.map .byte ++ .stall :: (takeBytes n q).2 ∨
        (q = (takeBytes n q).1.map .byte ∧ (takeBytes n q).2 = [])))
  | 0, q => .inl ⟨rfl, rfl⟩
  | n + 1, [] => .inr ⟨Nat.succ_pos _, .inr ⟨rfl, rfl⟩⟩
  | n + 1, .stall :: q => .inr ⟨Nat.succ_pos _, .inl rfl⟩
  | n + 1, .byte b :: q => by
    rcases takeBytes_cases n q with ⟨h1, h2⟩ | ⟨h1, h2 | ⟨h2, h3⟩⟩
    · exact .inl ⟨by simp [takeBytes, h1], by
        simp only [takeBytes, List.map_cons, List.cons_append]; rw [← h2]⟩
    · exact .inr ⟨by simp only [takeBytes, List.length_cons]; omega, .inl (by
        simp only [takeBytes, List.map_cons, List.cons_append]; rw [← h2])⟩
    · exact .inr ⟨by simp only [takeBytes, List.length_cons]; omega, .inr ⟨by
        simp only [takeBytes, List.map_cons]; rw [← h2], h3⟩⟩

/-- A stream that holds `bs` next gives exactly `bs`. -/
theorem takeBytes_bytes (bs : List Byte) (q : List RxItem) :
    takeBytes bs.length (bs.map .byte ++ q) = (bs, q) := by
  induction bs with
  | nil => rfl
  | cons b bs ih => simp [takeBytes, ih]

/-- `StreamRead` changes nothing but what the stream still holds. -/
theorem streamRead_state (n : Nat) (s : State) :
    (streamRead n s).2 = s.withEnv { s.env with rx := (takeBytes n s.env.rx).2 } := rfl

@[simp] theorem streamRead_fte (n : Nat) (s : State) : (streamRead n s).2.fte = s.fte := rfl

@[simp] theorem streamRead_hic (n : Nat) (s : State) : (streamRead n s).2.hic = s.hic := rfl

@[simp] theorem streamRead_act (n : Nat) (s : State) : (streamRead n s).2.act = s.act := rfl

@[simp] theorem streamRead_params (n : Nat) (s : State) : (streamRead n s).2.params = s.params := rfl

@[simp] theorem streamRead_env (n : Nat) (s : State) :
    (streamRead n s).2.env = { s.env with rx := (takeBytes n s.env.rx).2 } := rfl

theorem emit_next {x : Text} {s t : State} :
    emit x s = .next t ↔
      ∃ out, s.hic.txtOut = some out ∧
        t = s.withHic { s.hic with txtOut := some (out ++ x) } := by
  simp only [emit, need_next, Host.Outcome.next.injEq]
  exact ⟨fun ⟨o, h1, h2⟩ => ⟨o, h1, h2.symm⟩, fun ⟨o, h1, h2⟩ => ⟨o, h1, h2.symm⟩⟩

/-! ## Errors -/

/-- Raising a HEXDEC error changes the error registers and ends the operation, nothing else (R241, R250). -/
theorem raiseLine_next {e : ErrCode} {s t : State} :
    raiseLine e s = .next t ↔
      ∃ n l, s.hic.lineNo = some n ∧ s.hic.line = some l ∧
        t = (s.withHic { s.hic with err := e, info := some { lineNo := n, line := l } }).withAct
          (.ret .hic) := by
  simp only [raiseLine, need_next, Host.Outcome.next.injEq, raise]
  constructor
  · rintro ⟨n, h1, l, h2, rfl⟩
    exact ⟨n, l, h1, h2, rfl⟩
  · rintro ⟨n, l, h1, h2, rfl⟩
    exact ⟨n, h1, l, h2, rfl⟩

/-! ## Restart and stall -/

/-- The event `RX.RESTART` records. -/
def restartEvent (kind : EventKind) (actual expected : Byte) (st : RxState) (r : Nat) : FteInfo :=
  .event { kind := kind, actual := actual.toNat, expected := expected.toNat, state := st,
           retry := r + 1 }

/-- What `RX.RESTART` can do (R157): forgive, back to `AwaitStart`, or fail. -/
theorem restart_next {kind : EventKind} {b x : Byte} {s t : State} :
    restart kind b x s = .next t ↔
      ∃ r, s.fte.retry = some r ∧
        ((r + 1 ≤ Config.MAX_RETRY ∧
            t = s.withFte
              { s.fte with retry := some (r + 1), xacc := none, len := none, pay := none,
                           info := some (restartEvent kind b x s.fte.rxstate r),
                           rxstate := .awaitStart }) ∨
          (Config.MAX_RETRY < r + 1 ∧
            t = (s.withFte
              { s.fte with retry := some (r + 1), xacc := none, len := none, pay := none,
                           info := some (restartEvent kind b x s.fte.rxstate r),
                           rxstate := .failed, err := .retryExhausted }).withAct (.ret .fte))) := by
  simp only [restart, need_next]
  constructor
  · rintro ⟨r, hr, h⟩
    refine ⟨r, hr, ?_⟩
    split at h
    · exact .inr ⟨by omega, (Host.Outcome.next.inj h).symm⟩
    · exact .inl ⟨by omega, (Host.Outcome.next.inj h).symm⟩
  · rintro ⟨r, hr, ⟨hle, rfl⟩ | ⟨hlt, rfl⟩⟩
    · exact ⟨r, hr, by rw [if_neg (by omega)]; rfl⟩
    · exact ⟨r, hr, by rw [if_pos hlt]; rfl⟩

/-- What `RX.STALL` can do (R158): `Timeout`, with `RETRY` as it was. -/
theorem stall_next {asked got : Nat} {s t : State} :
    stall asked got s = .next t ↔
      ∃ r, s.fte.retry = some r ∧
        t = (s.withFte
          { s.fte with xacc := none, len := none, pay := none, rxstate := .failed,
                       err := .timeout,
                       info := some (.event { kind := .shortRead, actual := got, expected := asked,
                                              state := s.fte.rxstate, retry := r }) }).withAct
            (.ret .fte) := by
  simp only [stall, need_next, Host.Outcome.next.injEq]
  exact ⟨fun ⟨r, h1, h2⟩ => ⟨r, h1, h2.symm⟩, fun ⟨r, h1, h2⟩ => ⟨r, h1, h2.symm⟩⟩

/-! ## Operations of the families -/

/-- SENDRECV after its frame (R130, R135). -/
theorem startReceive_next {s t : State} :
    startReceive s = .next t ↔
      ∃ x, s.fte.tmo = some x ∧
        t = ((s.withEnv { s.env with streamTmo := some x }).withFte
          { s.fte with retry := some 0, rxstate := .awaitStart }).withAct .receive := by
  simp only [startReceive, need_next, Host.Outcome.next.injEq]
  exact ⟨fun ⟨r, h1, h2⟩ => ⟨r, h1, h2.symm⟩, fun ⟨r, h1, h2⟩ => ⟨r, h1, h2.symm⟩⟩

/-- What a data record's store can do (R66, R192): write into the grown Image, or raise
`CapacityExceeded` with the Image as it was. -/
theorem storeRecord_next {a n : Nat} {d : List Byte} {s t : State} :
    storeRecord a n d s = .next t ↔
      (∃ g m, imgGrow s.params.imgCap (a + n) s.hic.img = some g ∧ memWrite a n d g = some m ∧
        t = s.withHic { s.hic with img := m }) ∨
      (imgGrow s.params.imgCap (a + n) s.hic.img = none ∧
        raiseLine .capacityExceeded s = .next t) := by
  unfold storeRecord
  cases hg : imgGrow s.params.imgCap (a + n) s.hic.img with
  | none => simp
  | some g =>
    cases hm : memWrite a n d g with
    | none => simp [hm]
    | some m => simp [hm, eq_comm]

/-- The store never leaves the Image: growing it first makes room (R65). -/
theorem storeRecord_writes {a : Nat} {d : List Byte} {s : State} {g : Memory}
    (h : imgGrow s.params.imgCap (a + d.length) s.hic.img = some g) :
    storeRecord a d.length d s =
      .next (s.withHic { s.hic with img := { g with cells := setCells a d g.cells } }) := by
  have hlen := imgGrow_len h
  have : a + d.length ≤ g.len := by omega
  simp [storeRecord, h, memWrite, this]

theorem withTwoBytes_two {s : State} {k : Byte → Byte → Out} {d0 d1 : Byte}
    (hn : s.hic.bc = some 2) (hd : s.hic.data = some [d0, d1]) :
    withTwoBytes s k = k d0 d1 := by
  simp [withTwoBytes, hn, hd]

/-- A type-2 or type-4 record of any other length raises `FormatError` (R194, R196). -/
theorem withTwoBytes_other {s : State} {k : Byte → Byte → Out} {n : Byte} {d : List Byte}
    (hn : s.hic.bc = some n) (hd : s.hic.data = some d) (h : d.length ≠ 2) :
    withTwoBytes s k = raiseLine .formatError s := by
  unfold withTwoBytes
  rw [hn, hd]
  simp only [need_some]
  split
  · simp at h
  · rfl

/-- The address of a data record when `OFFSET` holds a value (R75). -/
theorem withRecordAddress_some {addr : Half} {s : State} {k : Nat → Out} {n : Nat}
    (h : s.hic.offset = some n) :
    withRecordAddress addr s k = k (recordAddress s.hic.eab addr s.params.offsetApplied n) := by
  simp [withRecordAddress, h]

theorem offsetTerm_eq (applied : Bool) (n : Nat) : offsetTerm applied n = if applied then n else 0 := by
  cases n <;> cases applied <;> rfl

/-- HEXENC after a data line (R221): `ENC_A` moves by `ENC_LS`. -/
theorem resume_afterData {s : State} {a ls : Nat} (ha : s.hic.encA = some a)
    (hl : s.hic.encLs = some ls) :
    resume .afterData s =
      .next ((s.withHic { s.hic with encA := some (a + ls) }).withAct (.encode false)) := by
  simp [resume, ha, hl]

/-! ## Selection -/

theorem fetch_reset {s : State} (h : s.env.resetReq = true) :
    fetch s = .outcome (.next (resetBlock s)) := by
  simp [fetch, h]

theorem fetch_idle {s : State} (h : s.env.resetReq = false)
    (ha : s.act = .idle) : fetch s = nextCommand s := by
  simp [fetch, h, ha]

theorem fetch_transmit {s : State} {p : List Byte} (h : s.env.resetReq = false)
    (ha : s.act = .transmit p) : fetch s = nextFrame p s := by
  simp [fetch, h, ha]

theorem fetch_receive {s : State} {i : Instr} (h : s.env.resetReq = false)
    (ha : s.act = .receive) (hi : rxRule s.fte.rxstate = some i) :
    fetch s = .run i s .plain := by
  simp [fetch, h, ha, hi]

theorem fetch_received {s : State} (h : s.env.resetReq = false)
    (ha : s.act = .receive) (hi : rxRule s.fte.rxstate = none) :
    fetch s = .outcome (.next (finish .fte s)) := by
  simp [fetch, h, ha, hi]

theorem fetch_decode {s : State} {x : Text} (h : s.env.resetReq = false)
    (ha : s.act = .decode (some x)) : fetch s = nextPiece x s := by
  simp [fetch, h, ha]

theorem fetch_decoded {s : State} (h : s.env.resetReq = false)
    (ha : s.act = .decode none) : fetch s = .outcome (.next (finish .hic s)) := by
  simp [fetch, h, ha]

theorem fetch_encode {s : State} {d : Bool} (h : s.env.resetReq = false)
    (ha : s.act = .encode d) : fetch s = nextLine d s := by
  simp [fetch, h, ha]

theorem fetch_ret {s : State} {u : UnitName} (h : s.env.resetReq = false)
    (ha : s.act = .ret u) : fetch s = .outcome (.next (finish u s)) := by
  simp [fetch, h, ha]

/-- A step is a selected instruction and what its caller does after it, or an outcome without one. -/
theorem step_next {s t : State} :
    step s = .next t ↔
      fetch s = .outcome (.next t) ∨
        ∃ i s1 s2 k, fetch s = .run i s1 k ∧ exec i s1 = .next s2 ∧ resume k s2 = .next t := by
  unfold step runSelected
  cases fetch s with
  | run i s1 k =>
    simp only [andThen_next, reduceCtorEq, false_or, Selected.run.injEq]
    constructor
    · rintro ⟨s2, h1, h2⟩
      exact ⟨i, s1, s2, k, ⟨rfl, rfl, rfl⟩, h1, h2⟩
    · rintro ⟨i', s1', s2, k', ⟨rfl, rfl, rfl⟩, h1, h2⟩
      exact ⟨s2, h1, h2⟩
  | outcome o => simp

end Sys2Proof.Machine
end

