-- ==== Sys2Proof/Laws/PerInstr.lean ====
section
/-! SUPPORT. What is said of every instruction as syntax: how many bytes its encoding has (`spec/30_encoding.md`
rule R91), one lemma per row of the opcode table. -/

namespace Sys2Proof.Laws.EncodedLength

/-- The number of bytes of an instruction's encoding, `none` for a row without bits of its own: a frame has
6 bytes around its payload, a HEX line has 11 characters around the two of each data byte (R91), an
emitted line has its LF beside them (R222 to R224). -/
def expected : Instr → Option Nat
  | .sendrecv _ _ _ => none
  | .frameTx _ len _ => some (len.toNat + 6)
  | .rxStart => some 1
  | .rxSeq => none
  | .rxLen => none
  | .rxToken => some 1
  | .rxPayload => none
  | .rxCsum => none
  | .rxRestart _ _ _ => none
  | .rxStall _ _ => none
  | .hexdec _ _ => none
  | .recData _ data => some (11 + 2 * data.length)
  | .recEof _ data => some (11 + 2 * data.length)
  | .recEsa _ data => some (11 + 2 * data.length)
  | .recEla _ data => some (11 + 2 * data.length)
  | .recUnk _ _ data => some (11 + 2 * data.length)
  | .hexenc _ => none
  | .emitEla _ => some 16
  | .emitData _ d => some (12 + 2 * d.length)
  | .emitEof => some 12

/-- The encoding of a well-formed instruction has the length R91 gives it. -/
def Statement (i : Instr) : Prop :=
  i.wellFormed = true → (encode i).map List.length = expected i

theorem sendrecv (seq : Byte) (payload : List Byte) (timeout : Nat) :
    Statement (.sendrecv seq payload timeout) := fun _ => rfl

theorem frameTx (seq : Byte) (len : Half) (payload : List Byte) :
    Statement (.frameTx seq len payload) := by
  intro h
  have : payload.length = len.toNat := by simpa [Instr.wellFormed] using h
  simp [encode, expected, frameBytes_length, this]

theorem rxStart : Statement .rxStart := fun _ => rfl

theorem rxSeq : Statement .rxSeq := fun _ => rfl

theorem rxLen : Statement .rxLen := fun _ => rfl

theorem rxToken : Statement .rxToken := fun _ => rfl

theorem rxPayload : Statement .rxPayload := fun _ => rfl

theorem rxCsum : Statement .rxCsum := fun _ => rfl

theorem rxRestart (kind : EventKind) (actual expected : Byte) :
    Statement (.rxRestart kind actual expected) := fun _ => rfl

theorem rxStall (asked got : Nat) : Statement (.rxStall asked got) := fun _ => rfl

theorem hexdec (text : Text) (offset : Nat) : Statement (.hexdec text offset) := fun _ => rfl

theorem recData (addr : Half) (data : List Byte) : Statement (.recData addr data) := fun _ => by
  simp [encode, expected, recordLine_length]

theorem recEof (addr : Half) (data : List Byte) : Statement (.recEof addr data) := fun _ => by
  simp [encode, expected, recordLine_length]

theorem recEsa (addr : Half) (data : List Byte) : Statement (.recEsa addr data) := fun _ => by
  simp [encode, expected, recordLine_length]

theorem recEla (addr : Half) (data : List Byte) : Statement (.recEla addr data) := fun _ => by
  simp [encode, expected, recordLine_length]

theorem recUnk (rtype : Byte) (addr : Half) (data : List Byte) :
    Statement (.recUnk rtype addr data) := fun _ => by
  simp [encode, expected, recordLine_length]

theorem hexenc (lineSize : Nat) : Statement (.hexenc lineSize) := fun _ => rfl

theorem emitEla (v : Half) : Statement (.emitEla v) := fun _ => by
  simp [encode, expected, recordLine_length]

theorem emitData (a16 : Half) (d : List Byte) : Statement (.emitData a16 d) := fun _ => by
  simp [encode, expected, recordLine_length]
  omega

theorem emitEof : Statement .emitEof := fun _ => rfl

end Sys2Proof.Laws.EncodedLength
end

