-- ==== Sys2Proof/Tests/Slice0.lean ====
section
/-! SUPPORT. The model's own checks. `test_` theorems take their expected values from the examples of the
spec's rules and from `spec/95_test_vectors.md` (the row is named beside each); `witness_` theorems show, for
each statement of Obligations.lean that has hypotheses, concrete values that meet all of them. -/

namespace Sys2Proof.Tests

open Sys2Proof.Machine

/-! ## Small states -/

/-- A text as bytes. -/
def txt (s : String) : Text := s.toList.map fun c => BitVec.ofNat 8 c.toNat

/-- A field of the next state, if there is one. -/
def got {α : Type} (o : Out) (f : State → α) : Option α :=
  match o with
  | .next t => some (f t)
  | .fault _ => none
  | .refused _ => none

/-- `OFFSET_APPLIED` false, unknown types ignored, no capacity. -/
def plain : Params := { offsetApplied := false, unknownPolicy := .ignore, imgCap := none }

/-- No operation in progress; the host's queue is given. -/
def idleWith (cmds : List HostOp) : State :=
  { State.reset with env := { Env.quiet with cmds := cmds }, params := plain }

/-- The receive machine in a state, `SEQ = 01`, with its accumulators and the stream. -/
def rxAt (st : RxState) (r : Nat) (x : Option Byte) (len : Option Half) (pay : Option (List Byte))
    (rx : List RxItem) : State :=
  { State.reset with
    fte := { Fte.reset with seq := some 0x01, tmo := some 5, txlen := some 1, rxstate := st,
                            retry := some r, xacc := x, len := len, pay := pay },
    act := .receive, env := { Env.quiet with rx := rx }, params := plain }

/-- SENDRECV about to call FRAME.TX with `SEQ = 01`. -/
def sendingWith (payload : List Byte) : State :=
  { State.reset with
    fte := { Fte.reset with seq := some 0x01, tmo := some 5,
                            txlen := some (BitVec.ofNat 16 payload.length) },
    act := .transmit payload, params := plain }

/-- HEXDEC about to take the first piece of a text, with offset 8, under the given parameters. -/
def decodingWith (p : Params) (t : Option Text) : State :=
  { State.reset with
    hic := { Hic.reset with offset := some 8, lineNo := some 0 }, act := .decode t, params := p }

/-- HEXDEC inside its first line. -/
def inLine (p : Params) : State :=
  { State.reset with
    hic := { Hic.reset with offset := some 8, lineNo := some 1, line := some (txt ":") },
    act := .decode none, params := p }

/-- HEXENC in its walk over an Image of fill bytes, with empty output text. -/
def encodingAt (len ls a : Nat) (elaDone : Bool) : State :=
  { State.reset with
    hic := { Hic.reset with img := { len := len, cells := [] }, encLs := some ls, encA := some a,
                            txtOut := some [] },
    act := .encode elaDone, params := plain }

/-- One byte more than a HEX line can hold. -/
def tooLong : List Byte := List.replicate 256 0

theorem tooLong_length : tooLong.length = 256 := List.length_replicate

/-! ## WellFormed: an ill-formed term for each check -/

theorem test_wf_frame_length : (Instr.frameTx 0x01 2 [0x01]).wellFormed = false := by decide

theorem test_wf_restart_kind : (Instr.rxRestart .shortRead 0 0).wellFormed = false := by decide

theorem test_wf_stall_full : (Instr.rxStall 2 2).wellFormed = false := by decide

theorem test_wf_stall_asked : (Instr.rxStall 65536 0).wellFormed = false := by decide

theorem test_wf_data_long : (Instr.recData 0 tooLong).wellFormed = false := by
  simp [Instr.wellFormed, tooLong_length]

theorem test_wf_eof_long : (Instr.recEof 0 tooLong).wellFormed = false := by
  simp [Instr.wellFormed, tooLong_length]

theorem test_wf_esa_long : (Instr.recEsa 0 tooLong).wellFormed = false := by
  simp [Instr.wellFormed, tooLong_length]

theorem test_wf_ela_long : (Instr.recEla 0 tooLong).wellFormed = false := by
  simp [Instr.wellFormed, tooLong_length]

theorem test_wf_unk_long : (Instr.recUnk 3 0 tooLong).wellFormed = false := by
  simp [Instr.wellFormed, tooLong_length]

theorem test_wf_unk_known : (Instr.recUnk 4 0 []).wellFormed = false := by decide

theorem test_wf_ela_zero : (Instr.emitEla 0).wellFormed = false := by decide

theorem test_wf_emit_none : (Instr.emitData 0 []).wellFormed = false := by decide

theorem test_wf_emit_long : (Instr.emitData 0 tooLong).wellFormed = false := by
  simp [Instr.wellFormed, tooLong_length]

theorem test_wf_refused :
    exec (.emitEla 0) (encodingAt 1 1 0 false) = .refused .illFormed := rfl

/-! ## Decode: words written out from the spec -/

/-- Vector TX1: `1B 01 00 01 0E 01 14`. -/
theorem test_decode_frame_tx1 :
    decode .frame [0x1B, 0x01, 0x00, 0x01, 0x0E, 0x01, 0x14] = .ok (.frameTx 0x01 1 [0x01]) := by
  decide

/-- Vector TX4: marker and token bytes in the payload. -/
theorem test_decode_frame_tx4 :
    decode .frame [0x1B, 0xFF, 0x00, 0x03, 0x0E, 0x1B, 0x0E, 0x1B, 0xE7] =
      .ok (.frameTx 0xFF 3 [0x1B, 0x0E, 0x1B]) := by
  decide

/-- BADCS of 95: a complemented checksum is no frame. -/
theorem test_decode_frame_badcs :
    decode .frame [0x1B, 0x01, 0x00, 0x02, 0x0E, 0x01, 0x00, 0xE8] =
      .error (.frame .badChecksum) := by
  decide

/-- R192's example. -/
theorem test_decode_recData :
    decode .hexrec (txt ":0400100005060708D2") =
      .ok (.recData 0x0010 [0x05, 0x06, 0x07, 0x08]) := by decide

/-- R109. -/
theorem test_decode_recEof : decode .hexrec (txt ":00000001FF") = .ok (.recEof 0 []) := by decide

/-- R194's example. -/
theorem test_decode_recEsa :
    decode .hexrec (txt ":020000021000EC") = .ok (.recEsa 0 [0x10, 0x00]) := by decide

/-- Vector DC19: a type-4 record with an address. -/
theorem test_decode_recEla :
    decode .hexrec (txt ":02BEEF0400014C") = .ok (.recEla 0xBEEF [0x00, 0x01]) := by decide

/-- R198's example. -/
theorem test_decode_recUnk :
    decode .hexrec (txt ":0400000300000000F9") = .ok (.recUnk 0x03 0 [0, 0, 0, 0]) := by decide

/-- Vector DC17: lowercase digits. -/
theorem test_decode_lowercase :
    decode .hexrec (txt ":04000000deadbeefc4") = .ok (.recData 0 [0xDE, 0xAD, 0xBE, 0xEF]) := by
  decide

/-- Vectors DE1, DE3, DE9, DE5, DE12: one line for each reason of rejection. -/
theorem test_decode_rejected :
    decode .hexrec (txt "04000000DEADBEEFC4") = .error (.line .noMarker) ∧
      decode .hexrec (txt ":") = .error (.line .tooShort) ∧
      decode .hexrec (txt ":0000000G00") = .error (.line .notHex) ∧
      decode .hexrec (txt ":0400000DEADBEEFC4") = .error (.line (.wrongLength 0x04)) ∧
      decode .hexrec (txt ":04000000DEADBEEF28") =
        .error (.line (.badChecksum
          { rtype := 0, addr := 0, data := [0xDE, 0xAD, 0xBE, 0xEF], csum := 0x28 })) := by
  decide

/-- The two constant bytes of R113's `RXBYTE` rows; every other byte needs the state. -/
theorem test_decode_rxbyte :
    decode .rxbyte [0x1B] = .ok .rxStart ∧ decode .rxbyte [0x0E] = .ok .rxToken ∧
      decode .rxbyte [0x55] = .error .needsState := by
  decide

/-- R113: in each waiting state the accepted byte selects the state's row. -/
theorem test_select_rx_accept :
    selectRx .awaitStart 0x01 0x17 0x1B = some .rxStart ∧
      selectRx .awaitSequence 0x01 0x17 0x01 = some .rxSeq ∧
      selectRx .awaitLength 0x01 0x17 0x00 = some .rxLen ∧
      selectRx .awaitToken 0x01 0x17 0x0E = some .rxToken ∧
      selectRx .awaitPayload 0x01 0x17 0xFF = some .rxPayload ∧
      selectRx .awaitChecksum 0x01 0x17 0x17 = some .rxCsum := by
  decide

/-- R113: a byte that fails the comparison selects `RX.RESTART`. -/
theorem test_select_rx_restart :
    selectRx .awaitSequence 0x01 0x17 0x02 = some (.rxRestart .badSeq 0x02 0x01) ∧
      selectRx .awaitChecksum 0x01 0x17 0xE8 = some (.rxRestart .badChecksum 0xE8 0x17) ∧
      selectRx .done 0x01 0x17 0x1B = none := by
  decide

/-- The host operations by name, with the defaults of R112. -/
theorem test_hostop_names :
    (HostOp.sendrecv 0x01 [0x01] 5).toInstr = .sendrecv 0x01 [0x01] 5 ∧
      (HostOp.hexdecDefault []).toInstr = .hexdec [] 0 ∧
      HostOp.hexencDefault.toInstr = .hexenc 16 := by
  decide

/-- The emitted lines, written out (R222, R223, R224 examples). -/
theorem test_encode_emitted :
    encode (.emitEla 1) = some (txt ":020000040001F9\n") ∧
      encode (.emitData 0x0010 [0x10, 0x11, 0x12, 0x13]) =
        some (txt ":0400100010111213A6\n") ∧
      encode .emitEof = some (txt ":00000001FF\n") := by
  decide

/-- Opcode-table numbers (R113): a HEX line's first four bytes, a frame's first five, one byte. -/
theorem test_table_words :
    decodeTableWord 32 0x02000004 = some (.recEla 0 [0, 0]) ∧
      decodeTableWord 40 0x1B2A00010E = some (.frameTx 0x2A 1 [0]) ∧
      decodeTableWord 8 0x1B = some .rxStart := by
  decide

/-- An opcode-table number placed at reset is what the next step runs. -/
theorem test_fetch_word :
    got (step (State.reset.withFetchWord 40 0x1B0500000E)) (·.env.tx) =
        some [[0x1B, 0x05, 0x00, 0x00, 0x0E, 0x10]] ∧
      got (step (State.reset.withFetchWord 32 0x02000004)) (·.hic.rtype) = some (some 0x04) := by
  decide

/-! ## One step of each instruction -/

/-- R130: SENDRECV clears what a failed call left and latches its operands. -/
theorem test_sendrecv :
    got (exec (.sendrecv 0x2A [0x01, 0x02] 7)
        { idleWith [] with fte := { Fte.reset with rxstate := .failed, err := .timeout,
                                                   result := some [0x09] } })
      (fun t => (t.fte.seq, t.fte.txlen, t.fte.err, t.fte.result)) =
    some (some 0x2A, some 2, .none, none) := by
  decide

/-- R45: a second operation is refused. -/
theorem test_sendrecv_overlap :
    exec (.sendrecv 0x01 [] 5) (rxAt .awaitStart 0 none none none []) =
      .refused .operationInFlight := rfl

/-- Vector TX1. -/
theorem test_frameTx_tx1 :
    got (exec (.frameTx 0x01 1 [0x01]) (sendingWith [0x01])) (·.env.tx) =
      some [[0x1B, 0x01, 0x00, 0x01, 0x0E, 0x01, 0x14]] := by
  decide

/-- Vector TX3. -/
theorem test_frameTx_tx3 :
    got (exec (.frameTx 0x2A 12
        [0x10, 0xC8, 0x64, 0x19, 0x20, 0x00, 0x53, 0x03, 0xAC, 0x53, 0x00, 0x00]) (idleWith []))
      (·.env.tx) =
    some [[0x1B, 0x2A, 0x00, 0x0C, 0x0E, 0x10, 0xC8, 0x64, 0x19, 0x20, 0x00, 0x53, 0x03, 0xAC, 0x53,
      0x00, 0x00, 0x19]] := by
  decide

/-- R151's example, first firing: `00` costs one retry. -/
theorem test_rxStart_noise :
    got (exec .rxStart (rxAt .awaitStart 0 none none none [.byte 0x00, .byte 0x1B]))
      (fun t => (t.fte.retry, t.fte.rxstate, t.env.rx)) =
    some (some 1, .awaitStart, [.byte 0x1B]) := by
  decide

/-- R151's example, second firing. -/
theorem test_rxStart_accept :
    got (exec .rxStart (rxAt .awaitStart 1 none none none [.byte 0x1B]))
      (fun t => (t.fte.xacc, t.fte.rxstate)) = some (some 0x1B, .awaitSequence) := by
  decide

/-- R152's example: `XACC = 0x1A`. -/
theorem test_rxSeq_accept :
    got (exec .rxSeq (rxAt .awaitSequence 0 (some 0x1B) none none [.byte 0x01]))
      (fun t => (t.fte.xacc, t.fte.rxstate)) = some (some 0x1A, .awaitLength) := by
  decide

/-- R160: a second start marker is a wrong sequence byte. -/
theorem test_rxSeq_marker :
    got (exec .rxSeq (rxAt .awaitSequence 0 (some 0x1B) none none [.byte 0x1B]))
      (fun t => (t.fte.info, t.fte.xacc)) =
    some (some (.event { kind := .badSeq, actual := 0x1B, expected := 0x01,
                         state := .awaitSequence, retry := 1 }), none) := by
  decide

/-- R153's example: `LEN = 2`, `XACC = 0x18`. -/
theorem test_rxLen_accept :
    got (exec .rxLen (rxAt .awaitLength 0 (some 0x1A) none none [.byte 0x00, .byte 0x02]))
      (fun t => (t.fte.len, t.fte.xacc)) = some (some 2, some 0x18) := by
  decide

/-- Vector RX10: a partial read is a `Timeout`, and its byte is lost. -/
theorem test_rxLen_short :
    got (exec .rxLen (rxAt .awaitLength 0 (some 0x1A) none none [.byte 0x00]))
      (fun t => (t.fte.err, t.fte.info, t.env.rx)) =
    some (.timeout, some (.event { kind := .shortRead, actual := 1, expected := 2,
                                   state := .awaitLength, retry := 0 }), []) := by
  decide

/-- R154's example: `XACC = 0x16`. -/
theorem test_rxToken_accept :
    got (exec .rxToken (rxAt .awaitToken 0 (some 0x18) (some 2) none [.byte 0x0E]))
      (fun t => (t.fte.xacc, t.fte.rxstate)) = some (some 0x16, .awaitPayload) := by
  decide

/-- BADTOK of 95: `LEN` is abandoned. -/
theorem test_rxToken_bad :
    got (exec .rxToken (rxAt .awaitToken 0 (some 0x18) (some 2) none [.byte 0x0F]))
      (fun t => (t.fte.retry, t.fte.len)) = some (some 1, none) := by
  decide

/-- R155's example: `XACC = 0x17`. -/
theorem test_rxPayload_accept :
    got (exec .rxPayload
        (rxAt .awaitPayload 0 (some 0x16) (some 2) none [.byte 0x01, .byte 0x00, .byte 0x17]))
      (fun t => (t.fte.pay, t.fte.xacc, t.env.rx)) =
    some (some [0x01, 0x00], some 0x17, [.byte 0x17]) := by
  decide

/-- Vector RX21: an empty payload issues no read, so it cannot stall. -/
theorem test_rxPayload_empty :
    got (exec .rxPayload (rxAt .awaitPayload 0 (some 0x14) (some 0) none []))
      (fun t => (t.fte.pay, t.fte.rxstate)) = some (some [], .awaitChecksum) := by
  decide

/-- R156's example: `Done`, with `RETRY` as it was. -/
theorem test_rxCsum_accept :
    got (exec .rxCsum (rxAt .awaitChecksum 3 (some 0x17) (some 2) (some [0x01, 0x00]) [.byte 0x17]))
      (fun t => (t.fte.result, t.fte.rxstate, t.fte.retry)) =
    some (some [0x01, 0x00], .done, some 3) := by
  decide

/-- Vector RX7's last byte: the eleventh bad checksum. -/
theorem test_rxCsum_eleventh :
    got (exec .rxCsum (rxAt .awaitChecksum 10 (some 0x17) (some 2) (some [0x01, 0x00]) [.byte 0xE8]))
      (fun t => (t.fte.err, t.fte.retry, t.fte.info)) =
    some (.retryExhausted, some 11,
      some (.event { kind := .badChecksum, actual := 0xE8, expected := 0x17,
                     state := .awaitChecksum, retry := 11 })) := by
  decide

/-- R157's example. -/
theorem test_rxRestart_eleventh :
    got (exec (.rxRestart .badStart 0x00 0x1B) (rxAt .awaitStart 10 none none none [.byte 0x1B]))
      (fun t => (t.fte.rxstate, t.fte.err, t.env.rx)) =
    some (.failed, .retryExhausted, [.byte 0x1B]) := by
  decide

/-- R157: the tenth mismatch is forgiven. -/
theorem test_rxRestart_tenth :
    got (exec (.rxRestart .badToken 0x0F 0x0E) (rxAt .awaitToken 9 (some 0x18) (some 2) none []))
      (fun t => (t.fte.rxstate, t.fte.retry, t.fte.xacc)) = some (.awaitStart, some 10, none) := by
  decide

/-- R158's example: `Timeout` at `RETRY = 10`. -/
theorem test_rxStall :
    got (exec (.rxStall 1 0) (rxAt .awaitStart 10 none none none []))
      (fun t => (t.fte.rxstate, t.fte.err, t.fte.retry)) = some (.failed, .timeout, some 10) := by
  decide

/-- R180: the Image and `EAB` are kept, `OFFSET` is reloaded. -/
theorem test_hexdec :
    got (exec (.hexdec (txt "\n") 0x100)
        { idleWith [] with hic := { Hic.reset with eab := 1, offset := some 7,
                                                   img := { len := 2, cells := [] } } })
      (fun t => (t.hic.eab, t.hic.offset, t.hic.img.len)) = some (1, some 0x100, 2) := by
  decide

/-- Vector DC9: no wrap inside a record. -/
theorem test_recData_no_wrap :
    got (exec (.recData 0xFFFE [0x01, 0x02, 0x03, 0x04]) (inLine plain))
      (fun t => (t.hic.img.len, t.hic.img.get 0x10001, t.hic.img.get 0xFFFD, t.hic.eab)) =
    some (0x10002, some 0x04, some 0xFF, 0) := by
  decide

/-- Vector DA3: past the capacity the Image is left as it was. -/
theorem test_recData_capacity :
    got (exec (.recData 0x0010 [0x05, 0x06, 0x07, 0x08])
        (inLine { plain with imgCap := some 16 }))
      (fun t => (t.hic.err, t.hic.img.len)) = some (.capacityExceeded, 0) := by
  decide

/-- Vector DC11: an end-of-file record with data and address. -/
theorem test_recEof :
    got (exec (.recEof 0x1234 [0xAB, 0xCD]) (inLine plain))
      (fun t => (t.hic.img.len, t.hic.eab, t.hic.offset, t.hic.csum)) =
    some (0, 0, some 8, some 0x3F) := by
  decide

/-- Vector DC4: `EAB = 1`, and `OFFSET` grows by 0x12340. -/
theorem test_recEsa :
    got (exec (.recEsa 0 [0x12, 0x34]) (inLine plain)) (fun t => (t.hic.eab, t.hic.offset)) =
      some (1, some 0x12348) := by
  decide

/-- Vector DC20: a type-2 record after a type-4 record replaces `EAB`. -/
theorem test_recEsa_replaces :
    got (exec (.recEsa 0 [0x30, 0x00])
        { inLine plain with hic := { (inLine plain).hic with eab := 0xABCD } })
      (fun t => t.hic.eab) = some 3 := by
  decide

/-- Vector DC1, line 1. -/
theorem test_recEla :
    got (exec (.recEla 0 [0xAB, 0xCD]) (inLine plain)) (fun t => (t.hic.eab, t.hic.offset)) =
      some (0xABCD, some 8) := by
  decide

/-- Vector DE10: type 4 with `BC = 1`. -/
theorem test_recEla_count :
    got (exec (.recEla 0 [0x55]) (inLine plain)) (fun t => (t.hic.err, t.hic.eab)) =
      some (.formatError, 0) := by
  decide

/-- Vector DC12, both settings of `UNKNOWN_POLICY`. -/
theorem test_recUnk :
    got (exec (.recUnk 0x03 0 [0, 0, 0, 0]) (inLine plain)) (·.hic.err) = some .none ∧
      got (exec (.recUnk 0x03 0 [0, 0, 0, 0]) (inLine { plain with unknownPolicy := .reject }))
        (·.hic.err) = some .unsupportedRecord := by
  decide

/-- A line is cut, checked, dispatched and stored in one step (vector DC6, `OFFSET_APPLIED` both ways:
the offset here is 8). -/
theorem test_line_step :
    got (step (decodingWith plain (some (txt ":0100000042BD\n")))) (·.hic.img) =
        some { len := 1, cells := [(0, 0x42)] } ∧
      got (step (decodingWith { plain with offsetApplied := true }
          (some (txt ":0100000042BD\n")))) (·.hic.img) =
        some { len := 9, cells := [(8, 0x42)] } := by
  decide

/-- Vector DE13: the checksum is tested before the type, under `Reject`. -/
theorem test_line_checksum_first :
    got (step (decodingWith { plain with unknownPolicy := .reject }
        (some (txt ":0400000300000000F8\n")))) (fun t => (t.hic.err, t.act)) =
      some (.checksumError, .ret .hic) := by
  decide

/-- Vectors EN5 and EN10: refused line sizes. -/
theorem test_hexenc_refused :
    got (exec (.hexenc 0) (idleWith [])) (fun t => (t.hic.err, t.hic.txtOut)) =
        some (.encodeRefused, none) ∧
      got (exec (.hexenc 24) { idleWith [] with hic := { Hic.reset with
          img := { len := 0x10004, cells := [] } } }) (·.hic.err) = some .encodeRefused := by
  decide

/-- Vector EN12: any size up to 255 for an Image of at most 65536 bytes. -/
theorem test_hexenc_accepted :
    got (exec (.hexenc 24) { idleWith [] with hic := { Hic.reset with
        img := { len := 0x10000, cells := [] } } }) (fun t => (t.hic.encA, t.hic.txtOut)) =
      some (some 0, some []) := by
  decide

/-- Vector EN14: the value is `ENC_A >> 16`, the line comes before the data line. -/
theorem test_emitEla_walk :
    got (step (encodingAt 0x20001 128 0x20000 false)) (fun t => (t.hic.txtOut, t.act)) =
      some (some (txt ":020000040002F8\n"), .encode true) := by
  decide

/-- Vector EN6, first line: the checksum is 00. -/
theorem test_emitData_walk :
    got (step (encodingAt 3 1 0 false)) (fun t => (t.hic.txtOut, t.hic.encA)) =
      some (some (txt ":01000000FF00\n"), some 1) := by
  decide

/-- Vector EN1: an empty Image gives the end-of-file line alone. -/
theorem test_emitEof_walk :
    got (step (encodingAt 0 16 0 false)) (fun t => (t.hic.txtOut, t.act)) =
      some (some (txt ":00000001FF\n"), .ret .hic) := by
  decide

/-! ## Witnesses: values that meet the hypotheses of each statement -/

/-- The state after an outcome, or the given one. -/
def after (o : Out) (s : State) : State :=
  match o with
  | .next t => t
  | .fault _ => s
  | .refused _ => s

/-- HEXDEC about to take the line that stores one byte at address 0. -/
def oneLine : State := decodingWith plain (some (txt ":0100000042BD\n"))

/-- HEXDEC about to take a line with a bad checksum (vector DE12). -/
def badLine : State := decodingWith plain (some (txt ":04000000DEADBEEF28\n"))

/-- The receive machine about to read noise at `RETRY = 9`. -/
def noisy : State := rxAt .awaitStart 9 none none none [.byte 0x00, .byte 0x1B]

/-- SENDRECV's whole input: one noise byte, then GOOD of 95, then one stray byte. -/
def goodStream : List RxItem :=
  [.byte 0x00, .byte 0x1B, .byte 0x01, .byte 0x00, .byte 0x02, .byte 0x0E, .byte 0x01, .byte 0x00,
    .byte 0x17, .byte 0x55]

/-- A host about to start one SENDRECV over `goodStream`. -/
def exchanging : State :=
  { idleWith [.sendrecv 0x01 [0x01] 5] with
    env := { (idleWith [.sendrecv 0x01 [0x01] 5]).env with rx := goodStream } }

/-- A host about to start one HEXENC over an Image of four bytes. -/
def serializing : State :=
  { idleWith [.hexenc 16] with
    hic := { Hic.reset with img := { len := 4, cells := [(0, 0xDE), (1, 0xAD), (3, 0xEF)] } } }

/-- A receive attempt that has just begun is legal. -/
theorem legal_rxAt_start (r : Nat) (rx : List RxItem) (h : r ≤ 10) :
    Legal (rxAt .awaitStart r none none none rx) := by
  refine ⟨rfl, ⟨rfl, rfl⟩, ⟨fun hb => ?_, fun _ => rfl⟩, ?_⟩
  · simp [rxAt, fteBusy] at hb
  · exact ⟨⟨0x01, rfl, trivial⟩, ⟨5, rfl⟩, ⟨r, rfl, h⟩, rfl⟩

/-- A receive attempt that waits for the checksum of a frame without payload is legal. -/
theorem legal_rxAt_checksum (rx : List RxItem) :
    Legal (rxAt .awaitChecksum 0 (some 0x14) (some 0) (some []) rx) := by
  refine ⟨rfl, ⟨rfl, rfl⟩, ⟨fun hb => ?_, fun _ => rfl⟩, ?_⟩
  · simp [rxAt, fteBusy] at hb
  · exact ⟨⟨0x01, rfl, 0, [], rfl, rfl, rfl, rfl⟩, ⟨5, rfl⟩, ⟨0, rfl, by decide⟩, rfl⟩

/-- An idle block over a canonical Image is legal. -/
theorem legal_serializing : Legal serializing := by
  refine ⟨by decide, ⟨rfl, rfl⟩, ⟨fun _ => rfl, fun _ => rfl⟩, ?_⟩
  show FteSettled _
  simp [FteSettled, serializing, idleWith, State.reset, Fte.reset, isWaiting]

theorem witness_ResetEventLeavesTheEnvironment : ∃ s : State, s.env.resetReq = true :=
  ⟨{ noisy with env := { noisy.env with resetReq := true } }, rfl⟩

theorem witness_ImageNeverShrinks :
    ∃ s t : State, s.env.resetReq = false ∧ step s = .next t ∧ s.hic.img.len < t.hic.img.len :=
  ⟨oneLine, after (step oneLine) oneLine, rfl, rfl, by decide⟩

theorem witness_StepRunsTheDecodedInstruction_line :
    ∃ (s : State) (text line : Text) (rest : Option Text) (n : Nat) (i : Instr),
      s.env.resetReq = false ∧ s.act = .decode (some text) ∧ s.hic.lineNo = some n ∧
      cutLine text = (line, rest) ∧ line ≠ [] ∧ decode .hexrec line = .ok i ∧
      i.wellFormed = true :=
  ⟨oneLine, txt ":0100000042BD\n", txt ":0100000042BD", some [], 0, .recData 0 [0x42], rfl, rfl, rfl,
    by decide, by decide, by decide, by decide⟩

theorem witness_StepRunsTheDecodedInstruction_firing :
    ∃ (s : State) (i : Instr),
      s.env.resetReq = false ∧ s.act = .receive ∧ rxRule s.fte.rxstate = some i :=
  ⟨noisy, .rxStart, rfl, rfl, rfl⟩

theorem witness_StepRunsTheDecodedInstruction_host :
    ∃ (s : State) (c : HostOp) (cs : List HostOp),
      s.env.resetReq = false ∧ s.act = .idle ∧ s.env.cmds = c :: cs :=
  ⟨serializing, .hexenc 16, [], rfl, rfl, rfl⟩

theorem witness_StepRunsTheDecodedInstruction_frame :
    ∃ (s t : State) (q : Byte) (len : Half) (payload : List Byte) (x : Nat),
      s.env.resetReq = false ∧ s.act = .transmit payload ∧ s.fte.seq = some q ∧
      s.fte.txlen = some len ∧ s.fte.tmo = some x ∧ exec (.frameTx q len payload) s = .next t :=
  ⟨sendingWith [0x01], after (exec (.frameTx 0x01 1 [0x01]) (sendingWith [0x01])) State.reset,
    0x01, 1, [0x01], 5, rfl, rfl, rfl, rfl, rfl, rfl⟩

theorem witness_OverlappingOperationsAreRefused : ∃ s : State, s.act ≠ .idle :=
  ⟨noisy, by decide⟩

theorem witness_SendrecvLatchesItsOperands_empty :
    ∃ (s : State) (payload : List Byte) (n : Half), s.act = .idle ∧ payload.length = n.toNat :=
  ⟨idleWith [], [], 0, rfl, rfl⟩

theorem witness_SendrecvLatchesItsOperands_longest :
    ∃ (s : State) (payload : List Byte) (n : Half), s.act = .idle ∧ payload.length = n.toNat ∧
      payload.length = 65535 :=
  ⟨idleWith [], List.replicate 65535 0xA5, 65535, rfl, List.length_replicate, List.length_replicate⟩

theorem witness_SendrecvLatchesItsOperands_tooLong :
    ∃ (s : State) (payload : List Byte), s.act = .idle ∧ 65535 < payload.length :=
  ⟨idleWith [], List.replicate 65536 0xA5, rfl, by rw [List.length_replicate]; decide⟩

theorem witness_FrameTxWritesOneFrame :
    ∃ (hi lo : Byte) (len : Half) (payload : List Byte),
      payload.length = len.toNat ∧ len.toNat = hi.toNat * 256 + lo.toNat ∧ hi ≠ 0 :=
  ⟨0x01, 0x00, 256, List.replicate 256 0, List.length_replicate, by decide, by decide⟩

theorem witness_FrameChecksumIsTheXorOfTheRest :
    ∃ (payload : List Byte) (len : Half), payload.length = len.toNat :=
  ⟨[0x1B, 0x0E, 0x1B], 3, rfl⟩

theorem witness_FrameDecodesToWhatWasEncoded :
    ∃ (seq : Byte) (len : Half) (payload : List Byte),
      (Instr.frameTx seq len payload).wellFormed = true :=
  ⟨0x03, 3, [0x1B, 0x0E, 0x1B], by decide⟩

theorem witness_DecodedFrameIsItsOwnEncoding :
    ∃ (bytes : List Byte) (i : Instr), decode .frame bytes = .ok i :=
  ⟨[0x1B, 0x00, 0x00, 0x00, 0x0E, 0x15], .frameTx 0x00 0 [], by decide⟩

theorem witness_RequestIsSentAndReceptionStarts :
    ∃ (s : State) (seq : Byte) (len : Half) (payload : List Byte) (x : Nat),
      s.env.resetReq = false ∧ s.act = .transmit payload ∧ s.fte.seq = some seq ∧
      s.fte.txlen = some len ∧ s.fte.tmo = some x ∧ payload.length = len.toNat :=
  ⟨sendingWith [0x01], 0x01, 1, [0x01], 5, rfl, rfl, rfl, rfl, rfl, rfl⟩

theorem witness_StreamsAreTouchedOnlyByTheirRules :
    ∃ s t : State, step s = .next t ∧ (∀ payload, s.act ≠ .transmit payload) ∧
      (s.act = .receive → isWaiting s.fte.rxstate = false) :=
  ⟨oneLine, after (step oneLine) oneLine, rfl, by simp [oneLine, decodingWith]⟩

theorem witness_StreamReadConsumesInOrder :
    ∃ (n : Nat) (s t : State) (r : List Byte), streamRead n s = (r, t) ∧ r.length < n :=
  ⟨3, noisy, (streamRead 3 noisy).2, [0x00, 0x1B], rfl, by decide⟩

/-- The four streams of the one-byte states: the accepted byte, another byte, a timeout, nothing. -/
theorem witness_RxStartAcceptsTheStartMarker :
    (rxAt .awaitStart 0 none none none [.byte 0x1B]).env.rx = .byte 0x1B :: [] ∧
      ((0x1A : Byte) ≠ 0x1B ∧
        (rxAt .awaitStart 0 none none none [.byte 0x1A]).env.rx = .byte 0x1A :: []) ∧
      (rxAt .awaitStart 0 none none none [.stall]).env.rx = .stall :: [] ∧
      (rxAt .awaitStart 0 none none none []).env.rx = [] := by
  decide

theorem witness_RxSeqAcceptsTheSequenceByte :
    (∀ q : List RxItem,
      (rxAt .awaitSequence 0 (some 0x1B) none none q).fte.seq = some 0x01 ∧
      (rxAt .awaitSequence 0 (some 0x1B) none none q).fte.xacc = some 0x1B ∧
      (rxAt .awaitSequence 0 (some 0x1B) none none q).env.rx = q) ∧
    (0x02 : Byte) ≠ 0x01 :=
  ⟨fun _ => ⟨rfl, rfl, rfl⟩, by decide⟩

theorem witness_RxLenTakesTwoBytes :
    (∀ q : List RxItem,
      (rxAt .awaitLength 0 (some 0x1A) none none q).fte.xacc = some 0x1A ∧
      (rxAt .awaitLength 0 (some 0x1A) none none q).env.rx = q) ∧
    (0xFFFF : Half).toNat = (0xFF : Byte).toNat * 256 + (0xFF : Byte).toNat :=
  ⟨fun _ => ⟨rfl, rfl⟩, by decide⟩

theorem witness_RxTokenAcceptsTheToken :
    (∀ q : List RxItem,
      (rxAt .awaitToken 0 (some 0x18) (some 2) none q).fte.xacc = some 0x18 ∧
      (rxAt .awaitToken 0 (some 0x18) (some 2) none q).env.rx = q) ∧
    (0x0F : Byte) ≠ 0x0E :=
  ⟨fun _ => ⟨rfl, rfl⟩, by decide⟩

theorem witness_RxPayloadReadsExactlyLenBytes_empty :
    ∃ (s : State) (len : Half) (x : Byte),
      s.fte.len = some len ∧ s.fte.xacc = some x ∧ len = 0 :=
  ⟨rxAt .awaitPayload 0 (some 0x14) (some 0) none [], 0, 0x14, rfl, rfl, rfl⟩

theorem witness_RxPayloadReadsExactlyLenBytes_whole :
    ∃ (s : State) (q : List RxItem) (len : Half) (x : Byte) (p : List Byte),
      s.fte.len = some len ∧ s.fte.xacc = some x ∧ len ≠ 0 ∧ p.length = len.toNat ∧
      s.env.rx = p.map .byte ++ q :=
  ⟨rxAt .awaitPayload 0 (some 0x16) (some 2) none [.byte 0x01, .byte 0x00, .byte 0x17],
    [.byte 0x17], 2, 0x16, [0x01, 0x00], rfl, rfl, by decide, rfl, rfl⟩

theorem witness_RxPayloadReadsExactlyLenBytes_timeout :
    ∃ (s : State) (q : List RxItem) (len : Half) (x : Byte) (p : List Byte),
      s.fte.len = some len ∧ s.fte.xacc = some x ∧ p.length < len.toNat ∧
      s.env.rx = p.map .byte ++ .stall :: q :=
  ⟨rxAt .awaitPayload 0 (some 0x16) (some 1) none [.stall, .byte 0x17], [.byte 0x17], 1, 0x16, [],
    rfl, rfl, by decide, rfl⟩

theorem witness_RxPayloadReadsExactlyLenBytes_dry :
    ∃ (s : State) (len : Half) (x : Byte) (p : List Byte),
      s.fte.len = some len ∧ s.fte.xacc = some x ∧ p.length < len.toNat ∧
      s.env.rx = p.map .byte :=
  ⟨rxAt .awaitPayload 0 (some 0x16) (some 2) none [.byte 0x01], 2, 0x16, [0x01], rfl, rfl,
    by decide, rfl⟩

theorem witness_RxCsumAcceptsTheChecksum :
    (∀ q : List RxItem,
      (rxAt .awaitChecksum 0 (some 0x17) (some 1) (some [0x01]) q).fte.xacc = some 0x17 ∧
      (rxAt .awaitChecksum 0 (some 0x17) (some 1) (some [0x01]) q).fte.pay = some [0x01] ∧
      (rxAt .awaitChecksum 0 (some 0x17) (some 1) (some [0x01]) q).env.rx = q) ∧
    (0xE8 : Byte) ≠ 0x17 :=
  ⟨fun _ => ⟨rfl, rfl, rfl⟩, by decide⟩

theorem witness_RxRestartForgivesTenMismatches :
    EventKind.badStart ≠ .shortRead ∧
      ((rxAt .awaitStart 9 none none none []).fte.retry = some 9 ∧ 9 < 10) ∧
      ((rxAt .awaitStart 10 none none none []).fte.retry = some 10 ∧ 10 ≤ 10) := by
  decide

theorem witness_RxStallIsATimeout :
    ∃ (s : State) (asked got r : Nat), got < asked ∧ asked ≤ 65535 ∧ s.fte.retry = some r :=
  ⟨rxAt .awaitPayload 10 (some 0x16) (some 65535) none [], 65535, 65534, 10, by decide, by decide,
    rfl⟩

/-- In `AwaitStart` `XACC` holds no value. -/
theorem witness_FiringFollowsTheOpcodeTable_start :
    ∃ (s : State) (q : List RxItem) (b c x : Byte),
      Legal s ∧ s.act = .receive ∧ isWaiting s.fte.rxstate = true ∧ s.env.rx = .byte b :: q ∧
      s.fte.seq = some c ∧ (s.fte.rxstate = .awaitChecksum → s.fte.xacc = some x) :=
  ⟨rxAt .awaitStart 10 none none none [.byte 0x00], [], 0x00, 0x01, 0, legal_rxAt_start 10 _ (by decide),
    rfl, rfl, rfl, rfl, fun h => by cases h⟩

theorem witness_FiringFollowsTheOpcodeTable_checksum :
    ∃ (s : State) (q : List RxItem) (b c x : Byte),
      Legal s ∧ s.act = .receive ∧ isWaiting s.fte.rxstate = true ∧ s.env.rx = .byte b :: q ∧
      s.fte.seq = some c ∧ s.fte.rxstate = .awaitChecksum ∧
      (s.fte.rxstate = .awaitChecksum → s.fte.xacc = some x) :=
  ⟨rxAt .awaitChecksum 0 (some 0x14) (some 0) (some []) [.byte 0x14], [], 0x14, 0x01, 0x14,
    legal_rxAt_checksum _, rfl, rfl, rfl, rfl, rfl, fun _ => rfl⟩

theorem witness_RetryGrowsOnlyByRestart :
    ∃ (s t : State) (r : Nat),
      s.env.resetReq = false ∧ s.fte.retry = some r ∧ step s = .next t ∧
      t.fte.retry = some (r + 1) :=
  ⟨noisy, after (step noisy) noisy, 9, rfl, rfl, rfl, by decide⟩

theorem witness_SequenceByteIsNeverAdvanced :
    ∃ (s t : State) (c : Byte),
      s.env.resetReq = false ∧ s.act ≠ .idle ∧ s.fte.seq = some c ∧ step s = .next t :=
  ⟨noisy, after (step noisy) noisy, 0x01, rfl, by decide, rfl, rfl⟩

theorem witness_FailedIsEnteredOnlyByAnError :
    ∃ s t : State, step s = .next t ∧ s.fte.rxstate ≠ .failed ∧ t.fte.rxstate = .failed :=
  ⟨rxAt .awaitStart 0 none none none [],
    after (step (rxAt .awaitStart 0 none none none [])) State.reset, rfl, by decide, by decide⟩

theorem witness_EmptyStreamTimesOut :
    ∃ s : State, Legal s ∧ s.env.resetReq = false ∧ s.act = .receive ∧
      isWaiting s.fte.rxstate = true ∧ s.env.rx = [] ∧
      ¬(s.fte.rxstate = .awaitPayload ∧ s.fte.len = some 0) :=
  ⟨rxAt .awaitStart 10 none none none [], legal_rxAt_start 10 [] (by decide), rfl, rfl, rfl, rfl,
    by decide⟩

theorem witness_NoiseBytesSpendTheRetryBudget_within :
    ∃ (s : State) (noise : List Byte) (q : List RxItem) (r : Nat),
      s.env.resetReq = false ∧ s.act = .receive ∧ s.fte.rxstate = .awaitStart ∧
      s.fte.retry = some r ∧ (∀ b ∈ noise, b ≠ 0x1B) ∧ s.env.rx = noise.map .byte ++ q ∧
      r + noise.length ≤ 10 ∧ noise ≠ [] :=
  ⟨noisy, [0x00], [.byte 0x1B], 9, rfl, rfl, rfl, rfl, by decide, rfl, by decide, by decide⟩

theorem witness_NoiseBytesSpendTheRetryBudget_eleventh :
    ∃ (s : State) (noise : List Byte) (q : List RxItem) (r : Nat),
      s.env.resetReq = false ∧ s.act = .receive ∧ s.fte.rxstate = .awaitStart ∧
      s.fte.retry = some r ∧ (∀ b ∈ noise, b ≠ 0x1B) ∧ s.env.rx = noise.map .byte ++ q ∧
      r ≤ 10 ∧ r + noise.length = 11 :=
  ⟨rxAt .awaitStart 10 none none none [.byte 0x00, .byte 0x1B], [0x00], [.byte 0x1B], 10, rfl, rfl,
    rfl, rfl, by decide, rfl, by decide, by decide⟩

theorem witness_SendrecvReturnsTheResponsePayload :
    ∃ (s : State) (seq : Byte) (request response noise : List Byte) (lenQ lenR : Half) (x : Nat)
      (q : List RxItem),
      s.env.resetReq = false ∧ s.act = .idle ∧ s.env.cmds = [.sendrecv seq request x] ∧
      request.length = lenQ.toNat ∧ response.length = lenR.toNat ∧
      (∀ b ∈ noise, b ≠ 0x1B) ∧ noise.length ≤ 10 ∧
      s.env.rx = (noise ++ frameBytes seq lenR response).map .byte ++ q :=
  ⟨exchanging, 0x01, [0x01], [0x01, 0x00], [0x00], 1, 2, 5, [.byte 0x55], rfl, rfl, rfl, rfl, rfl,
    by decide, by decide, by decide⟩

theorem witness_ReceiveAttemptEnds :
    ∃ s : State, Legal s ∧ s.env.resetReq = false ∧ s.act = .receive :=
  ⟨noisy, legal_rxAt_start 9 _ (by decide), rfl, rfl⟩

theorem witness_HexdecStartsItsLineLoop : ∃ s : State, s.act = .idle := ⟨State.reset, rfl⟩

theorem witness_TextIsCutAtLineFeeds : ∃ piece : Text, ∀ c ∈ piece, c ≠ 0x0A :=
  ⟨txt ":00000001FF", by decide⟩

theorem witness_EmptyPiecesAndTheEndOfText_skip :
    ∃ (s : State) (n : Nat) (rest : Text), s.env.resetReq = false ∧
      s.act = .decode (some (0x0A :: rest)) ∧ s.hic.lineNo = some n :=
  ⟨decodingWith plain (some [0x0A]), 0, [], rfl, rfl, rfl⟩

theorem witness_EmptyPiecesAndTheEndOfText_last :
    ∃ (s : State) (n : Nat), s.env.resetReq = false ∧ s.act = .decode (some []) ∧
      s.hic.lineNo = some n :=
  ⟨decodingWith plain (some []), 0, rfl, rfl, rfl⟩

theorem witness_EmptyPiecesAndTheEndOfText_return :
    ∃ s : State, s.env.resetReq = false ∧ s.act = .decode none :=
  ⟨decodingWith plain none, rfl, rfl⟩

/-- HEXDEC about to take a text as its next piece. -/
def decodingText (t : Text) : State := decodingWith plain (some t)

theorem witness_MalformedLineIsAFormatError_noMarker :
    ∃ (s : State) (text line : Text) (rest : Option Text) (n : Nat),
      s.env.resetReq = false ∧ s.act = .decode (some text) ∧ s.hic.lineNo = some n ∧
      cutLine text = (line, rest) ∧ line ≠ [] ∧ line.head? ≠ some 0x3A :=
  ⟨decodingText (txt " :00000001FF\n"), txt " :00000001FF\n", txt " :00000001FF", some [], 0, rfl,
    rfl, rfl, by decide, by decide, by decide⟩

theorem witness_MalformedLineIsAFormatError_tooShort :
    ∃ (s : State) (text line : Text) (rest : Option Text) (n : Nat),
      s.env.resetReq = false ∧ s.act = .decode (some text) ∧ s.hic.lineNo = some n ∧
      cutLine text = (line, rest) ∧ line ≠ [] ∧ line.head? = some 0x3A ∧ line.length < 11 :=
  ⟨decodingText (txt ":000000000"), txt ":000000000", txt ":000000000", none, 0, rfl, rfl, rfl,
    by decide, by decide, by decide, by decide⟩

theorem witness_MalformedLineIsAFormatError_notHex :
    ∃ (s : State) (text line : Text) (rest : Option Text) (n : Nat),
      s.env.resetReq = false ∧ s.act = .decode (some text) ∧ s.hic.lineNo = some n ∧
      cutLine text = (line, rest) ∧ line ≠ [] ∧ line.head? = some 0x3A ∧ 11 ≤ line.length ∧
      ∃ c ∈ line.tail, hexval c = none :=
  ⟨decodingText (txt ":00000001FG"), txt ":00000001FG", txt ":00000001FG", none, 0, rfl, rfl, rfl,
    by decide, by decide, by decide, by decide, 0x47, by decide, by decide⟩

theorem witness_MalformedLineIsAFormatError_wrongLength :
    ∃ (s : State) (text line : Text) (rest : Option Text) (n : Nat),
      s.env.resetReq = false ∧ s.act = .decode (some text) ∧ s.hic.lineNo = some n ∧
      cutLine text = (line, rest) ∧ line ≠ [] ∧ line.head? = some 0x3A ∧ 11 ≤ line.length ∧
      (∀ c ∈ line.tail, (hexval c).isSome = true) ∧ line.length ≠ 11 + 2 * lineByte line 1 :=
  ⟨decodingText (txt ":00000001FF0"), txt ":00000001FF0", txt ":00000001FF0", none, 0, rfl, rfl, rfl,
    by decide, by decide, by decide, by decide, by decide, by decide⟩

theorem witness_OnlyTheRightChecksumIsAccepted : ∃ data : List Byte, data.length ≤ 255 :=
  ⟨List.replicate 255 0, by rw [List.length_replicate]⟩

theorem witness_BadChecksumEndsHexdec :
    ∃ (s : State) (text digits : Text) (rest : Option Text) (n : Nat),
      s.env.resetReq = false ∧ s.act = .decode (some text) ∧ s.hic.lineNo = some n ∧
      cutLine text = (0x3A :: digits, rest) ∧ (∀ c ∈ digits, (hexval c).isSome = true) ∧
      digits.length = 10 + 2 * lineByte (0x3A :: digits) 1 ∧
      ((List.range (lineByte (0x3A :: digits) 1 + 5)).map
          fun i => lineByte (0x3A :: digits) (1 + 2 * i)).sum % 256 ≠ 0 :=
  ⟨badLine, txt ":04000000DEADBEEF28\n", txt "04000000DEADBEEF28", some [], 0, rfl, rfl, rfl,
    by decide, by decide, by decide, by decide⟩

theorem witness_RecordsDecodeToThemselves :
    (Instr.recData 0 []).wellFormed = true ∧ (Instr.recEof 0x1234 [0xAB]).wellFormed = true ∧
      (Instr.recEsa 0 [0x12, 0x34]).wellFormed = true ∧
      (Instr.recEla 0xBEEF [0x00, 0x01]).wellFormed = true ∧
      (Instr.recUnk 0x03 0 [0, 0]).wellFormed = true := by
  decide

theorem witness_EmittedLinesDecodeAsRecords :
    ((1 : Half) ≠ 0 ∧ (1 : Half).toNat = (0 : Byte).toNat * 256 + (1 : Byte).toNat) ∧
      (Instr.emitData 0xFFFF [0xFF]).wellFormed = true := by
  decide

theorem witness_RecDataWritesTheImage :
    ∃ (s : State) (addr : Half) (data : List Byte) (off abs : Nat),
      data.length ≤ 255 ∧ s.hic.img.wf = true ∧ s.hic.offset = some off ∧
      abs = s.hic.eab.toNat * 65536 + addr.toNat + (if s.params.offsetApplied then off else 0) ∧
      ∀ cap, s.params.imgCap = some cap → abs + data.length ≤ max cap s.hic.img.len :=
  ⟨inLine { plain with offsetApplied := true, imgCap := some 10 }, 0, [0x42, 0x43], 8, 8, by decide,
    by decide, rfl, rfl, fun _ h => by cases h; decide⟩

theorem witness_RecDataPastTheCapacity :
    ∃ (s : State) (addr : Half) (data : List Byte) (off abs cap n : Nat) (line : Text),
      data.length ≤ 255 ∧ s.hic.offset = some off ∧ s.hic.lineNo = some n ∧
      s.hic.line = some line ∧
      abs = s.hic.eab.toNat * 65536 + addr.toNat + (if s.params.offsetApplied then off else 0) ∧
      s.params.imgCap = some cap ∧ cap < abs + data.length ∧
      s.hic.img.len < abs + data.length :=
  ⟨inLine { plain with offsetApplied := true, imgCap := some 9 }, 0, [0x42, 0x43], 8, 8, 9, 1,
    txt ":", by decide, rfl, rfl, rfl, rfl, rfl, by decide, by decide⟩

theorem witness_RecEofHasNoEffect : ∃ data : List Byte, data.length ≤ 255 := ⟨[], by decide⟩

theorem witness_RecEsaSetsTheSegment :
    ((inLine plain).hic.offset = some 8 ∧ (0x0F : Half).toNat = (0xFF : Byte).toNat / 16) ∧
      (([0x55] : List Byte).length ≤ 255 ∧ ([0x55] : List Byte).length ≠ 2 ∧
        (inLine plain).hic.lineNo = some 1 ∧ (inLine plain).hic.line = some (txt ":")) := by
  decide

theorem witness_RecElaSetsTheBase :
    (0xFFFF : Half).toNat = (0xFF : Byte).toNat * 256 + (0xFF : Byte).toNat ∧
      (([0x00, 0x01, 0x00] : List Byte).length ≤ 255 ∧
        ([0x00, 0x01, 0x00] : List Byte).length ≠ 2 ∧
        (inLine plain).hic.lineNo = some 1 ∧ (inLine plain).hic.line = some (txt ":")) := by
  decide

theorem witness_RecUnkFollowsThePolicy :
    ((3 : Byte) ≠ 0 ∧ (3 : Byte) ≠ 1 ∧ (3 : Byte) ≠ 2 ∧ (3 : Byte) ≠ 4) ∧
      (inLine plain).params.unknownPolicy = .ignore ∧
      (inLine { plain with unknownPolicy := .reject }).params.unknownPolicy = .reject ∧
      (inLine { plain with unknownPolicy := .reject }).hic.lineNo = some 1 ∧
      (inLine { plain with unknownPolicy := .reject }).hic.line = some (txt ":") := by
  decide

theorem witness_OffendingLineHasNoEffect :
    ∃ (s t : State) (rest : Option Text), s.env.resetReq = false ∧ s.act = .decode rest ∧
      s.hic.err = .none ∧ step s = .next t ∧ t.hic.err ≠ .none :=
  ⟨badLine, after (step badLine) badLine, _, rfl, rfl, rfl, rfl, by decide⟩

theorem witness_HexencStartsOrRefuses_smallest :
    ∃ (s : State) (ls : Nat), s.act = .idle ∧ 1 ≤ ls ∧ ls ≤ 255 ∧ s.hic.img.len ≤ 2 ^ 32 ∧
      (ls ∣ 65536 ∨ s.hic.img.len ≤ 65536) ∧ s.hic.img.len = 2 ^ 32 :=
  ⟨{ idleWith [] with hic := { Hic.reset with img := { len := 2 ^ 32, cells := [] } } }, 1, rfl,
    by decide, by decide, by decide, .inl (by decide), rfl⟩

theorem witness_HexencStartsOrRefuses_odd :
    ∃ (s : State) (ls : Nat), s.act = .idle ∧ 1 ≤ ls ∧ ls ≤ 255 ∧ s.hic.img.len ≤ 2 ^ 32 ∧
      (ls ∣ 65536 ∨ s.hic.img.len ≤ 65536) ∧ s.hic.img.len = 65536 :=
  ⟨{ idleWith [] with hic := { Hic.reset with img := { len := 65536, cells := [] } } }, 255, rfl,
    by decide, by decide, by decide, .inr (by decide), rfl⟩

theorem witness_HexencStartsOrRefuses_refused :
    ∃ (s : State) (ls : Nat), s.act = .idle ∧
      (ls = 0 ∨ 255 < ls ∨ 2 ^ 32 < s.hic.img.len ∨ (¬ ls ∣ 65536 ∧ 65536 < s.hic.img.len)) :=
  ⟨{ idleWith [] with hic := { Hic.reset with img := { len := 65537, cells := [] } } }, 24, rfl,
    .inr (.inr (.inr ⟨by decide, by decide⟩))⟩

theorem witness_WalkEmitsTheImageInOrder_boundary :
    ∃ (s : State) (a ls : Nat) (out : Text) (v : Half), s.env.resetReq = false ∧
      s.act = .encode false ∧ s.hic.encA = some a ∧ s.hic.encLs = some ls ∧
      s.hic.txtOut = some out ∧ a < s.hic.img.len ∧ s.hic.img.len ≤ 2 ^ 32 ∧ 0 < a ∧
      a % 65536 = 0 ∧ v.toNat = a / 65536 :=
  ⟨encodingAt 0x10001 16 0x10000 false, 0x10000, 16, [], 1, rfl, rfl, rfl, rfl, rfl, by decide,
    by decide, by decide, by decide, by decide⟩

theorem witness_WalkEmitsTheImageInOrder_data :
    ∃ (s : State) (a ls : Nat) (out : Text) (a16 : Half) (d : List Byte),
      s.env.resetReq = false ∧ s.act = .encode true ∧ s.hic.encA = some a ∧
      s.hic.encLs = some ls ∧ s.hic.txtOut = some out ∧ a < s.hic.img.len ∧ 1 ≤ ls ∧ ls ≤ 255 ∧
      a16.toNat = a % 65536 ∧ d.length = min ls (s.hic.img.len - a) ∧
      ∀ k, k < d.length → s.hic.img.get (a + k) = some (d.getD k 0) :=
  ⟨encodingAt 0x10001 16 0x10000 true, 0x10000, 16, [], 0, [0xFF], rfl, rfl, rfl, rfl, rfl,
    by decide, by decide, by decide, by decide, by decide, by decide⟩

theorem witness_WalkEmitsTheImageInOrder_end :
    ∃ (s : State) (a ls : Nat) (out : Text), s.env.resetReq = false ∧ s.act = .encode false ∧
      s.hic.encA = some a ∧ s.hic.encLs = some ls ∧ s.hic.txtOut = some out ∧
      s.hic.img.len ≤ a :=
  ⟨encodingAt 16 16 16 false, 16, 16, [], rfl, rfl, rfl, rfl, rfl, by decide⟩

theorem witness_EmitElaWritesItsLine :
    ∃ (s : State) (v : Half) (hh ll cc : Byte) (out : Text), v ≠ 0 ∧
      v.toNat = hh.toNat * 256 + ll.toNat ∧
      (0x02 + 0x04 + hh.toNat + ll.toNat + cc.toNat) % 256 = 0 ∧ s.hic.txtOut = some out :=
  ⟨encodingAt 0x10001 16 0x10000 false, 1, 0x00, 0x01, 0xF9, [], by decide, by decide, by decide, rfl⟩

theorem witness_EmitDataWritesItsLine :
    ∃ (s : State) (a16 : Half) (d : List Byte) (n ah al cc : Byte) (out : Text),
      d.length = n.toNat ∧ n ≠ 0 ∧ a16.toNat = ah.toNat * 256 + al.toNat ∧
      (n.toNat + ah.toNat + al.toNat + (d.map BitVec.toNat).sum + cc.toNat) % 256 = 0 ∧
      s.hic.txtOut = some out :=
  ⟨encodingAt 3 1 0 false, 0, [0xFF], 1, 0, 0, 0x00, [], by decide, by decide, by decide, by decide,
    rfl⟩

theorem witness_EmitEofWritesTheFixedLine : ∃ (s : State) (out : Text), s.hic.txtOut = some out :=
  ⟨encodingAt 0 16 0 false, [], rfl⟩

theorem witness_HexencLeavesTheImage :
    ∃ (s t : State) (elaDone : Bool), s.env.resetReq = false ∧ s.act = .encode elaDone ∧
      step s = .next t :=
  ⟨encodingAt 3 1 0 false, after (step (encodingAt 3 1 0 false)) State.reset, false, rfl, rfl, rfl⟩

theorem witness_EncodedImageDecodesToItself :
    ∃ (s : State) (ls : Nat) (p : Params),
      s.env.resetReq = false ∧ s.act = .idle ∧ s.env.cmds = [.hexenc ls] ∧
      s.hic.img.wf = true ∧ 1 ≤ ls ∧ ls ≤ 255 ∧ s.hic.img.len ≤ 2 ^ 32 ∧
      (ls ∣ 65536 ∨ s.hic.img.len ≤ 65536) ∧ p.imgCap = none :=
  ⟨serializing, 16, plain, rfl, rfl, rfl, by decide, by decide, by decide, by decide,
    .inl (by decide), rfl⟩

theorem witness_UnitsShareNoState_fte :
    ∃ s s' t : State, s.env.resetReq = false ∧ s'.env.resetReq = false ∧ step s = .next t ∧
      fteSteps s = true ∧ fteView s = fteView s' ∧ s ≠ s' :=
  ⟨noisy, { noisy with hic := { noisy.hic with eab := 1 } }, after (step noisy) noisy, rfl, rfl, rfl,
    rfl, rfl, by decide⟩

theorem witness_UnitsShareNoState_hic :
    ∃ s s' t : State, s.env.resetReq = false ∧ s'.env.resetReq = false ∧ step s = .next t ∧
      hicSteps s = true ∧ hicView s = hicView s' ∧ s ≠ s' :=
  ⟨serializing, { serializing with fte := { serializing.fte with err := .timeout } },
    after (step serializing) serializing, rfl, rfl, rfl, rfl, rfl, by decide⟩

theorem witness_OperationReturnsToTheHost_error :
    ∃ s : State, s.env.resetReq = false ∧ s.act = .ret .fte :=
  ⟨{ noisy with act := .ret .fte }, rfl, rfl⟩

theorem witness_OperationReturnsToTheHost_done :
    ∃ s : State, s.env.resetReq = false ∧ s.act = .receive ∧ s.fte.rxstate = .done :=
  ⟨rxAt .done 0 (some 0x14) (some 0) (some []) [], rfl, rfl, rfl⟩

theorem witness_OperationReturnsToTheHost_codec :
    ∃ s : State, s.env.resetReq = false ∧ s.act = .ret .hic :=
  ⟨{ badLine with act := .ret .hic }, rfl, rfl⟩

theorem witness_EveryStepKeepsTheImageCanonical :
    ∃ s t : State, s.hic.img.wf = true ∧ step s = .next t ∧ s.hic.img ≠ t.hic.img :=
  ⟨oneLine, after (step oneLine) oneLine, by decide, rfl, by decide⟩

theorem witness_EveryStepKeepsTheStateLegal :
    ∃ s t : State, Legal s ∧ step s = .next t ∧ s ≠ t :=
  ⟨noisy, after (step noisy) noisy, legal_rxAt_start 9 _ (by decide), rfl, by decide⟩

theorem witness_LegalMachineNeverStops : ∃ s : State, Legal s ∧ s.env.cmds ≠ [] :=
  ⟨serializing, legal_serializing, by decide⟩

theorem witness_EveryOperationEnds :
    ∃ s : State, Legal s ∧ s.env.resetReq = false ∧ s.act ≠ .idle :=
  ⟨noisy, legal_rxAt_start 9 _ (by decide), rfl, by decide⟩

end Sys2Proof.Tests
end

/-! # The two units share no state (O55)

R3 is proved as a commutation. Replacing in a state everything the unit at work does not own, and then running
one of its rules, gives what running the rule first and replacing afterwards gives. Replacing by any values
is the noninterference half of R3; replacing by the values the state already has is the frame half. -/

namespace Sys2Proof.Machine

/-! ## Rules that commute with a change of state -/

/-- Change the next state of an outcome; a fault or a refusal stands. -/
def mapNext (g : State → State) : Out → Out
  | .next s => .next (g s)
  | .fault r => .fault r
  | .refused r => .refused r

/-- Change the state an instruction is selected at, or the outcome that needs no instruction. -/
def Selected.map (g : State → State) : Selected → Selected
  | .run i s k => .run i (g s) k
  | .outcome o => .outcome (mapNext g o)

/-- The rule `f` does the same to a changed state as to the state itself. -/
def Commutes (g : State → State) (f : State → Out) : Prop := ∀ s, f (g s) = mapNext g (f s)

section
variable {g : State → State}

@[simp] theorem mapNext_next (s : State) : mapNext g (.next s) = .next (g s) := rfl

@[simp] theorem mapNext_fault (r : Fault) : mapNext g (.fault r) = .fault r := rfl

@[simp] theorem mapNext_refused (r : Refusal) : mapNext g (.refused r) = .refused r := rfl

@[simp] theorem mapNext_ite (c : Prop) [Decidable c] (a b : Out) :
    mapNext g (if c then a else b) = if c then mapNext g a else mapNext g b :=
  apply_ite (mapNext g) c a b

@[simp] theorem mapNext_need {α : Type} (r : Reg) (o : Option α) (k : α → Out) :
    mapNext g (need r o k) = need r o fun v => mapNext g (k v) := by
  cases o <;> rfl

@[simp] theorem mapNext_ifWellFormed (i : Instr) (k : Out) :
    mapNext g (ifWellFormed i k) = ifWellFormed i (mapNext g k) :=
  mapNext_ite ..

@[simp] theorem mapNext_ifIdle (s : State) (k : Out) :
    mapNext g (ifIdle s k) = ifIdle s (mapNext g k) :=
  mapNext_ite ..

theorem andThen_mapNext {k : State → Out} (hk : Commutes g k) (o : Out) :
    andThen (mapNext g o) k = mapNext g (andThen o k) := by
  cases o with
  | next t => exact hk t
  | fault r => rfl
  | refused r => rfl

end

/-! ## The unit of an instruction -/

/-- The unit whose rule an instruction is (R1). -/
def instrUnit : Instr → UnitName
  | .sendrecv _ _ _ | .frameTx _ _ _ | .rxStart | .rxSeq | .rxLen | .rxToken | .rxPayload | .rxCsum
  | .rxRestart _ _ _ | .rxStall _ _ => .fte
  | .hexdec _ _ | .recData _ _ | .recEof _ _ | .recEsa _ _ | .recEla _ _ | .recUnk _ _ _ | .hexenc _
  | .emitEla _ | .emitData _ _ | .emitEof => .hic

/-- The unit whose operation goes on; `plain` is any unit's. -/
def callerUnit : Resume → Option UnitName
  | .plain => none
  | .afterFrame => some .fte
  | .afterEla | .afterData | .afterEof => some .hic

/-- What a step has selected is an instruction of the unit `u`, called by an operation of `u`. -/
def Selected.within (u : UnitName) : Selected → Prop
  | .run i _ k => instrUnit i = u ∧ ∀ v ∈ callerUnit k, v = u
  | .outcome _ => True

/-- A unit's step commutes with a change of state when its selection, its instructions and its operations'
resumptions do. -/
theorem step_commutes {g : State → State} {u : UnitName} {s : State}
    (hexec : ∀ i : Instr, instrUnit i = u → Commutes g (exec i))
    (hresume : ∀ k : Resume, (∀ v ∈ callerUnit k, v = u) → Commutes g (resume k))
    (hunit : (fetch s).within u) (hfetch : fetch (g s) = (fetch s).map g) :
    step (g s) = mapNext g (step s) := by
  unfold step
  rw [hfetch]
  cases hsel : fetch s with
  | run i s1 k =>
    rw [hsel] at hunit
    obtain ⟨hi, hk⟩ := hunit
    show andThen (exec i (g s1)) (resume k) = mapNext g (andThen (exec i s1) (resume k))
    rw [hexec i hi s1, andThen_mapNext (hresume k hk)]
  | outcome o => rfl

theorem rxRule_instrUnit {st : RxState} {i : Instr} (h : rxRule st = some i) : instrUnit i = .fte := by
  cases st <;> cases h <;> rfl

theorem toInstr_instrUnit (r : Record) : instrUnit r.toInstr = .hic := by
  unfold Record.toInstr
  split_ifs <;> rfl

/-! ## SENDRECV and the codec -/

/-- The state `s` with the codec, its Image and the parameters of `o`. -/
def codecOf (o s : State) : State := { s with hic := o.hic, params := o.params }

/-- Two states with the same FTE view differ in what `codecOf` replaces. -/
theorem eq_codecOf_of_fteView {s s' : State} (h : fteView s = fteView s') : s' = codecOf s' s := by
  cases s; cases s'
  simp_all [fteView, codecOf]

section
variable (o : State)

@[simp] theorem codecOf_fte (s : State) : (codecOf o s).fte = s.fte := rfl

@[simp] theorem codecOf_act (s : State) : (codecOf o s).act = s.act := rfl

@[simp] theorem codecOf_env (s : State) : (codecOf o s).env = s.env := rfl

@[simp] theorem codecOf_withFte (s : State) (f : Fte) :
    codecOf o (s.withFte f) = (codecOf o s).withFte f := rfl

@[simp] theorem codecOf_withAct (s : State) (a : Activity) :
    codecOf o (s.withAct a) = (codecOf o s).withAct a := rfl

@[simp] theorem codecOf_withEnv (s : State) (e : Env) :
    codecOf o (s.withEnv e) = (codecOf o s).withEnv e := rfl

@[simp] theorem ifIdle_codecOf (s : State) (k : Out) : ifIdle (codecOf o s) k = ifIdle s k := rfl

theorem streamRead_codecOf (n : Nat) (s : State) :
    streamRead n (codecOf o s) = ((streamRead n s).1, codecOf o (streamRead n s).2) := rfl

theorem restart_commutes_codecOf (kind : EventKind) (b x : Byte) :
    Commutes (codecOf o) (restart kind b x) := by
  intro s
  simp [restart, raise]

theorem stall_commutes_codecOf (asked got : Nat) : Commutes (codecOf o) (stall asked got) := by
  intro s
  simp [stall, raise]

theorem execSendrecv_commutes_codecOf (q : Byte) (p : List Byte) (t : Nat) :
    Commutes (codecOf o) (execSendrecv q p t) := by
  intro s
  simp [execSendrecv, raise]

theorem execFrameTx_commutes_codecOf (q : Byte) (len : Half) (p : List Byte) :
    Commutes (codecOf o) (execFrameTx q len p) := by
  intro s
  simp [execFrameTx, streamWrite]

theorem execRxStart_commutes_codecOf : Commutes (codecOf o) execRxStart := by
  intro s
  unfold execRxStart
  rw [streamRead_codecOf]
  rcases streamRead 1 s with ⟨_ | ⟨b, _⟩, s1⟩
  · exact stall_commutes_codecOf o 1 0 s1
  · simp [restart_commutes_codecOf o _ _ _ s1]

theorem execRxSeq_commutes_codecOf : Commutes (codecOf o) execRxSeq := by
  intro s
  unfold execRxSeq
  rw [streamRead_codecOf]
  rcases streamRead 1 s with ⟨_ | ⟨b, _⟩, s1⟩
  · exact stall_commutes_codecOf o 1 0 s1
  · simp [restart_commutes_codecOf o _ _ _ s1]

theorem execRxLen_commutes_codecOf : Commutes (codecOf o) execRxLen := by
  intro s
  unfold execRxLen
  rw [streamRead_codecOf]
  rcases streamRead 2 s with ⟨_ | ⟨hi, _ | ⟨lo, _⟩⟩, s1⟩
  · exact stall_commutes_codecOf o 2 0 s1
  · exact stall_commutes_codecOf o 2 1 s1
  · simp

theorem execRxToken_commutes_codecOf : Commutes (codecOf o) execRxToken := by
  intro s
  unfold execRxToken
  rw [streamRead_codecOf]
  rcases streamRead 1 s with ⟨_ | ⟨b, _⟩, s1⟩
  · exact stall_commutes_codecOf o 1 0 s1
  · simp [restart_commutes_codecOf o _ _ _ s1]

theorem execRxPayload_commutes_codecOf : Commutes (codecOf o) execRxPayload := by
  intro s
  simp [execRxPayload, streamRead_codecOf, stall_commutes_codecOf o _ _ _]

theorem execRxCsum_commutes_codecOf : Commutes (codecOf o) execRxCsum := by
  intro s
  unfold execRxCsum
  rw [streamRead_codecOf]
  rcases streamRead 1 s with ⟨_ | ⟨b, _⟩, s1⟩
  · exact stall_commutes_codecOf o 1 0 s1
  · simp [restart_commutes_codecOf o _ _ _ s1]

theorem execRxRestart_commutes_codecOf (kind : EventKind) (b x : Byte) :
    Commutes (codecOf o) (execRxRestart kind b x) := by
  intro s
  simp [execRxRestart, restart_commutes_codecOf o _ _ _ s]

theorem execRxStall_commutes_codecOf (asked got : Nat) :
    Commutes (codecOf o) (execRxStall asked got) := by
  intro s
  simp [execRxStall, stall_commutes_codecOf o _ _ s]

/-- No rule of the FTE reads or writes HIC state (R3). -/
theorem exec_commutes_codecOf (i : Instr) (h : instrUnit i = .fte) : Commutes (codecOf o) (exec i) := by
  cases i with
  | sendrecv q p t => exact execSendrecv_commutes_codecOf o q p t
  | frameTx q len p => exact execFrameTx_commutes_codecOf o q len p
  | rxStart => exact execRxStart_commutes_codecOf o
  | rxSeq => exact execRxSeq_commutes_codecOf o
  | rxLen => exact execRxLen_commutes_codecOf o
  | rxToken => exact execRxToken_commutes_codecOf o
  | rxPayload => exact execRxPayload_commutes_codecOf o
  | rxCsum => exact execRxCsum_commutes_codecOf o
  | rxRestart kind b x => exact execRxRestart_commutes_codecOf o kind b x
  | rxStall asked got => exact execRxStall_commutes_codecOf o asked got
  | _ => cases h

theorem resume_commutes_codecOf (k : Resume) (h : ∀ v ∈ callerUnit k, v = .fte) :
    Commutes (codecOf o) (resume k) := by
  intro s
  cases k with
  | plain => rfl
  | afterFrame => simp [resume, startReceive]
  | _ => cases h .hic rfl

theorem nextFrame_codecOf (p : List Byte) (s : State) :
    (nextFrame p s).within .fte ∧ nextFrame p (codecOf o s) = (nextFrame p s).map (codecOf o) := by
  unfold nextFrame
  rw [codecOf_fte]
  cases s.fte.seq with
  | none => exact ⟨trivial, rfl⟩
  | some q =>
    cases s.fte.txlen with
    | none => exact ⟨trivial, rfl⟩
    | some len => exact ⟨⟨rfl, by simp [callerUnit]⟩, rfl⟩

theorem fetch_codecOf {s : State} (hr : s.env.resetReq = false) (h : fteSteps s = true) :
    (fetch s).within .fte ∧ fetch (codecOf o s) = (fetch s).map (codecOf o) := by
  cases ha : s.act with
  | idle =>
    rw [fetch_idle hr ha, fetch_idle (s := codecOf o s) hr ha]
    unfold nextCommand
    rw [codecOf_env]
    unfold fteSteps at h
    rw [ha] at h
    rcases hc : s.env.cmds with _ | ⟨_ | _ | _, _⟩
    case cons.sendrecv => exact ⟨⟨rfl, by simp [callerUnit]⟩, rfl⟩
    all_goals simp [hc, fteBusy] at h
  | transmit p =>
    rw [fetch_transmit hr ha, fetch_transmit (s := codecOf o s) hr ha]
    exact nextFrame_codecOf o p s
  | receive =>
    cases hi : rxRule s.fte.rxstate with
    | some i =>
      rw [fetch_receive hr ha hi, fetch_receive (s := codecOf o s) hr ha hi]
      exact ⟨⟨rxRule_instrUnit hi, by simp [callerUnit]⟩, rfl⟩
    | none =>
      rw [fetch_received hr ha hi, fetch_received (s := codecOf o s) hr ha hi]
      exact ⟨trivial, rfl⟩
  | ret u =>
    rw [fetch_ret hr ha, fetch_ret (s := codecOf o s) hr ha]
    cases u with
    | fte => exact ⟨trivial, rfl⟩
    | hic => simp [fteSteps, ha, fteBusy] at h
  | decode _ => simp [fteSteps, ha, fteBusy] at h
  | encode _ => simp [fteSteps, ha, fteBusy] at h

/-- A step of SENDRECV does the same whatever the codec holds. -/
theorem step_codecOf {s : State} (hr : s.env.resetReq = false) (h : fteSteps s = true) :
    step (codecOf o s) = mapNext (codecOf o) (step s) :=
  have ⟨hunit, hfetch⟩ := fetch_codecOf o hr h
  step_commutes (exec_commutes_codecOf o) (resume_commutes_codecOf o) hunit hfetch

end

/-! ## HEXDEC, HEXENC and the frame engine -/

/-- The state `s` with the frame engine, the stream and the reset event of `o`. -/
def engineOf (o s : State) : State :=
  { s with fte := o.fte, env := { o.env with cmds := s.env.cmds } }

/-- Two states with the same HIC view differ in what `engineOf` replaces. -/
theorem eq_engineOf_of_hicView {s s' : State} (h : hicView s = hicView s') : s' = engineOf s' s := by
  cases s; cases s'
  simp_all [hicView, engineOf]

section
variable (o : State)

@[simp] theorem engineOf_hic (s : State) : (engineOf o s).hic = s.hic := rfl

@[simp] theorem engineOf_act (s : State) : (engineOf o s).act = s.act := rfl

@[simp] theorem engineOf_params (s : State) : (engineOf o s).params = s.params := rfl

@[simp] theorem engineOf_cmds (s : State) : (engineOf o s).env.cmds = s.env.cmds := rfl

@[simp] theorem engineOf_withHic (s : State) (h : Hic) :
    engineOf o (s.withHic h) = (engineOf o s).withHic h := rfl

@[simp] theorem engineOf_withAct (s : State) (a : Activity) :
    engineOf o (s.withAct a) = (engineOf o s).withAct a := rfl

@[simp] theorem ifIdle_engineOf (s : State) (k : Out) : ifIdle (engineOf o s) k = ifIdle s k := rfl

@[simp] theorem latchRecord_engineOf (ty : Byte) (a : Half) (d : List Byte) (s : State) :
    latchRecord ty a d (engineOf o s) = engineOf o (latchRecord ty a d s) := rfl

theorem emit_commutes_engineOf (x : Text) : Commutes (engineOf o) (emit x) := by
  intro s
  simp [emit]

theorem raiseLine_commutes_engineOf (e : ErrCode) : Commutes (engineOf o) (raiseLine e) := by
  intro s
  simp [raiseLine, raise]

theorem storeRecord_commutes_engineOf (a n : Nat) (d : List Byte) :
    Commutes (engineOf o) (storeRecord a n d) := by
  intro s
  unfold storeRecord
  rw [engineOf_params, engineOf_hic]
  cases imgGrow s.params.imgCap (a + n) s.hic.img with
  | none => exact raiseLine_commutes_engineOf o _ s
  | some grown =>
    dsimp only
    cases memWrite a n d grown <;> rfl

@[simp] theorem mapNext_withRecordAddress (a : Half) (s : State) (k : Nat → Out) :
    mapNext (engineOf o) (withRecordAddress a s k) =
      withRecordAddress a (engineOf o s) fun n => mapNext (engineOf o) (k n) := by
  unfold withRecordAddress
  rw [engineOf_params, engineOf_hic]
  cases s.hic.offset with
  | none => exact mapNext_ite ..
  | some n => rfl

@[simp] theorem mapNext_withTwoBytes (s : State) (k : Byte → Byte → Out) :
    mapNext (engineOf o) (withTwoBytes s k) =
      withTwoBytes (engineOf o s) fun d0 d1 => mapNext (engineOf o) (k d0 d1) := by
  have hbad := (raiseLine_commutes_engineOf o .formatError s).symm
  unfold withTwoBytes
  rw [engineOf_hic]
  cases s.hic.bc with
  | none => rfl
  | some n =>
    cases s.hic.data with
    | none => rfl
    | some d =>
      rcases d with _ | ⟨d0, _ | ⟨d1, _ | _⟩⟩
      case cons.cons.nil => simp [hbad]
      all_goals exact hbad

theorem execHexdec_commutes_engineOf (x : Text) (n : Nat) :
    Commutes (engineOf o) (execHexdec x n) := by
  intro s
  simp [execHexdec]

theorem execHexenc_commutes_engineOf (ls : Nat) : Commutes (engineOf o) (execHexenc ls) := by
  intro s
  cases hd : encodeRefused ls s.hic.img.len <;> simp [execHexenc, raise, hd]

theorem execRecData_commutes_engineOf (a : Half) (d : List Byte) :
    Commutes (engineOf o) (execRecData a d) := by
  intro s
  simp [execRecData, storeRecord_commutes_engineOf o _ _ _ _]

theorem execRecEof_commutes_engineOf (a : Half) (d : List Byte) :
    Commutes (engineOf o) (execRecEof a d) := by
  intro s
  simp [execRecEof]

theorem execRecEsa_commutes_engineOf (a : Half) (d : List Byte) :
    Commutes (engineOf o) (execRecEsa a d) := by
  intro s
  simp [execRecEsa]

theorem execRecEla_commutes_engineOf (a : Half) (d : List Byte) :
    Commutes (engineOf o) (execRecEla a d) := by
  intro s
  simp [execRecEla]

theorem execRecUnk_commutes_engineOf (ty : Byte) (a : Half) (d : List Byte) :
    Commutes (engineOf o) (execRecUnk ty a d) := by
  intro s
  simp only [execRecUnk, mapNext_ifWellFormed, latchRecord_engineOf, engineOf_params]
  cases (latchRecord ty a d s).params.unknownPolicy with
  | ignore => rfl
  | reject => exact congrArg _ (raiseLine_commutes_engineOf o _ _)

theorem execEmitEla_commutes_engineOf (v : Half) : Commutes (engineOf o) (execEmitEla v) := by
  intro s
  simp only [execEmitEla, mapNext_ifWellFormed, emit_commutes_engineOf o _ s]

theorem execEmitData_commutes_engineOf (a : Half) (d : List Byte) :
    Commutes (engineOf o) (execEmitData a d) := by
  intro s
  simp only [execEmitData, mapNext_ifWellFormed, emit_commutes_engineOf o _ s]

/-- No rule of the HIC reads or writes FTE state (R3). -/
theorem exec_commutes_engineOf (i : Instr) (h : instrUnit i = .hic) : Commutes (engineOf o) (exec i) := by
  cases i with
  | hexdec x n => exact execHexdec_commutes_engineOf o x n
  | recData a d => exact execRecData_commutes_engineOf o a d
  | recEof a d => exact execRecEof_commutes_engineOf o a d
  | recEsa a d => exact execRecEsa_commutes_engineOf o a d
  | recEla a d => exact execRecEla_commutes_engineOf o a d
  | recUnk ty a d => exact execRecUnk_commutes_engineOf o ty a d
  | hexenc ls => exact execHexenc_commutes_engineOf o ls
  | emitEla v => exact execEmitEla_commutes_engineOf o v
  | emitData a d => exact execEmitData_commutes_engineOf o a d
  | emitEof => exact emit_commutes_engineOf o _
  | _ => cases h

theorem resume_commutes_engineOf (k : Resume) (h : ∀ v ∈ callerUnit k, v = .hic) :
    Commutes (engineOf o) (resume k) := by
  intro s
  cases k with
  | afterFrame => cases h .fte rfl
  | afterData => simp [resume]
  | _ => rfl

theorem nextPiece_engineOf (x : Text) (s : State) :
    (nextPiece x s).within .hic ∧ nextPiece x (engineOf o s) = (nextPiece x s).map (engineOf o) := by
  unfold nextPiece
  rw [engineOf_hic]
  cases s.hic.lineNo with
  | none => exact ⟨trivial, rfl⟩
  | some n =>
    by_cases hp : (cutLine x).1 = []
    · simp [needFor, hp, Selected.within, Selected.map]
    · cases hd : decodeLine (cutLine x).1 with
      | error e =>
        simp [needFor, hp, hd, Selected.within, Selected.map,
          ← raiseLine_commutes_engineOf o _ _]
      | ok r =>
        simp [needFor, hp, hd, Selected.within, Selected.map, toInstr_instrUnit, callerUnit]

theorem nextLine_engineOf (elaDone : Bool) (s : State) :
    (nextLine elaDone s).within .hic ∧
      nextLine elaDone (engineOf o s) = (nextLine elaDone s).map (engineOf o) := by
  unfold nextLine
  rw [engineOf_hic]
  cases s.hic.encA with
  | none => exact ⟨trivial, rfl⟩
  | some a =>
    cases s.hic.encLs with
    | none => exact ⟨trivial, rfl⟩
    | some ls =>
      dsimp only [needFor]
      cases memRead a (encodeCount ls a s.hic.img.len) s.hic.img <;>
        split_ifs <;> simp [Selected.within, Selected.map, instrUnit, callerUnit]

theorem fetch_engineOf {s : State} (hr : s.env.resetReq = false) (hr' : o.env.resetReq = false)
    (h : hicSteps s = true) :
    (fetch s).within .hic ∧ fetch (engineOf o s) = (fetch s).map (engineOf o) := by
  cases ha : s.act with
  | idle =>
    rw [fetch_idle hr ha, fetch_idle (s := engineOf o s) hr' ha]
    unfold nextCommand
    rw [engineOf_cmds]
    unfold hicSteps at h
    rw [ha] at h
    rcases hc : s.env.cmds with _ | ⟨_ | _ | _, _⟩
    case nil => simp [hc, hicBusy] at h
    case cons.sendrecv => simp [hc, hicBusy] at h
    all_goals exact ⟨⟨rfl, by simp [callerUnit]⟩, rfl⟩
  | decode rest =>
    cases rest with
    | none =>
      rw [fetch_decoded hr ha, fetch_decoded (s := engineOf o s) hr' ha]
      exact ⟨trivial, rfl⟩
    | some x =>
      rw [fetch_decode hr ha, fetch_decode (s := engineOf o s) hr' ha]
      exact nextPiece_engineOf o x s
  | encode elaDone =>
    rw [fetch_encode hr ha, fetch_encode (s := engineOf o s) hr' ha]
    exact nextLine_engineOf o elaDone s
  | ret u =>
    rw [fetch_ret hr ha, fetch_ret (s := engineOf o s) hr' ha]
    cases u with
    | fte => simp [hicSteps, ha, hicBusy] at h
    | hic => exact ⟨trivial, rfl⟩
  | transmit _ => simp [hicSteps, ha, hicBusy] at h
  | receive => simp [hicSteps, ha, hicBusy] at h

/-- A step of HEXDEC or HEXENC does the same whatever the frame engine and the stream hold. -/
theorem step_engineOf {s : State} (hr : s.env.resetReq = false) (hr' : o.env.resetReq = false)
    (h : hicSteps s = true) :
    step (engineOf o s) = mapNext (engineOf o) (step s) :=
  have ⟨hunit, hfetch⟩ := fetch_engineOf o hr hr' h
  step_commutes (exec_commutes_engineOf o) (resume_commutes_engineOf o) hunit hfetch

end

/-! ## The frame of a step -/

/-- What commutes with replacing what the state already has keeps it. -/
theorem next_fixed {g : State → State} {f : State → Out} {s t : State} (hs : g s = s)
    (hf : f (g s) = mapNext g (f s)) (ht : f s = .next t) : g t = t := by
  rw [hs, ht] at hf
  exact (Host.Outcome.next.inj hf).symm

/-! ## The parameters

The HIC reads the parameters, so that it leaves them unchanged is no case of the commutation. -/

section
variable {s t : State}

theorem raiseLine_params {e : ErrCode} (h : raiseLine e s = .next t) : t.params = s.params := by
  obtain ⟨n, l, -, -, rfl⟩ := raiseLine_next.1 h
  rfl

theorem emit_params {x : Text} (h : emit x s = .next t) : t.params = s.params := by
  obtain ⟨out, -, rfl⟩ := emit_next.1 h
  rfl

theorem storeRecord_params {a n : Nat} {d : List Byte} (h : storeRecord a n d s = .next t) :
    t.params = s.params := by
  rcases storeRecord_next.1 h with ⟨g, m, -, -, rfl⟩ | ⟨-, hraise⟩
  · rfl
  · exact raiseLine_params hraise

@[simp] theorem latchRecord_params (ty : Byte) (a : Half) (d : List Byte) :
    (latchRecord ty a d s).params = s.params := rfl

/-- With its address, a data record goes on (R75). -/
theorem withRecordAddress_next {a : Half} {k : Nat → Out}
    (h : withRecordAddress a s k = .next t) : ∃ n, k n = .next t := by
  unfold withRecordAddress at h
  split at h
  · exact ⟨_, h⟩
  · split at h
    · cases h
    · exact ⟨_, h⟩

/-- A type-2 or type-4 record goes on with its two bytes, or raises `FormatError` (R194, R196). -/
theorem withTwoBytes_next {k : Byte → Byte → Out} (h : withTwoBytes s k = .next t) :
    (∃ d0 d1, k d0 d1 = .next t) ∨ raiseLine .formatError s = .next t := by
  simp only [withTwoBytes, need_next] at h
  obtain ⟨n, -, d, -, h⟩ := h
  split at h
  · split at h
    · exact .inl ⟨_, _, h⟩
    · exact .inr h
  · exact .inr h

theorem execRecData_params {a : Half} {d : List Byte} (h : execRecData a d s = .next t) :
    t.params = s.params := by
  simp only [execRecData, ifWellFormed_next, need_next] at h
  obtain ⟨-, a', -, n, -, d', -, h⟩ := h
  obtain ⟨abs, h⟩ := withRecordAddress_next h
  simpa using storeRecord_params h

theorem execRecEsa_params {a : Half} {d : List Byte} (h : execRecEsa a d s = .next t) :
    t.params = s.params := by
  rcases withTwoBytes_next (ifWellFormed_next.1 h).2 with ⟨d0, d1, h⟩ | h
  · obtain ⟨off, -, h⟩ := need_next.1 h
    cases h
    rfl
  · simpa using raiseLine_params h

theorem execRecEla_params {a : Half} {d : List Byte} (h : execRecEla a d s = .next t) :
    t.params = s.params := by
  rcases withTwoBytes_next (ifWellFormed_next.1 h).2 with ⟨d0, d1, h⟩ | h
  · cases h
    rfl
  · simpa using raiseLine_params h

theorem execRecUnk_params {ty : Byte} {a : Half} {d : List Byte}
    (h : execRecUnk ty a d s = .next t) : t.params = s.params := by
  obtain ⟨-, h⟩ := ifWellFormed_next.1 h
  dsimp only at h
  split at h
  · cases h
    rfl
  · simpa using raiseLine_params h

theorem execHexenc_params {ls : Nat} (h : execHexenc ls s = .next t) : t.params = s.params := by
  obtain ⟨-, h⟩ := ifIdle_next.1 h
  dsimp only at h
  split at h <;> cases h <;> rfl

/-- No instruction changes the parameters (R9). -/
theorem exec_params {i : Instr} (h : exec i s = .next t) : t.params = s.params := by
  cases hu : instrUnit i with
  | fte =>
    have hfix : codecOf s t = t := next_fixed rfl (exec_commutes_codecOf s i hu s) h
    exact (congrArg State.params hfix).symm
  | hic =>
    cases i with
    | hexdec x n => cases (ifIdle_next.1 h).2; rfl
    | recData a d => exact execRecData_params h
    | recEof a d => cases (ifWellFormed_next.1 h).2; rfl
    | recEsa a d => exact execRecEsa_params h
    | recEla a d => exact execRecEla_params h
    | recUnk ty a d => exact execRecUnk_params h
    | hexenc ls => exact execHexenc_params h
    | emitEla v => exact emit_params (ifWellFormed_next.1 h).2
    | emitData a d => exact emit_params (ifWellFormed_next.1 h).2
    | emitEof => exact emit_params h
    | _ => cases hu

theorem resume_params {k : Resume} (h : resume k s = .next t) : t.params = s.params := by
  cases k with
  | afterFrame => obtain ⟨x, -, rfl⟩ := startReceive_next.1 h; rfl
  | afterData =>
    obtain ⟨a, -, h⟩ := need_next.1 h
    obtain ⟨ls, -, h⟩ := need_next.1 h
    cases h
    rfl
  | _ => cases h; rfl

end

/-- What a step has selected keeps the parameters at `p`. -/
def Selected.keepsParams (p : Params) : Selected → Prop
  | .run _ s _ => s.params = p
  | .outcome o => ∀ t, o = .next t → t.params = p

theorem needFor_keepsParams {α : Type} {r : Reg} {o : Option α} {k : α → Selected} {p : Params}
    (h : ∀ v, (k v).keepsParams p) : (needFor r o k).keepsParams p := by
  cases o with
  | none => exact fun t ht => by cases ht
  | some v => exact h v

theorem nextPiece_keepsParams (x : Text) (s : State) : (nextPiece x s).keepsParams s.params := by
  refine needFor_keepsParams fun n => ?_
  dsimp only
  split_ifs
  · rintro t ⟨⟩
    rfl
  · cases decodeLine (cutLine x).1 with
    | error e => exact fun t ht => by simpa using raiseLine_params ht
    | ok r => rfl

theorem nextLine_keepsParams (elaDone : Bool) (s : State) :
    (nextLine elaDone s).keepsParams s.params := by
  refine needFor_keepsParams fun a => needFor_keepsParams fun ls => ?_
  split_ifs
  · rfl
  · cases memRead a (encodeCount ls a s.hic.img.len) s.hic.img with
    | none => exact fun t ht => by cases ht
    | some d => rfl
  · rfl

theorem nextFrame_keepsParams (x : List Byte) (s : State) :
    (nextFrame x s).keepsParams s.params :=
  needFor_keepsParams fun _ => needFor_keepsParams fun _ => rfl

theorem nextCommand_keepsParams (s : State) : (nextCommand s).keepsParams s.params := by
  unfold nextCommand
  split
  · rintro t ⟨⟩
    rfl
  · rfl

theorem finish_params (u : UnitName) (s : State) : (finish u s).params = s.params := by
  cases u <;> rfl

theorem finish_keepsParams (u : UnitName) (s : State) :
    (Selected.outcome (.next (finish u s))).keepsParams s.params := by
  rintro t ⟨⟩
  exact finish_params u s

theorem fetch_keepsParams (s : State) : (fetch s).keepsParams s.params := by
  cases hr : s.env.resetReq with
  | true =>
    rw [fetch_reset hr]
    rintro t ⟨⟩
    rfl
  | false =>
    cases ha : s.act with
    | idle => exact fetch_idle hr ha ▸ nextCommand_keepsParams s
    | transmit x => exact fetch_transmit hr ha ▸ nextFrame_keepsParams x s
    | receive =>
      cases hi : rxRule s.fte.rxstate with
      | some i => rw [fetch_receive hr ha hi]; rfl
      | none => exact fetch_received hr ha hi ▸ finish_keepsParams .fte s
    | decode rest =>
      cases rest with
      | none => exact fetch_decoded hr ha ▸ finish_keepsParams .hic s
      | some x => exact fetch_decode hr ha ▸ nextPiece_keepsParams x s
    | encode elaDone => exact fetch_encode hr ha ▸ nextLine_keepsParams elaDone s
    | ret u => exact fetch_ret hr ha ▸ finish_keepsParams u s

/-- No step changes the parameters, not even a reset (R9, R282). -/
theorem step_params {s t : State} (h : step s = .next t) : t.params = s.params := by
  have hfetch := fetch_keepsParams s
  rcases step_next.1 h with hout | ⟨i, s1, s2, k, hrun, hexec, hresume⟩
  · rw [hout] at hfetch
    exact hfetch t rfl
  · rw [hrun] at hfetch
    calc t.params = s2.params := resume_params hresume
      _ = s1.params := exec_params hexec
      _ = s.params := hfetch

/-! ## The statement -/

/-- Settles O55: both units' steps commute with replacing what the other unit owns. -/
theorem unitsShareNoState : Obligations.UnitsShareNoState := by
  unfold Obligations.UnitsShareNoState
  intro s s' t hr hr' ht
  have hparams := step_params ht
  constructor
  · intro h
    have hfix : codecOf s t = t := next_fixed rfl (step_codecOf s hr h) ht
    refine ⟨(congrArg State.hic hfix).symm, hparams, fun hview => ⟨codecOf s' t, ?_, rfl⟩⟩
    rw [eq_codecOf_of_fteView hview, step_codecOf s' hr h, ht]
    rfl
  · intro h
    have hfix : engineOf s t = t := next_fixed rfl (step_engineOf s hr hr h) ht
    refine ⟨(congrArg State.fte hfix).symm, (congrArg (·.env.rx) hfix).symm,
      (congrArg (·.env.tx) hfix).symm, (congrArg (·.env.streamTmo) hfix).symm,
      hparams, fun hview => ⟨engineOf s' t, ?_, rfl⟩⟩
    rw [eq_engineOf_of_hicView hview, step_engineOf s' hr hr' h, ht]
    rfl

end Sys2Proof.Machine

/-! # The frame encoder (O9, O10)

The checksum of a frame is the model's `xorBytes` of the bytes before it. The statements give it as a left
fold, so the one bridge is that this fold from 0 is `xorBytes`. -/

namespace Sys2Proof

/-- The left fold of R12's `xor(s)` is the model's recursion, from any start value. -/
theorem foldl_xor_eq_xorBytes (s : List Byte) (x : Byte) :
    s.foldl (· ^^^ ·) x = x ^^^ xorBytes s := by
  induction s generalizing x with
  | nil => simp
  | cons b s ih => rw [List.foldl_cons, ih, xorBytes_cons, BitVec.xor_assoc]

theorem foldl_xor_zero (s : List Byte) : s.foldl (· ^^^ ·) 0 = xorBytes s := by
  rw [foldl_xor_eq_xorBytes]
  exact BitVec.zero_xor

/-- Appending its XOR to a sequence makes the whole XOR 0 (R93, R132). -/
theorem xorBytes_append_checksum (s : List Byte) : xorBytes (s ++ [xorBytes s]) = 0 := by
  simp [xorBytes_append]

/-- A 16-bit field is the big-endian pair of the two bytes that have its value. -/
theorem eq_be16_of_toNat {len : Half} {hi lo : Byte}
    (h : len.toNat = hi.toNat * 256 + lo.toNat) : len = be16 hi lo :=
  BitVec.eq_of_toNat_eq (h.trans (be16_toNat hi lo).symm)

/-- R92's header, its length field given by its two bytes. -/
theorem frameHeader_be16 (seq hi lo : Byte) :
    frameHeader seq (be16 hi lo) = [0x1B, seq, hi, lo, 0x0E] := by
  simp [frameHeader, Config.START, Config.TOKEN]

theorem frameBytes_eq (seq : Byte) (len : Half) (payload : List Byte) :
    frameBytes seq len payload =
      frameHeader seq len ++ payload ++ [xorBytes (frameHeader seq len ++ payload)] := rfl

/-- A frame is valid in R93's sense: all its bytes, the checksum included, XOR to 0. -/
theorem xorBytes_frameBytes (seq : Byte) (len : Half) (payload : List Byte) :
    xorBytes (frameBytes seq len payload) = 0 := by
  rw [frameBytes_eq, xorBytes_append_checksum]

end Sys2Proof

namespace Sys2Proof.Machine

/-- FRAME.TX with a length that counts the payload is one write of the whole frame (R131). -/
theorem exec_frameTx {len : Half} {payload : List Byte} (h : payload.length = len.toNat)
    (seq : Byte) (s : State) :
    exec (.frameTx seq len payload) s = .next (streamWrite (frameBytes seq len payload) s) :=
  ifWellFormed_next.2 ⟨decide_eq_true h, rfl⟩

/-- Settles O10: the trailing byte is the XOR of the body before it, so the whole frame XORs to 0. -/
theorem frameChecksumIsTheXorOfTheRest : Obligations.FrameChecksumIsTheXorOfTheRest := by
  unfold Obligations.FrameChecksumIsTheXorOfTheRest
  intro seq payload len _
  constructor
  · rw [foldl_xor_zero, xorBytes_frameBytes]
  · exact ⟨_, _, frameBytes_eq seq len payload, (foldl_xor_zero _).symm⟩

/-- Settles O9: the one write of FRAME.TX, with the frame's header spelled out. -/
theorem frameTxWritesOneFrame : Obligations.FrameTxWritesOneFrame := by
  unfold Obligations.FrameTxWritesOneFrame
  intro s seq hi lo len payload hpayload hlen
  obtain rfl := eq_be16_of_toNat hlen
  refine ⟨xorBytes ([0x1B, seq, hi, lo, 0x0E] ++ payload), ?_, (foldl_xor_zero _).symm⟩
  rw [exec_frameTx hpayload, frameBytes_eq, frameHeader_be16]
  rfl

end Sys2Proof.Machine

/-! # The rows of the receive machine (O17, O19, O21 to O23)

A row that reads one byte has three cases, by what the stream does next. The stream lemmas say which bytes a
read returns; that such a row is an RX.STALL when none comes is one argument for all of them. -/

namespace Sys2Proof.Machine

/-! ## What one read returns -/

section
variable {s : State} {q : List RxItem}

theorem streamRead_one {b : Byte} (h : s.env.rx = .byte b :: q) :
    streamRead 1 s = ([b], s.withEnv { s.env with rx := q }) := by
  simp [streamRead, takeBytes, h]

/-- A timeout that comes first ends the read with no byte, and is consumed (R42). -/
theorem streamRead_stall (n : Nat) (h : s.env.rx = .stall :: q) :
    streamRead (n + 1) s = ([], s.withEnv { s.env with rx := q }) := by
  simp [streamRead, takeBytes, h]

/-- A read from a dry stream returns no byte and changes nothing (R42). -/
theorem streamRead_dry (n : Nat) (h : s.env.rx = []) : streamRead (n + 1) s = ([], s) := by
  obtain ⟨_, _, _, ⟨rx, _, _, _, _⟩, _⟩ := s
  obtain rfl : rx = [] := h
  rfl

end

/-! ## RX.RESTART and RX.STALL -/

theorem exec_rxRestart {kind : EventKind} (h : kind ≠ .shortRead) (actual expected : Byte) (s : State) :
    exec (.rxRestart kind actual expected) s = restart kind actual expected s :=
  if_pos (decide_eq_true h)

theorem exec_rxStall {asked got : Nat} (hgot : got < asked) (hasked : asked ≤ Config.MAX_PAYLOAD)
    (s : State) : exec (.rxStall asked got) s = stall asked got s :=
  if_pos (by simp [Instr.wellFormed, hgot, hasked])

/-- Settles O22: the two ways of `restart_next`, told apart by `MAX_RETRY`. -/
theorem rxRestartForgivesTenMismatches : Obligations.RxRestartForgivesTenMismatches := by
  unfold Obligations.RxRestartForgivesTenMismatches
  intro s kind actual expected r hkind hretry
  rw [exec_rxRestart hkind]
  constructor
  · intro hr
    exact restart_next.2 ⟨r, hretry, .inl ⟨hr, rfl⟩⟩
  · intro hr
    exact restart_next.2 ⟨r, hretry, .inr ⟨Nat.lt_succ_of_le hr, rfl⟩⟩

/-- Settles O23: the one way of `stall_next`. -/
theorem rxStallIsATimeout : Obligations.RxStallIsATimeout := by
  unfold Obligations.RxStallIsATimeout
  intro s asked got r hgot hasked hretry
  rw [exec_rxStall hgot hasked]
  exact stall_next.2 ⟨r, hretry, rfl⟩

/-! ## The rows that read one byte -/

/-- The rows whose firing is a read of one byte (R151, R152, R154, R156). -/
def readsOneByte : Instr → Bool
  | .rxStart | .rxSeq | .rxToken | .rxCsum => true
  | _ => false

/-- A one-byte row whose read returns nothing is an RX.STALL (R158), whatever byte it waits for. -/
theorem exec_of_read_nothing {i : Instr} (hi : readsOneByte i = true) {s t : State}
    (h : streamRead 1 s = ([], t)) : exec i s = exec (.rxStall 1 0) t := by
  rw [exec_rxStall (by decide) (by decide)]
  cases i with
  | rxStart => simp [exec, execRxStart, h]
  | rxSeq => simp [exec, execRxSeq, h]
  | rxToken => simp [exec, execRxToken, h]
  | rxCsum => simp [exec, execRxCsum, h]
  | _ => cases hi

theorem exec_of_stall {i : Instr} (hi : readsOneByte i = true) {s : State} {q : List RxItem}
    (h : s.env.rx = .stall :: q) :
    exec i s = exec (.rxStall 1 0) (s.withEnv { s.env with rx := q }) :=
  exec_of_read_nothing hi (streamRead_stall 0 h)

theorem exec_of_dry {i : Instr} (hi : readsOneByte i = true) {s : State} (h : s.env.rx = []) :
    exec i s = exec (.rxStall 1 0) s :=
  exec_of_read_nothing hi (streamRead_dry 0 h)

/-- Settles O17, by what the stream does next. -/
theorem rxSeqAcceptsTheSequenceByte : Obligations.RxSeqAcceptsTheSequenceByte := by
  unfold Obligations.RxSeqAcceptsTheSequenceByte
  intro s q c x hseq hxacc
  refine ⟨fun h => ?accepted, fun b hb h => ?mismatch, exec_of_stall rfl, exec_of_dry rfl⟩
  case accepted =>
    simp [exec, execRxSeq, streamRead_one h, hseq, hxacc, State.withFte, State.withEnv]
  case mismatch =>
    rw [exec_rxRestart (by decide)]
    simp [exec, execRxSeq, streamRead_one h, hseq, hb, State.withEnv]

/-- Settles O19, by what the stream does next. -/
theorem rxTokenAcceptsTheToken : Obligations.RxTokenAcceptsTheToken := by
  unfold Obligations.RxTokenAcceptsTheToken
  intro s q x hxacc
  refine ⟨fun h => ?accepted, fun b hb h => ?mismatch, exec_of_stall rfl, exec_of_dry rfl⟩
  case accepted =>
    simp [exec, execRxToken, streamRead_one h, hxacc, State.withFte, State.withEnv]
  case mismatch =>
    rw [exec_rxRestart (by decide)]
    simp only [exec, execRxToken, streamRead_one h, if_neg hb]
    rfl

/-- Settles O21, by what the stream does next. -/
theorem rxCsumAcceptsTheChecksum : Obligations.RxCsumAcceptsTheChecksum := by
  unfold Obligations.RxCsumAcceptsTheChecksum
  intro s q x p hxacc hpay
  refine ⟨fun h => ?accepted, fun b hb h => ?mismatch, exec_of_stall rfl, exec_of_dry rfl⟩
  case accepted =>
    simp [exec, execRxCsum, streamRead_one h, hxacc, hpay, State.withFte, State.withEnv]
  case mismatch =>
    rw [exec_rxRestart (by decide)]
    simp [exec, execRxCsum, streamRead_one h, hxacc, hb, State.withEnv]

end Sys2Proof.Machine

/-! # Rejected HEX lines (O36, O38)

`decodeLine` reads a line through its digits and the bytes they pair to; the statements speak of the byte
at a character offset, `lineByte`. The bridge is `lineBytes_eq_map_range`: the paired bytes are those at the odd
offsets. What a rejection does to the state is one rule, whatever test failed. -/

namespace Sys2Proof.Machine

/-! ## The digits of a line -/

/-- The value of a hex digit, 0 for any other character, as `lineDigit` reads one. -/
def digitValue (c : Byte) : Nat := (hexval c).getD 0

theorem digitValue_lt (c : Byte) : digitValue c < 16 := by
  unfold digitValue
  cases h : hexval c with
  | none => decide
  | some v => exact hexval_lt h

theorem nibbles_of_isHex {t : Text} (h : ∀ c ∈ t, (hexval c).isSome = true) :
    nibbles t = some (t.map digitValue) := by
  induction t with
  | nil => rfl
  | cons c t ih =>
    obtain ⟨hc, ht⟩ := List.forall_mem_cons.1 h
    obtain ⟨v, hv⟩ := Option.isSome_iff_exists.1 hc
    simp [nibbles, digitValue, hv, ih ht]

theorem nibbles_of_notHex {t : Text} (h : ∃ c ∈ t, hexval c = none) : nibbles t = none := by
  induction t with
  | nil => simp at h
  | cons c t ih =>
    obtain ⟨d, hd, hnone⟩ := h
    rcases List.mem_cons.1 hd with rfl | ht
    · simp [nibbles, hnone]
    · simp [nibbles, ih ⟨d, ht, hnone⟩]

/-! ## The bytes of a line -/

/-- The bytes that a line's digits pair to, from `BC` to the checksum (R101). -/
def lineBytes (digits : Text) : List Byte := pairBytes (digits.map digitValue)

theorem lineBytes_length (digits : Text) : (lineBytes digits).length = digits.length / 2 := by
  rw [lineBytes, pairBytes_length, List.length_map]

theorem lineByte_cons_cons (a b : Byte) (t : Text) (i : Nat) :
    lineByte (a :: b :: t) (i + 2) = lineByte t i := rfl

theorem lineByte_lt (line : Text) (i : Nat) : lineByte line i < 256 := by
  have hi : lineDigit line i < 16 := digitValue_lt _
  have hi' : lineDigit line (i + 1) < 16 := digitValue_lt _
  unfold lineByte
  omega

/-- The paired bytes are those at the odd offsets of the line, whatever stands in the marker's place. -/
theorem lineBytes_eq_map_range (mark : Byte) : ∀ digits : Text,
    lineBytes digits =
      (List.range (digits.length / 2)).map fun i =>
        BitVec.ofNat 8 (lineByte (mark :: digits) (1 + 2 * i))
  | [] => rfl
  | [_] => by simp [lineBytes, pairBytes]
  | a :: b :: t => by
    have hlen : (a :: b :: t).length / 2 = t.length / 2 + 1 := by
      simp only [List.length_cons]
      omega
    have hshift : ∀ i, lineByte (mark :: a :: b :: t) (1 + 2 * (i + 1)) =
        lineByte (b :: t) (1 + 2 * i) := fun i => lineByte_cons_cons mark a (b :: t) (1 + 2 * i)
    have ih := lineBytes_eq_map_range b t
    rw [hlen, List.range_succ_eq_map, List.map_cons, List.map_map]
    simp only [Function.comp_def, Nat.succ_eq_add_one, hshift, ← ih]
    rfl

theorem sumBytes_map_ofNat {f : Nat → Nat} (hf : ∀ i, f i < 256) (is : List Nat) :
    sumBytes (is.map fun i => BitVec.ofNat 8 (f i)) = (is.map f).sum := by
  induction is with
  | nil => rfl
  | cons i is ih =>
    have := hf i
    simp only [List.map_cons, sumBytes_cons, List.sum_cons, ih, BitVec.toNat_ofNat]
    omega

theorem sumBytes_lineBytes (mark : Byte) (digits : Text) :
    sumBytes (lineBytes digits) =
      ((List.range (digits.length / 2)).map fun i => lineByte (mark :: digits) (1 + 2 * i)).sum := by
  rw [lineBytes_eq_map_range mark]
  exact sumBytes_map_ofNat (fun i => lineByte_lt (mark :: digits) (1 + 2 * i)) _

/-- The first byte of a line is its byte count. -/
theorem lineBytes_head (mark : Byte) {digits : Text} {bc : Byte} {rest : List Byte}
    (h : lineBytes digits = bc :: rest) :
    bc = BitVec.ofNat 8 (lineByte (mark :: digits) 1) ∧ bc.toNat = lineByte (mark :: digits) 1 := by
  have hlen := lineBytes_length digits
  rw [h, List.length_cons] at hlen
  rw [lineBytes_eq_map_range mark, ← hlen, List.range_succ_eq_map] at h
  obtain rfl := (List.cons.inj h).1
  exact ⟨rfl, Nat.mod_eq_of_lt (lineByte_lt (mark :: digits) 1)⟩

/-! ## The record of a line -/

/-- The record whose fields are the bytes of a line (R101). -/
def recordOf (bc ah al ty : Byte) (rest : List Byte) : Record :=
  { rtype := ty, addr := be16 ah al, data := rest.take bc.toNat, csum := rest.getD bc.toNat 0 }

/-- With as many data bytes as the byte count says, the sum the decoder tests is that of the line's bytes. -/
theorem lineSum_recordOf {bc ah al ty : Byte} {rest : List Byte} (h : rest.length = bc.toNat + 1) :
    lineSum (recordOf bc ah al ty rest) = sumBytes (bc :: ah :: al :: ty :: rest) := by
  have hsplit : rest.take bc.toNat ++ [rest.getD bc.toNat 0] = rest := by
    rw [List.getD_eq_getElem rest 0 (by omega), List.take_append_getElem, ← h, List.take_length]
  have hbytes : recordBytes ty (be16 ah al) (rest.take bc.toNat) =
      bc :: ah :: al :: ty :: rest.take bc.toNat := by
    rw [recordBytes, List.length_take_of_le (by omega), BitVec.ofNat_toNat, BitVec.setWidth_eq,
      hiByte_be16, loByte_be16]
  calc lineSum (recordOf bc ah al ty rest)
      = sumBytes (bc :: ah :: al :: ty :: (rest.take bc.toNat ++ [rest.getD bc.toNat 0])) := by
        simp [lineSum, recordOf, hbytes, sumBytes_append, Nat.add_assoc]
    _ = sumBytes (bc :: ah :: al :: ty :: rest) := by rw [hsplit]

/-! ## The tests of a line, in the order of R186 -/

/-- The rejections that end in a FormatError and latch nothing: marker, least length, digits (R183, R184). -/
theorem decodeLine_malformed {line : Text}
    (h : line.head? ≠ some 0x3A ∨ line.length < 11 ∨ ∃ c ∈ line.tail, hexval c = none) :
    decodeLine line = .error .noMarker ∨ decodeLine line = .error .tooShort ∨
      decodeLine line = .error .notHex := by
  match line with
  | [] => exact .inl rfl
  | mark :: digits =>
    by_cases hmark : mark = Config.LINE_MARK
    · subst hmark
      by_cases hlen : (Config.LINE_MARK :: digits).length < 11
      · exact .inr (.inl (by simp only [decodeLine, hlen, ne_eq, not_true, if_true, if_false]))
      · have hhex : ∃ c ∈ digits, hexval c = none :=
          (h.resolve_left fun hhead => hhead rfl).resolve_left hlen
        exact .inr (.inr (by
          simp only [decodeLine, hlen, nibbles_of_notHex hhex, ne_eq, not_true, if_false]))
    · exact .inl (if_pos hmark)

/-- A marked line of hex digits that is long enough is tested for its length and then for its sum. -/
theorem decodeLine_hexDigits {digits : Text} (hlen : 10 ≤ digits.length)
    (hhex : ∀ c ∈ digits, (hexval c).isSome = true) :
    ∃ bc ah al ty rest, lineBytes digits = bc :: ah :: al :: ty :: rest ∧
      decodeLine (0x3A :: digits) =
        if digits.length ≠ 10 + 2 * bc.toNat then .error (.wrongLength bc)
        else if lineSum (recordOf bc ah al ty rest) % 256 ≠ 0 then
          .error (.badChecksum (recordOf bc ah al ty rest))
        else .ok (recordOf bc ah al ty rest) := by
  have hbytes := lineBytes_length digits
  match hb : lineBytes digits with
  | bc :: ah :: al :: ty :: rest =>
    refine ⟨bc, ah, al, ty, rest, rfl, ?_⟩
    have hshort : ¬ (0x3A :: digits).length < 11 := by simp only [List.length_cons]; omega
    have hcount : (0x3A :: digits).length ≠ 11 + 2 * bc.toNat ↔
        digits.length ≠ 10 + 2 * bc.toNat := by simp only [List.length_cons]; omega
    rw [lineBytes] at hb
    simp only [decodeLine, ne_eq, not_true, if_false, hshort, nibbles_of_isHex hhex, hb]
    exact if_congr hcount rfl rfl
  | [] | [_] | [_, _] | [_, _, _] =>
    rw [hb] at hbytes
    simp only [List.length_cons, List.length_nil] at hbytes
    omega

theorem decodeLine_wrongLength {digits : Text} (hlen : 10 ≤ digits.length)
    (hhex : ∀ c ∈ digits, (hexval c).isSome = true)
    (hcount : digits.length ≠ 10 + 2 * lineByte (0x3A :: digits) 1) :
    decodeLine (0x3A :: digits) =
      .error (.wrongLength (BitVec.ofNat 8 (lineByte (0x3A :: digits) 1))) := by
  obtain ⟨bc, ah, al, ty, rest, hbytes, hdecode⟩ := decodeLine_hexDigits hlen hhex
  obtain ⟨hbc, hbcNat⟩ := lineBytes_head 0x3A hbytes
  rw [hdecode, if_pos (by rwa [hbcNat]), hbc]

theorem decodeLine_badChecksum {digits : Text} (hhex : ∀ c ∈ digits, (hexval c).isSome = true)
    (hcount : digits.length = 10 + 2 * lineByte (0x3A :: digits) 1)
    (hsum : ((List.range (lineByte (0x3A :: digits) 1 + 5)).map
      fun i => lineByte (0x3A :: digits) (1 + 2 * i)).sum % 256 ≠ 0) :
    ∃ r, decodeLine (0x3A :: digits) = .error (.badChecksum r) := by
  obtain ⟨bc, ah, al, ty, rest, hbytes, hdecode⟩ := decodeLine_hexDigits (by omega) hhex
  obtain ⟨-, hbcNat⟩ := lineBytes_head 0x3A hbytes
  have hhalf : digits.length / 2 = lineByte (0x3A :: digits) 1 + 5 := by omega
  have hrest : rest.length = bc.toNat + 1 := by
    have := lineBytes_length digits
    simp only [hbytes, List.length_cons] at this
    omega
  have hlineSum : lineSum (recordOf bc ah al ty rest) % 256 ≠ 0 := by
    rwa [lineSum_recordOf hrest, ← hbytes, sumBytes_lineBytes 0x3A, hhalf]
  exact ⟨_, by rw [hdecode, if_neg (by omega), if_pos hlineSum]⟩

/-! ## The step that rejects a line -/

/-- A non-empty piece that fails a test ends HEXDEC at that line with the error of the test: the line and its
number are latched, and with them what R184 and R185 had extracted (R250). -/
theorem step_rejectedLine {s : State} {text line : Text} {rest : Option Text} {n : Nat} {e : LineError}
    (hreset : s.env.resetReq = false) (hact : s.act = .decode (some text))
    (hlineNo : s.hic.lineNo = some n) (hcut : cutLine text = (line, rest)) (hline : line ≠ [])
    (hdecode : decodeLine line = .error e) :
    step s = .next
      { s with
        hic := { Hic.latchRejected { s.hic with lineNo := some (n + 1), line := some line } e with
                   err := lineErrCode e, info := some { lineNo := n + 1, line := line } },
        act := .ret .hic } := by
  rw [step, fetch_decode hreset hact]
  simp only [nextPiece, needFor, hlineNo, hcut, hline, hdecode, if_false, runSelected]
  exact raiseLine_next.2 ⟨n + 1, line, by simp, by simp, rfl⟩

/-- Settles O36: `step_rejectedLine` for the tests before the checksum. -/
theorem malformedLineIsAFormatError : Obligations.MalformedLineIsAFormatError := by
  unfold Obligations.MalformedLineIsAFormatError
  intro s text line rest n hreset hact hlineNo hcut hline
  refine ⟨fun hmalformed => ?_, fun hhead hlen hhex hcount => ?_⟩
  · rcases decodeLine_malformed hmalformed with hdecode | hdecode | hdecode <;>
      exact step_rejectedLine hreset hact hlineNo hcut hline hdecode
  · obtain ⟨digits, rfl⟩ := List.head?_eq_some_iff.1 hhead
    simp only [List.length_cons] at hlen hcount
    exact step_rejectedLine hreset hact hlineNo hcut hline
      (decodeLine_wrongLength (by omega) hhex (by omega))

/-- Settles O38: `step_rejectedLine` for the checksum test. -/
theorem badChecksumEndsHexdec : Obligations.BadChecksumEndsHexdec := by
  unfold Obligations.BadChecksumEndsHexdec
  intro s text digits rest n hreset hact hlineNo hcut hhex hcount hsum
  obtain ⟨r, hdecode⟩ := decodeLine_badChecksum hhex hcount hsum
  exact ⟨_, step_rejectedLine hreset hact hlineNo hcut (List.cons_ne_nil _ _) hdecode,
    rfl, rfl, rfl, rfl, rfl, rfl, rfl, rfl, rfl, rfl⟩

end Sys2Proof.Machine

/-! # One round of HEXENC's walk (O49)

The walk selects one of three lines by where `ENC_A` stands. `nextLine` gets an equation per line and each
EMIT row one for its append; a step of the walk is then the append followed by what the walk does after that
line. -/

namespace Sys2Proof.Machine

/-! ## The bytes of a data line -/

/-- The bytes of the addresses `a` on are what `memRead` returns (R64): a sequence is fixed by its length and
its entries. -/
theorem memRead_eq_of_get {a : Nat} {m : Memory} {d : List Byte} (hle : a + d.length ≤ m.len)
    (hget : ∀ k, k < d.length → m.get (a + k) = some (d.getD k 0)) :
    memRead a d.length m = some d := by
  have hread := memRead_some hle
  obtain ⟨-, hlen, hcells⟩ := memRead_cases hread
  rw [hread, Option.some.injEq]
  refine List.ext_getElem hlen fun k hk hkd => ?_
  have hbyte := (hcells k hkd).symm.trans (hget k hkd)
  rwa [List.getD_eq_getElem _ _ hk, List.getD_eq_getElem _ _ hkd, Option.some.injEq] at hbyte

/-! ## The line a round selects -/

theorem atBoundary_iff {a : Nat} : atBoundary a = true ↔ 0 < a ∧ a % 65536 = 0 := by
  simp [atBoundary]

theorem encodeHigh_eq {a : Nat} {v : Half} (h : v.toNat = a / 65536) : encodeHigh a = v := by
  rw [encodeHigh, ← h, BitVec.ofNat_toNat, BitVec.setWidth_eq]

theorem encodeLow_eq {a : Nat} {a16 : Half} (h : a16.toNat = a % 65536) : encodeLow a = a16 :=
  BitVec.eq_of_toNat_eq (by rw [encodeLow, BitVec.toNat_ofNat, h])

section
variable {s : State} {a ls : Nat} {elaDone : Bool}

theorem nextLine_ela {v : Half} (ha : s.hic.encA = some a) (hls : s.hic.encLs = some ls)
    (hlt : a < s.hic.img.len) (hbound : atBoundary a = true) (hv : v.toNat = a / 65536) :
    nextLine false s = .run (.emitEla v) s .afterEla := by
  simp [nextLine, needFor, ha, hls, hlt, hbound, encodeHigh_eq hv]

/-- Off a boundary, at address 0, or after the boundary's own line, the data line is next (R221). -/
theorem nextLine_data {a16 : Half} {d : List Byte} (ha : s.hic.encA = some a)
    (hls : s.hic.encLs = some ls) (hlt : a < s.hic.img.len)
    (hela : atBoundary a = true → elaDone = true) (ha16 : a16.toNat = a % 65536)
    (hread : memRead a (encodeCount ls a s.hic.img.len) s.hic.img = some d) :
    nextLine elaDone s = .run (.emitData a16 d) s .afterData := by
  have hnoEla : ¬ (atBoundary a && !elaDone) = true := by simpa using hela
  simp only [nextLine, needFor, ha, hls, if_pos hlt, if_neg hnoEla, hread, encodeLow_eq ha16]

theorem nextLine_eof (ha : s.hic.encA = some a) (hls : s.hic.encLs = some ls)
    (hle : s.hic.img.len ≤ a) : nextLine elaDone s = .run .emitEof s .afterEof := by
  simp [nextLine, needFor, ha, hls, Nat.not_lt.2 hle]

end

/-! ## The append of an EMIT row -/

theorem exec_emitEla {v : Half} (hv : v ≠ 0) (s : State) :
    exec (.emitEla v) s = emit (recordLine 0x04 0 [hiByte v, loByte v] ++ [Config.LF]) s :=
  if_pos (decide_eq_true hv)

theorem exec_emitData {d : List Byte} (hpos : 1 ≤ d.length) (hle : d.length ≤ 255) (a16 : Half)
    (s : State) : exec (.emitData a16 d) s = emit (recordLine 0x00 a16 d ++ [Config.LF]) s :=
  if_pos (by simp only [Instr.wellFormed, hpos, hle, decide_true, Bool.and_self])

/-- A step of the walk appends the selected line and then does what the walk does after it. -/
theorem step_emittedLine {s : State} {i : Instr} {k : Resume} {line out : Text} {elaDone : Bool}
    (hreset : s.env.resetReq = false) (hact : s.act = .encode elaDone)
    (hout : s.hic.txtOut = some out) (hline : nextLine elaDone s = .run i s k)
    (hexec : exec i s = emit line s) :
    step s = resume k (s.withHic { s.hic with txtOut := some (out ++ line) }) := by
  have hemit := emit_next (x := line).2 ⟨out, hout, rfl⟩
  rw [step, fetch_encode hreset hact, hline, runSelected, hexec, hemit, andThen]

/-- Settles O49: `step_emittedLine` for each of the three lines a round can select. -/
theorem walkEmitsTheImageInOrder : Obligations.WalkEmitsTheImageInOrder := by
  unfold Obligations.WalkEmitsTheImageInOrder
  intro s a ls elaDone out hreset hact ha hls hout
  refine ⟨fun v hlt _ hpos hmod hela hv => ?_, fun a16 d hlt hela hls1 hls255 ha16 hlen hget => ?_,
    fun hle => ?_⟩
  · have hv0 : v ≠ 0 := by
      have hpage : v.toNat ≠ 0 := by omega
      rintro rfl
      exact hpage rfl
    subst hela
    have hline := nextLine_ela ha hls hlt (atBoundary_iff.2 ⟨hpos, hmod⟩) hv
    exact ⟨_, rfl, step_emittedLine hreset hact hout hline (exec_emitEla hv0 s)⟩
  · have hread : memRead a (encodeCount ls a s.hic.img.len) s.hic.img = some d := by
      rw [encodeCount, ← hlen]
      exact memRead_eq_of_get (by omega) hget
    have hdone : atBoundary a = true → elaDone = true := by
      rw [atBoundary_iff]
      rintro ⟨hpos, hmod⟩
      exact (hela.resolve_left hpos.ne').resolve_left (not_not_intro hmod)
    have hstep := step_emittedLine hreset hact hout (nextLine_data ha hls hlt hdone ha16 hread)
      (exec_emitData (by omega) (by omega) a16 s)
    exact ⟨_, rfl, hstep.trans (resume_afterData ha hls)⟩
  · exact ⟨_, rfl, step_emittedLine hreset hact hout (nextLine_eof ha hls hle) rfl⟩

end Sys2Proof.Machine

/-! # Encoding and decoding (O6, O11, O12, O33, O35, O37, O39, O40)

Both formats are read back by one computation each: `decodeFrame` on the bytes of a frame,
`decodeLine` on the hex digits of a line. The statements about single rows and about emitted lines
are uses of these two. -/

namespace Sys2Proof

/-! ## Frames -/

theorem frameBytes_eq_cons (seq : Byte) (len : Half) (payload : List Byte) :
    ∃ c, frameBytes seq len payload =
      Config.START :: seq :: hiByte len :: loByte len :: Config.TOKEN :: (payload ++ [c]) :=
  ⟨_, rfl⟩

/-- A frame whose length field counts its payload is read back (R92, R93). -/
theorem decodeFrame_frameBytes {len : Half} {payload : List Byte} (h : payload.length = len.toNat)
    (seq : Byte) : decodeFrame (frameBytes seq len payload) = .ok (.frameTx seq len payload) := by
  have hvalid := xorBytes_frameBytes seq len payload
  obtain ⟨c, hc⟩ := frameBytes_eq_cons seq len payload
  rw [hc] at hvalid ⊢
  simp only [decodeFrame, hvalid, be16_hi_lo, List.length_append, List.length_singleton, ← h, ne_eq,
    not_true, if_false, List.take_left]

/-- What `decodeFrame` accepts is the frame of its sequence byte, its length and its payload. -/
theorem decodeFrame_ok {bytes : List Byte} {i : Instr} (h : decodeFrame bytes = .ok i) :
    ∃ seq len payload, i = .frameTx seq len payload ∧ payload.length = len.toNat ∧
      bytes = frameBytes seq len payload := by
  unfold decodeFrame at h
  split at h
  case h_2 => cases h
  case h_1 start seq hi lo token rest =>
  split_ifs at h with hstart htoken hlen hsum
  obtain rfl := not_not.1 hstart
  obtain rfl := not_not.1 htoken
  have hrest : rest.length = (be16 hi lo).toNat + 1 := not_not.1 hlen
  have hne : rest ≠ [] := by
    rintro rfl
    simp at hrest
  obtain ⟨payload, c, rfl⟩ := (List.eq_nil_or_concat' rest).resolve_left hne
  have hpayload : payload.length = (be16 hi lo).toNat := by simpa using hrest
  refine ⟨seq, be16 hi lo, payload, ?_, hpayload, ?_⟩
  · rw [← Except.ok.inj h, ← hpayload, List.take_left]
  · have hbody : Config.START :: seq :: hi :: lo :: Config.TOKEN :: (payload ++ [c]) =
        (frameHeader seq (be16 hi lo) ++ payload) ++ [c] := by simp [frameHeader]
    have hc : c = xorBytes (frameHeader seq (be16 hi lo) ++ payload) := by
      rw [hbody, xorBytes_append, not_not] at hsum
      exact (BitVec.xor_eq_zero_iff.1 (by simpa using hsum)).symm
    rw [hbody, hc, frameBytes_eq]

/-- Settles O11: `decodeFrame_frameBytes`. -/
theorem frameDecodesToWhatWasEncoded : Obligations.FrameDecodesToWhatWasEncoded := by
  unfold Obligations.FrameDecodesToWhatWasEncoded
  intro seq len payload hwf
  refine ⟨_, rfl, ?_⟩
  rw [decode, decodeFrame_frameBytes (of_decide_eq_true hwf)]
  rfl

/-- Settles O12: `decodeFrame_ok`. -/
theorem decodedFrameIsItsOwnEncoding : Obligations.DecodedFrameIsItsOwnEncoding := by
  unfold Obligations.DecodedFrameIsItsOwnEncoding
  intro bytes i h
  unfold decode at h
  cases hframe : decodeFrame bytes with
  | error e =>
    rw [hframe] at h
    cases h
  | ok j =>
    rw [hframe] at h
    obtain rfl := Except.ok.inj h
    obtain ⟨seq, len, payload, rfl, hlen, rfl⟩ := decodeFrame_ok hframe
    exact ⟨decide_eq_true hlen, rfl⟩

end Sys2Proof

namespace Sys2Proof.Machine

/-! ## The lines of a record -/

theorem sumBytes_eq_sum (s : List Byte) : sumBytes s = (s.map BitVec.toNat).sum := by
  induction s with
  | nil => rfl
  | cons b s ih => simp [ih]

/-- The sum that is tested, written out as in R105: with at most 255 data bytes the count is itself
a byte. -/
theorem lineSum_eq {r : Record} (h : r.data.length ≤ 255) :
    lineSum r = r.data.length + r.addr.toNat / 256 + r.addr.toNat % 256 + r.rtype.toNat +
      (r.data.map BitVec.toNat).sum + r.csum.toNat := by
  simp only [lineSum, recordBytes, sumBytes_cons, hiByte_toNat, loByte_toNat, BitVec.toNat_ofNat,
    ← sumBytes_eq_sum]
  omega

/-- A line of written-out bytes passes the tests before the checksum (R183, R184). -/
theorem decodeLine_hexBytes (ty : Byte) (addr : Half) {data : List Byte} (c : Byte)
    (h : data.length ≤ 255) :
    decodeLine (Config.LINE_MARK :: hexBytes (recordBytes ty addr data ++ [c])) =
      if lineSum { rtype := ty, addr := addr, data := data, csum := c } % 256 = 0
      then .ok { rtype := ty, addr := addr, data := data, csum := c }
      else .error (.badChecksum { rtype := ty, addr := addr, data := data, csum := c }) := by
  have hlen : (Config.LINE_MARK :: hexBytes (recordBytes ty addr data ++ [c])).length =
      11 + 2 * data.length := by
    simp only [List.length_cons, hexBytes_length, List.length_append, recordBytes_length,
      List.length_nil]
    omega
  have hshort : ¬ 11 + 2 * data.length < 11 := by omega
  have hbc : (BitVec.ofNat 8 data.length).toNat = data.length := by
    rw [BitVec.toNat_ofNat]
    omega
  simp only [decodeLine, ne_eq, not_true, if_false, hlen, hshort, nibbles_hexBytes,
    pairBytes_nibbleValues]
  simp [recordBytes, hbc]

theorem lineSum_goodRecord (ty : Byte) (addr : Half) (data : List Byte) :
    lineSum (goodRecord ty addr data) % 256 = 0 :=
  add_twosComplement _

/-- Every record is read back from its own line (R100 to R105). -/
theorem decodeLine_recordLine (ty : Byte) (addr : Half) {data : List Byte} (h : data.length ≤ 255) :
    decodeLine (recordLine ty addr data) = .ok (goodRecord ty addr data) := by
  rw [recordLine, decodeLine_hexBytes ty addr _ h]
  exact if_pos (lineSum_goodRecord ty addr data)

theorem decode_hexrec_recordLine (ty : Byte) (addr : Half) {data : List Byte}
    (h : data.length ≤ 255) :
    decode .hexrec (recordLine ty addr data) = .ok (goodRecord ty addr data).toInstr := by
  simp only [decode, decodeLine_recordLine ty addr h]

theorem knownType_eq_false_iff {ty : Byte} :
    knownType ty = false ↔ ty ≠ 0 ∧ ty ≠ 1 ∧ ty ≠ 2 ∧ ty ≠ 4 := by
  simp only [knownType, Bool.or_eq_false_iff, beq_eq_false_iff_ne, and_assoc]

/-- A type that no other row has is dispatched to `REC.UNK` (R106). -/
theorem toInstr_goodRecord_unk {ty : Byte} (h : knownType ty = false) (addr : Half)
    (data : List Byte) : (goodRecord ty addr data).toInstr = .recUnk ty addr data := by
  obtain ⟨h0, h1, h2, h4⟩ := knownType_eq_false_iff.1 h
  simp only [Record.toInstr, goodRecord, h0, h1, h2, h4, if_false]

/-- Settles O37: `decodeLine_hexBytes`, its sum written out. -/
theorem onlyTheRightChecksumIsAccepted : Obligations.OnlyTheRightChecksumIsAccepted := by
  unfold Obligations.OnlyTheRightChecksumIsAccepted
  intro ty addr data c h
  exact (decodeLine_hexBytes ty addr c h).trans (by rw [lineSum_eq h])

/-- Settles O39: `decode_hexrec_recordLine` for each of the five rows. -/
theorem recordsDecodeToThemselves : Obligations.RecordsDecodeToThemselves := by
  unfold Obligations.RecordsDecodeToThemselves
  rintro i hwf addr data (rfl | rfl | rfl | rfl | ⟨ty, rfl⟩)
  · exact ⟨_, rfl, decode_hexrec_recordLine 0x00 addr (of_decide_eq_true hwf)⟩
  · exact ⟨_, rfl, decode_hexrec_recordLine 0x01 addr (of_decide_eq_true hwf)⟩
  · exact ⟨_, rfl, decode_hexrec_recordLine 0x02 addr (of_decide_eq_true hwf)⟩
  · exact ⟨_, rfl, decode_hexrec_recordLine 0x04 addr (of_decide_eq_true hwf)⟩
  · simp only [Instr.wellFormed, Bool.and_eq_true, decide_eq_true_eq, Bool.not_eq_true'] at hwf
    obtain ⟨hlen, hty⟩ := hwf
    refine ⟨_, rfl, ?_⟩
    rw [decode_hexrec_recordLine ty addr hlen, toInstr_goodRecord_unk hty]

/-- The end-of-file line is the line of an empty type-1 record (R109). -/
theorem eofLine_eq : Config.EOF_LINE = recordLine 0x01 0 [] := by decide

/-- Settles O40: an emitted line is a record's line and LF. -/
theorem emittedLinesDecodeAsRecords : Obligations.EmittedLinesDecodeAsRecords := by
  unfold Obligations.EmittedLinesDecodeAsRecords
  refine ⟨fun v hi lo _ hv => ?ela, fun a16 d hwf => ?data, ?eof⟩
  case ela =>
    obtain rfl := eq_be16_of_toNat hv
    refine ⟨_, rfl, ?_⟩
    rw [hiByte_be16, loByte_be16]
    exact decode_hexrec_recordLine 0x04 0 (by simp : [hi, lo].length ≤ 255)
  case data =>
    simp only [Instr.wellFormed, Bool.and_eq_true, decide_eq_true_eq] at hwf
    exact ⟨_, rfl, decode_hexrec_recordLine 0x00 a16 hwf.2⟩
  case eof =>
    refine ⟨Config.EOF_LINE, rfl, ?_⟩
    rw [eofLine_eq]
    exact decode_hexrec_recordLine 0x01 0 (by decide : [].length ≤ 255)

/-- Settles O6: the four written-out words, decoded. -/
theorem writtenWordsDecode : Obligations.WrittenWordsDecode := by
  unfold Obligations.WrittenWordsDecode
  exact ⟨by decide, by decide, by decide, by decide⟩

/-! ## The pieces of a text -/

/-- A piece without LF is cut off whole, and the LF behind it is dropped (R181). -/
theorem cutLine_append_lf {piece : Text} (h : ∀ c ∈ piece, c ≠ Config.LF) (rest : Text) :
    cutLine (piece ++ Config.LF :: rest) = (piece, some rest) := by
  induction piece with
  | nil => simp [cutLine]
  | cons c piece ih =>
    obtain ⟨hc, hpiece⟩ := List.forall_mem_cons.1 h
    simp only [List.cons_append, cutLine, if_neg hc, ih hpiece]

/-- A text without LF is its last piece (R181). -/
theorem cutLine_of_no_lf {piece : Text} (h : ∀ c ∈ piece, c ≠ Config.LF) :
    cutLine piece = (piece, none) := by
  induction piece with
  | nil => rfl
  | cons c piece ih =>
    obtain ⟨hc, hpiece⟩ := List.forall_mem_cons.1 h
    simp only [cutLine, if_neg hc, ih hpiece]

/-- Settles O33: both ways a piece can end. -/
theorem textIsCutAtLineFeeds : Obligations.TextIsCutAtLineFeeds := by
  unfold Obligations.TextIsCutAtLineFeeds
  exact fun piece rest h => ⟨cutLine_append_lf h rest, cutLine_of_no_lf h⟩

/-! ## The lines that are accepted -/

theorem hexval_eq_some_iff (c : Byte) (v : Nat) :
    hexval c = some v ↔
      (v < 10 ∧ c.toNat = 0x30 + v) ∨
        ∃ k, k < 6 ∧ v = 10 + k ∧ (c.toNat = 0x41 + k ∨ c.toNat = 0x61 + k) := by
  have hexists : (∃ k, k < 6 ∧ v = 10 + k ∧ (c.toNat = 0x41 + k ∨ c.toNat = 0x61 + k)) ↔
      10 ≤ v ∧ v < 16 ∧ (c.toNat = 0x37 + v ∨ c.toNat = 0x57 + v) := by
    constructor
    · rintro ⟨k, hk, rfl, h⟩
      omega
    · rintro ⟨h10, h16, h⟩
      exact ⟨v - 10, by omega, by omega, by omega⟩
  rw [hexists]
  unfold hexval
  split_ifs with hdecimal hupper hlower
  · rw [Option.some.injEq]; omega
  · rw [Option.some.injEq]; omega
  · rw [Option.some.injEq]; omega
  · rw [false_iff]; omega

/-- The byte of a line at a character offset is the paired byte with that number. -/
theorem lineBytes_getElem? (mark : Byte) {digits : Text} {i : Nat} (h : i < digits.length / 2) :
    (lineBytes digits)[i]? = some (BitVec.ofNat 8 (lineByte (mark :: digits) (1 + 2 * i))) := by
  rw [lineBytes_eq_map_range mark, List.getElem?_map, List.getElem?_range h, Option.map_some]

/-- The fields of a record are the bytes at the offsets of R101, its data bytes as many as its count
says. -/
def FieldsAt (line : Text) (r : Record) : Prop :=
  r.data.length = lineByte line 1 ∧ r.addr.toNat = lineByte line 3 * 256 + lineByte line 5 ∧
  r.rtype.toNat = lineByte line 7 ∧
  (∀ k, k < r.data.length → (r.data.getD k 0).toNat = lineByte line (9 + 2 * k)) ∧
  r.csum.toNat = lineByte line (9 + 2 * r.data.length)

/-- The fields fix the record. -/
theorem FieldsAt.unique {line : Text} {r r' : Record} (h : FieldsAt line r)
    (h' : FieldsAt line r') : r = r' := by
  obtain ⟨hbc, haddr, hty, hdata, hcsum⟩ := h
  obtain ⟨hbc', haddr', hty', hdata', hcsum'⟩ := h'
  have hlen : r.data.length = r'.data.length := hbc.trans hbc'.symm
  have hbytes : r.data = r'.data := List.ext_getElem hlen fun k hk hk' => by
    have hbyte := (hdata k hk).trans (hdata' k hk').symm
    rw [List.getD_eq_getElem _ _ hk, List.getD_eq_getElem _ _ hk'] at hbyte
    exact BitVec.eq_of_toNat_eq hbyte
  cases r
  cases r'
  simp only [Record.mk.injEq]
  exact ⟨BitVec.eq_of_toNat_eq (hty.trans hty'.symm),
    BitVec.eq_of_toNat_eq (haddr.trans haddr'.symm), hbytes,
    BitVec.eq_of_toNat_eq (hcsum.trans (hlen ▸ hcsum'.symm))⟩

/-- The record that a line of the right length is cut into has the fields of R101. -/
theorem recordOf_fieldsAt {digits : Text} {bc ah al ty : Byte} {rest : List Byte}
    (hbytes : lineBytes digits = bc :: ah :: al :: ty :: rest)
    (hlen : digits.length = 10 + 2 * bc.toNat) :
    FieldsAt (0x3A :: digits) (recordOf bc ah al ty rest) := by
  have hhalf : digits.length / 2 = bc.toNat + 5 := by omega
  have hrest : rest.length = bc.toNat + 1 := by
    have := lineBytes_length digits
    simp only [hbytes, List.length_cons] at this
    omega
  have hbyte : ∀ (i : Nat) (b : Byte), (lineBytes digits)[i]? = some b →
      b.toNat = lineByte (0x3A :: digits) (1 + 2 * i) := by
    intro i b hb
    have hi : i < digits.length / 2 := by
      rw [← lineBytes_length]
      exact (List.getElem?_eq_some_iff.1 hb).1
    rw [lineBytes_getElem? 0x3A hi] at hb
    rw [← Option.some.inj hb]
    exact Nat.mod_eq_of_lt (lineByte_lt _ _)
  rw [hbytes] at hbyte
  have htake : (rest.take bc.toNat).length = bc.toNat := List.length_take_of_le (by omega)
  refine ⟨?_, ?_, hbyte 3 ty rfl, fun k hk => ?_, ?_⟩
  · exact htake.trans (hbyte 0 bc rfl)
  · exact (be16_toNat ah al).trans (by rw [hbyte 1 ah rfl, hbyte 2 al rfl])
  · have hk' : k < bc.toNat := htake ▸ hk
    have h4 := hbyte (k + 4) rest[k] (by simp)
    simp only [recordOf, List.getD_eq_getElem _ _ (htake.symm ▸ hk'), List.getElem_take, h4]
    congr 1
    omega
  · have h4 := hbyte (bc.toNat + 4) rest[bc.toNat] (by simp)
    simp only [recordOf, List.getD_eq_getElem _ _ (show bc.toNat < rest.length by omega), htake, h4]
    congr 1
    omega

/-- A line is accepted exactly when it passes the tests of R183 to R185, and then its fields are
those of R101. -/
theorem decodeLine_ok_iff (line : Text) (r : Record) :
    decodeLine line = .ok r ↔
      line.head? = some 0x3A ∧ (∀ c ∈ line.tail, (hexval c).isSome = true) ∧
        line.length = 11 + 2 * r.data.length ∧ FieldsAt line r ∧ lineSum r % 256 = 0 := by
  by_cases hwell : line.head? ≠ some 0x3A ∨ line.length < 11 ∨ ∃ c ∈ line.tail, hexval c = none
  · have hmalformed : ∀ r', decodeLine line ≠ .ok r' := by
      rcases decodeLine_malformed hwell with h | h | h <;> simp [h]
    refine ⟨fun h => absurd h (hmalformed r), ?_⟩
    rintro ⟨hhead, hhex, hlen, -⟩
    rcases hwell with h | h | ⟨c, hc, h⟩
    · exact absurd hhead h
    · omega
    · simpa [h] using hhex c hc
  · push Not at hwell
    obtain ⟨hhead, hlen11, hhex⟩ := hwell
    replace hhex : ∀ c ∈ line.tail, (hexval c).isSome = true :=
      fun c hc => Option.isSome_iff_ne_none.2 (hhex c hc)
    obtain ⟨digits, rfl⟩ := List.head?_eq_some_iff.1 hhead
    rw [List.length_cons] at hlen11
    rw [List.tail_cons] at hhex
    obtain ⟨bc, ah, al, ty, rest, hbytes, hdecode⟩ := decodeLine_hexDigits (by omega) hhex
    obtain ⟨-, hbc⟩ := lineBytes_head 0x3A hbytes
    rw [hdecode]
    constructor
    · intro h
      split_ifs at h with hcount hsum
      have hfields := recordOf_fieldsAt hbytes (not_not.1 hcount)
      obtain rfl := Except.ok.inj h
      refine ⟨rfl, hhex, ?_, hfields, not_not.1 hsum⟩
      rw [hfields.1, ← hbc, List.length_cons]
      omega
    · rintro ⟨-, -, hlen, hfields, hsum⟩
      have hcount : digits.length = 10 + 2 * bc.toNat := by
        rw [hfields.1, ← hbc, List.length_cons] at hlen
        omega
      obtain rfl := hfields.unique (recordOf_fieldsAt hbytes hcount)
      rw [if_neg (not_not.2 hcount), if_neg (not_not.2 hsum)]

/-- Settles O35: `hexval_eq_some_iff` and `decodeLine_ok_iff`, the fields and the sum written out.
-/
theorem acceptedLineHasTheWrittenFields : Obligations.AcceptedLineHasTheWrittenFields := by
  unfold Obligations.AcceptedLineHasTheWrittenFields
  refine ⟨hexval_eq_some_iff, fun line r => (decodeLine_ok_iff line r).trans ?_⟩
  have hsum : FieldsAt line r → lineSum r = r.data.length + r.addr.toNat / 256 +
      r.addr.toNat % 256 + r.rtype.toNat + (r.data.map BitVec.toNat).sum + r.csum.toNat :=
    fun h => lineSum_eq (by have := h.1 ▸ lineByte_lt line 1; omega)
  constructor
  · rintro ⟨hhead, hhex, hlen, hfields, hzero⟩
    rw [hsum hfields] at hzero
    obtain ⟨hbc, haddr, hty, hdata, hcsum⟩ := hfields
    exact ⟨hhead, hhex, hlen, hbc, haddr, hty, hdata, hcsum, hzero⟩
  · rintro ⟨hhead, hhex, hlen, hbc, haddr, hty, hdata, hcsum, hzero⟩
    have hfields : FieldsAt line r := ⟨hbc, haddr, hty, hdata, hcsum⟩
    exact ⟨hhead, hhex, hlen, hfields, (hsum hfields).symm ▸ hzero⟩

end Sys2Proof.Machine

/-! # The record rows of HEXDEC (O41 to O46)

A row latches its fields, and then does what its type does (R184, R187). Each row gets an equation
for what it does to a state; its statement writes the state out. -/

namespace Sys2Proof.Machine

/-! ## Latching a record -/

@[simp] theorem latchRecord_hic (ty : Byte) (addr : Half) (data : List Byte) (s : State) :
    (latchRecord ty addr data s).hic = s.hic.latch (goodRecord ty addr data) := rfl

/-- A row that raises keeps everything but its latched fields and the error registers, and ends
HEXDEC (R241, R250). -/
theorem raiseLine_latchRecord {s : State} {n : Nat} {line : Text} (hn : s.hic.lineNo = some n)
    (hline : s.hic.line = some line) (e : ErrCode) (ty : Byte) (addr : Half) (data : List Byte) :
    raiseLine e (latchRecord ty addr data s) = .next
      { s with
        hic := { s.hic with
          bc := some (BitVec.ofNat 8 data.length), addr := some addr, rtype := some ty,
          data := some data, csum := some (recordChecksum ty addr data), err := e,
          info := some { lineNo := n, line := line } },
        act := .ret .hic } :=
  raiseLine_next.2 ⟨n, line, hn, hline, rfl⟩

/-! ## REC.DATA -/

/-- With `OFFSET` loaded, a data record is a store at its absolute address (R75, R192). -/
theorem exec_recData {s : State} {data : List Byte} {off : Nat} (hlen : data.length ≤ 255)
    (hoff : s.hic.offset = some off) (addr : Half) :
    exec (.recData addr data) s =
      storeRecord (recordAddress s.hic.eab addr s.params.offsetApplied off) data.length data
        (latchRecord 0x00 addr data s) := by
  have hbc : (BitVec.ofNat 8 data.length).toNat = data.length := by
    rw [BitVec.toNat_ofNat]
    omega
  refine (if_pos (decide_eq_true hlen)).trans ?_
  simp [withRecordAddress, hoff, goodRecord, Record.bc, hbc]

/-- A store into an Image that can grow far enough: the grown Image with the bytes at their
addresses (R65, R66). -/
theorem exists_stored {cap : Option Nat} {m : Memory} {a : Nat} {data : List Byte}
    (hw : m.wf = true) (hcap : ∀ c, cap = some c → a + data.length ≤ max c m.len) :
    ∃ g w, imgGrow cap (a + data.length) m = some g ∧ memWrite a data.length data g = some w ∧
      w.wf = true ∧ w.len = max m.len (a + data.length) ∧
      ∀ x, w.get x =
        if a ≤ x ∧ x < a + data.length then data[x - a]?
        else if x < m.len then m.get x
        else if x < a + data.length then some Config.FILL else none := by
  cases hg : imgGrow cap (a + data.length) m with
  | none =>
    obtain ⟨hlt, c, rfl, hc⟩ := imgGrow_none.1 hg
    have := hcap c rfl
    omega
  | some g =>
    have hlen := imgGrow_len hg
    have hw' := imgGrow_wf hg hw
    have hwrite : memWrite a data.length data g =
        some { g with cells := setCells a data g.cells } :=
      if_pos ⟨rfl, by omega⟩
    refine ⟨g, _, rfl, hwrite, memWrite_wf hwrite hw', hlen, fun x => ?_⟩
    rw [memWrite_get hwrite hw', imgGrow_get hg hw]
    by_cases hx : a ≤ x ∧ x < a + data.length
    · have hlt : x - a < data.length := by omega
      rw [if_pos hx, if_pos hx, List.getD_eq_getElem _ _ hlt, List.getElem?_eq_getElem hlt]
    · rw [if_neg hx, if_neg hx]

/-- Settles O41: `exists_stored` at the record's address. -/
theorem recDataWritesTheImage : Obligations.RecDataWritesTheImage := by
  unfold Obligations.RecDataWritesTheImage
  intro s addr data off abs hlen hw hoff habs hcap
  have haddr : recordAddress s.hic.eab addr s.params.offsetApplied off = abs := by
    rw [recordAddress, offsetTerm_eq, habs]
  obtain ⟨g, m, hgrow, hwrite, hmw, hmlen, hget⟩ := exists_stored hw hcap
  refine ⟨m, ?_, hmw, hmlen, hget⟩
  rw [exec_recData hlen hoff, haddr]
  exact storeRecord_next.2 (.inl ⟨g, m, hgrow, hwrite, rfl⟩)

/-- Settles O42: past the capacity the store raises. -/
theorem recDataPastTheCapacity : Obligations.RecDataPastTheCapacity := by
  unfold Obligations.RecDataPastTheCapacity
  intro s addr data off abs cap n line hlen hoff hn hline habs hcap hlt hgrow
  have haddr : recordAddress s.hic.eab addr s.params.offsetApplied off = abs := by
    rw [recordAddress, offsetTerm_eq, habs]
  rw [exec_recData hlen hoff, haddr]
  exact storeRecord_next.2 (.inr ⟨imgGrow_none.2 ⟨hgrow, cap, hcap, hlt⟩,
    raiseLine_latchRecord hn hline _ _ _ _⟩)

/-! ## REC.EOF -/

theorem exec_recEof {data : List Byte} (hlen : data.length ≤ 255) (addr : Half) (s : State) :
    exec (.recEof addr data) s = .next (latchRecord 0x01 addr data s) :=
  if_pos (decide_eq_true hlen)

/-- Settles O43: REC.EOF latches its fields and is over. -/
theorem recEofHasNoEffect : Obligations.RecEofHasNoEffect := by
  unfold Obligations.RecEofHasNoEffect
  exact fun s addr data hlen => exec_recEof hlen addr s

/-! ## REC.ESA and REC.ELA -/

/-- The two terms of the segment amount share no bit, so it is 16 times the 16-bit segment (R194).
-/
theorem segmentAmount_eq (d0 d1 : Byte) :
    segmentAmount d0 d1 = 16 * (d0.toNat * 256 + d1.toNat) := by
  have hlow : d1.toNat <<< 4 < 2 ^ 12 := by
    have := d1.isLt
    rw [Nat.shiftLeft_eq]
    omega
  have hmask : d0.toNat &&& 0xFF = d0.toNat := by
    rw [show (0xFF : Nat) = 2 ^ 8 - 1 from rfl, Nat.and_two_pow_sub_one_eq_mod]
    exact Nat.mod_eq_of_lt d0.isLt
  rw [segmentAmount, hmask, Nat.or_comm, ← Nat.shiftLeft_add_eq_or_of_lt hlow, Nat.shiftLeft_eq,
    Nat.shiftLeft_eq]
  omega

theorem withTwoBytes_latchRecord_two (ty : Byte) (addr : Half) (d0 d1 : Byte) (s : State)
    (k : Byte → Byte → Out) : withTwoBytes (latchRecord ty addr [d0, d1] s) k = k d0 d1 :=
  withTwoBytes_two rfl rfl

theorem exec_recEsa {s : State} {off : Nat} (hoff : s.hic.offset = some off) (addr : Half)
    (d0 d1 : Byte) :
    exec (.recEsa addr [d0, d1]) s =
      let s1 := latchRecord 0x02 addr [d0, d1] s
      .next (s1.withHic { s1.hic with
        eab := BitVec.ofNat 16 (d0.toNat >>> 4), offset := some (off + segmentAmount d0 d1) }) := by
  have hlen : [d0, d1].length ≤ 255 := by simp
  simp only [exec, execRecEsa, ifWellFormed, Instr.wellFormed, hlen, decide_true, if_true,
    withTwoBytes_latchRecord_two, latchRecord_hic, Hic.latch_offset, hoff, need_some]

theorem exec_recEla (s : State) (addr : Half) (d0 d1 : Byte) :
    exec (.recEla addr [d0, d1]) s =
      let s1 := latchRecord 0x04 addr [d0, d1] s
      .next (s1.withHic { s1.hic with eab := be16 d0 d1 }) := by
  have hlen : [d0, d1].length ≤ 255 := by simp
  simp only [exec, execRecEla, ifWellFormed, Instr.wellFormed, hlen, decide_true, if_true,
    withTwoBytes_latchRecord_two]

/-- A type-2 or type-4 record whose byte count is not two is a FormatError (R194, R196). -/
theorem withTwoBytes_latchRecord {data : List Byte} (h : data.length ≠ 2) (ty : Byte) (addr : Half)
    (s : State) (k : Byte → Byte → Out) :
    withTwoBytes (latchRecord ty addr data s) k =
      raiseLine .formatError (latchRecord ty addr data s) :=
  withTwoBytes_other rfl rfl h

/-- Settles O44: the equation of REC.ESA, and the FormatError of every other count. -/
theorem recEsaSetsTheSegment : Obligations.RecEsaSetsTheSegment := by
  unfold Obligations.RecEsaSetsTheSegment
  refine fun s addr => ⟨fun d0 d1 off base hoff hbase => ?_, fun data n line hlen h2 hn hline => ?_⟩
  · have heab : BitVec.ofNat 16 (d0.toNat >>> 4) = base := by
      rw [Nat.shiftRight_eq_div_pow, show 2 ^ 4 = 16 from rfl, ← hbase, BitVec.ofNat_toNat,
        BitVec.setWidth_eq]
    rw [exec_recEsa hoff, heab, segmentAmount_eq]
    rfl
  · refine (if_pos (decide_eq_true hlen)).trans ((withTwoBytes_latchRecord h2 _ _ _ _).trans ?_)
    exact raiseLine_latchRecord hn hline _ _ _ _

/-- Settles O45: the equation of REC.ELA, and the FormatError of every other count. -/
theorem recElaSetsTheBase : Obligations.RecElaSetsTheBase := by
  unfold Obligations.RecElaSetsTheBase
  refine fun s addr => ⟨fun d0 d1 base hbase => ?_, fun data n line hlen h2 hn hline => ?_⟩
  · rw [exec_recEla, ← eq_be16_of_toNat hbase]
    rfl
  · refine (if_pos (decide_eq_true hlen)).trans ((withTwoBytes_latchRecord h2 _ _ _ _).trans ?_)
    exact raiseLine_latchRecord hn hline _ _ _ _

/-! ## REC.UNK -/

section
variable {s : State} {ty : Byte} {data : List Byte}

theorem exec_recUnk_ignore (hlen : data.length ≤ 255) (hty : knownType ty = false)
    (hpolicy : s.params.unknownPolicy = .ignore) (addr : Half) :
    exec (.recUnk ty addr data) s = .next (latchRecord ty addr data s) := by
  refine (if_pos (by simp [Instr.wellFormed, hlen, hty])).trans ?_
  simp only [latchRecord_params, hpolicy]

theorem exec_recUnk_reject (hlen : data.length ≤ 255) (hty : knownType ty = false)
    (hpolicy : s.params.unknownPolicy = .reject) (addr : Half) :
    exec (.recUnk ty addr data) s = raiseLine .unsupportedRecord (latchRecord ty addr data s) := by
  refine (if_pos (by simp [Instr.wellFormed, hlen, hty])).trans ?_
  simp only [latchRecord_params, hpolicy]

end

/-- Settles O46: the two policies of REC.UNK. -/
theorem recUnkFollowsThePolicy : Obligations.RecUnkFollowsThePolicy := by
  unfold Obligations.RecUnkFollowsThePolicy
  intro s ty addr data hlen h0 h1 h2 h4
  have hty := knownType_eq_false_iff.2 ⟨h0, h1, h2, h4⟩
  refine ⟨fun hpolicy => exec_recUnk_ignore hlen hty hpolicy addr,
    fun n line hpolicy hn hline => ?_⟩
  rw [exec_recUnk_reject hlen hty hpolicy]
  exact raiseLine_latchRecord hn hline _ _ _ _

end Sys2Proof.Machine

/-! # Reset, the host operations and the emitted lines

O1 to O3, O5, O7, O8, O13, O32, O34, O48, O50 to O52 and O56.

What a step is when its selection is known, and the one equation each row outside the record and
receive families has. -/

namespace Sys2Proof.Machine

/-! ## A step whose selection is known -/

section
variable {s s1 : State} {i : Instr}

theorem step_of_outcome {o : Out} (h : fetch s = .outcome o) : step s = o := by
  rw [step, h, runSelected]

theorem step_of_run {k : Resume} (h : fetch s = .run i s1 k) :
    step s = andThen (exec i s1) (resume k) := by
  rw [step, h, runSelected]

/-- Nothing follows an instruction that no operation called. -/
theorem andThen_plain (o : Out) : andThen o (resume .plain) = o := by
  cases o <;> rfl

theorem step_of_run_plain (h : fetch s = .run i s1 .plain) : step s = exec i s1 := by
  rw [step_of_run h, andThen_plain]

/-- A waiting state runs its rule (R150). -/
theorem step_firing (hreset : s.env.resetReq = false) (hact : s.act = .receive)
    (hrule : rxRule s.fte.rxstate = some i) : step s = exec i s :=
  step_of_run_plain (fetch_receive hreset hact hrule)

/-- An idle block runs the operation the host starts next (R40). -/
theorem step_command {c : HostOp} {cs : List HostOp} (hreset : s.env.resetReq = false)
    (hact : s.act = .idle) (hcmds : s.env.cmds = c :: cs) :
    step s = exec c.toInstr (s.withEnv { s.env with cmds := cs }) := by
  refine step_of_run_plain ?_
  rw [fetch_idle hreset hact, nextCommand, hcmds]

/-- SENDRECV calls FRAME.TX with `SEQ` and `TXLEN`, and then starts reception (R130). -/
theorem step_transmit {payload : List Byte} {q : Byte} {len : Half}
    (hreset : s.env.resetReq = false) (hact : s.act = .transmit payload)
    (hseq : s.fte.seq = some q) (hlen : s.fte.txlen = some len) :
    step s = andThen (exec (.frameTx q len payload) s) startReceive := by
  refine step_of_run (k := .afterFrame) ?_
  rw [fetch_transmit hreset hact, nextFrame, hseq, hlen]
  rfl

end

section
variable {s : State} {text line : Text} {rest : Option Text} {n : Nat}

/-- An empty piece is counted and skipped (R182). -/
theorem step_emptyPiece (hreset : s.env.resetReq = false) (hact : s.act = .decode (some text))
    (hn : s.hic.lineNo = some n) (hcut : cutLine text = ([], rest)) :
    step s = .next { s with hic := { s.hic with lineNo := some (n + 1), line := some [] },
                            act := .decode rest } := by
  refine step_of_outcome ?_
  rw [fetch_decode hreset hact]
  simp only [nextPiece, needFor, hn, hcut, if_true]
  rfl

/-- An accepted line is counted, taken into `LINE`, and run as its record (R180, R187). -/
theorem step_acceptedLine {r : Record} (hreset : s.env.resetReq = false)
    (hact : s.act = .decode (some text)) (hn : s.hic.lineNo = some n)
    (hcut : cutLine text = (line, rest)) (hline : line ≠ []) (hdecode : decodeLine line = .ok r) :
    step s = exec r.toInstr
      { s with hic := { s.hic with lineNo := some (n + 1), line := some line },
               act := .decode rest } := by
  refine step_of_run_plain ?_
  rw [fetch_decode hreset hact]
  simp only [nextPiece, needFor, hn, hcut, if_neg hline, hdecode]
  rfl

end

/-- The HEX decoder accepts an instruction as the record of an accepted line. -/
theorem decode_hexrec_ok {line : Text} {i : Instr} (h : decode .hexrec line = .ok i) :
    ∃ r, decodeLine line = .ok r ∧ i = r.toInstr := by
  unfold decode at h
  cases hline : decodeLine line with
  | error e => simp [hline] at h
  | ok r =>
    simp only [hline, Except.ok.injEq] at h
    exact ⟨r, rfl, h.symm⟩

/-- Settles O5: the four kinds of step, each by its own equation. -/
theorem stepRunsTheDecodedInstruction : Obligations.StepRunsTheDecodedInstruction := by
  unfold Obligations.StepRunsTheDecodedInstruction
  refine ⟨?line, ?firing, ?command, ?frame⟩
  case line =>
    intro s text line rest n i hreset hact hn hcut hline hdecode _
    obtain ⟨r, hr, rfl⟩ := decode_hexrec_ok hdecode
    exact step_acceptedLine hreset hact hn hcut hline hr
  case firing => exact fun s i => step_firing
  case command => exact fun s c cs => step_command
  case frame =>
    intro s t q len payload x hreset hact hseq hlen htmo hexec
    have ht : t = streamWrite (frameBytes q len payload) s :=
      (Host.Outcome.next.inj (ifWellFormed_next.1 hexec).2).symm
    rw [step_transmit hreset hact hseq hlen, hexec]
    exact startReceive_next.2 ⟨x, by rw [ht]; exact htmo, rfl⟩

/-! ## Reset -/

/-- Settles O1: the two reset records are written as the tables of R50. -/
theorem resetGivesEveryRegisterItsValue : Obligations.ResetGivesEveryRegisterItsValue := by
  unfold Obligations.ResetGivesEveryRegisterItsValue
  exact ⟨rfl, rfl, rfl⟩

theorem step_reset {s : State} (h : s.env.resetReq = true) : step s = .next (resetBlock s) :=
  step_of_outcome (fetch_reset h)

/-- Settles O2: the reset event comes before anything else. -/
theorem resetEventLeavesTheEnvironment : Obligations.ResetEventLeavesTheEnvironment := by
  unfold Obligations.ResetEventLeavesTheEnvironment
  exact fun s h => step_reset h

/-- The reset registers are settled and hold no transient value, whatever the environment and the
parameters. -/
theorem legal_resetBlock (s : State) : Legal (resetBlock s) := by
  refine ⟨Memory.empty_wf, ⟨rfl, rfl⟩, ⟨fun _ => rfl, fun _ => rfl⟩, ?_⟩
  show FteSettled Fte.reset
  exact ⟨rfl, ⟨nofun, fun h => absurd rfl h⟩, nofun⟩

/-- Settles O3: the state after reset has the reset registers. -/
theorem resetStateIsLegal : Obligations.ResetStateIsLegal := by
  unfold Obligations.ResetStateIsLegal
  exact legal_resetBlock State.reset

/-! ## The start of a host operation -/

/-- Settles O7: every host operation is refused first of all when another is in progress. -/
theorem overlappingOperationsAreRefused : Obligations.OverlappingOperationsAreRefused := by
  unfold Obligations.OverlappingOperationsAreRefused
  intro s c hact
  cases c <;> exact if_neg hact

section
variable {s : State}

/-- SENDRECV of a payload that the length field can count (R130). -/
theorem exec_sendrecv {payload : List Byte} (hact : s.act = .idle)
    (hlen : payload.length ≤ Config.MAX_PAYLOAD) (q : Byte) (x : Nat) :
    exec (.sendrecv q payload x) s =
      .next ((s.withFte (s.fte.startCall.latchCall q x payload)).withAct (.transmit payload)) :=
  (if_pos hact).trans (if_neg (Nat.not_lt.2 hlen))

theorem exec_sendrecv_tooLong {payload : List Byte} (hact : s.act = .idle)
    (hlen : Config.MAX_PAYLOAD < payload.length) (q : Byte) (x : Nat) :
    exec (.sendrecv q payload x) s =
      .next (raise (.fte .payloadTooLong (.payloadLength payload.length))
        (s.withFte { s.fte.startCall with rxstate := .failed })) :=
  (if_pos hact).trans (if_pos hlen)

/-- The length field counts a payload of as many bytes as it can. -/
theorem ofNat_length_eq {payload : List Byte} {n : Half} (h : payload.length = n.toNat) :
    BitVec.ofNat 16 payload.length = n := by
  rw [h, BitVec.ofNat_toNat, BitVec.setWidth_eq]

/-- Settles O8: both equations of SENDRECV. -/
theorem sendrecvLatchesItsOperands : Obligations.SendrecvLatchesItsOperands := by
  unfold Obligations.SendrecvLatchesItsOperands
  refine fun s q payload x hact =>
    ⟨fun n hn => ?_, fun hlong => exec_sendrecv_tooLong hact hlong q x⟩
  have hle : payload.length ≤ Config.MAX_PAYLOAD := hn ▸ Nat.le_of_lt_succ n.isLt
  rw [exec_sendrecv hact hle, Fte.latchCall, ofNat_length_eq hn]
  rfl

theorem exec_hexdec (hact : s.act = .idle) (text : Text) (offset : Nat) :
    exec (.hexdec text offset) s =
      .next ((s.withHic { s.hic with
        err := .none, info := none, offset := some offset, lineNo := some 0 }).withAct
          (.decode (some text))) :=
  if_pos hact

/-- Settles O32: the equation of HEXDEC. -/
theorem hexdecStartsItsLineLoop : Obligations.HexdecStartsItsLineLoop := by
  unfold Obligations.HexdecStartsItsLineLoop
  exact fun s text offset hact => exec_hexdec hact text offset

/-- The domain of HEXENC (R225, D20). -/
theorem encodeRefused_eq_false_iff {ls n : Nat} :
    encodeRefused ls n = false ↔
      1 ≤ ls ∧ ls ≤ 255 ∧ n ≤ 2 ^ 32 ∧ (ls ∣ 65536 ∨ n ≤ 65536) := by
  simp only [encodeRefused, Bool.or_eq_false_iff, Bool.and_eq_false_iff, decide_eq_false_iff_not,
    not_lt, not_not, Nat.dvd_iff_mod_eq_zero, and_assoc, gt_iff_lt, ne_eq]

theorem exec_hexenc {ls : Nat} (hact : s.act = .idle)
    (hdomain : encodeRefused ls s.hic.img.len = false) :
    exec (.hexenc ls) s =
      .next ((s.withHic { s.hic with
        err := .none, info := none, txtOut := some [], encLs := some ls,
        encA := some 0 }).withAct (.encode false)) :=
  (if_pos hact).trans (if_neg (by simp [hdomain]))

theorem exec_hexenc_refused {ls : Nat} (hact : s.act = .idle)
    (hdomain : encodeRefused ls s.hic.img.len = true) :
    exec (.hexenc ls) s =
      .next ((s.withHic { s.hic with err := .encodeRefused, info := none, txtOut := none }).withAct
        (.ret .hic)) :=
  (if_pos hact).trans (if_pos hdomain)

/-- Settles O48: both equations of HEXENC, with its domain written out. -/
theorem hexencStartsOrRefuses : Obligations.HexencStartsOrRefuses := by
  unfold Obligations.HexencStartsOrRefuses
  refine fun s ls hact => ⟨fun h1 h255 hlen hdvd => ?_, fun hout => ?_⟩
  · exact exec_hexenc hact (encodeRefused_eq_false_iff.2 ⟨h1, h255, hlen, hdvd⟩)
  · refine exec_hexenc_refused hact ?_
    rw [← Bool.not_eq_false, encodeRefused_eq_false_iff]
    rintro ⟨h1, h255, hlen, hdvd⟩
    rcases hout with h | h | h | ⟨hnot, h⟩
    · omega
    · omega
    · omega
    · exact hdvd.elim hnot (Nat.not_le.2 h)

end

/-! ## The request and the return -/

/-- Settles O13: FRAME.TX writes the frame, then reception starts. -/
theorem requestIsSentAndReceptionStarts : Obligations.RequestIsSentAndReceptionStarts := by
  unfold Obligations.RequestIsSentAndReceptionStarts
  intro s q len payload x hreset hact hseq hlen htmo hpayload
  rw [step_transmit hreset hact hseq hlen, exec_frameTx hpayload]
  exact startReceive_next.2 ⟨x, htmo, rfl⟩

/-- Settles O34: an empty piece before LF, an empty last piece, and the return. -/
theorem emptyPiecesAndTheEndOfText : Obligations.EmptyPiecesAndTheEndOfText := by
  unfold Obligations.EmptyPiecesAndTheEndOfText
  exact fun s hreset =>
    ⟨fun n rest hact hn =>
        step_emptyPiece hreset hact hn (cutLine_append_lf (piece := []) nofun rest),
      fun n hact hn => step_emptyPiece hreset hact hn rfl,
      fun hact => step_of_outcome (fetch_decoded hreset hact)⟩

/-- Settles O56: the return of a unit, after an error or in `Done`. -/
theorem operationReturnsToTheHost : Obligations.OperationReturnsToTheHost := by
  unfold Obligations.OperationReturnsToTheHost
  refine fun s hreset => ⟨?_, fun hact => step_of_outcome (fetch_ret hreset hact)⟩
  rintro (hact | ⟨hact, hdone⟩)
  · exact step_of_outcome (fetch_ret hreset hact)
  · exact step_of_outcome (fetch_received hreset hact (by rw [hdone]; rfl))

/-! ## The emitted lines -/

theorem hexBytes_eq_flatMap (s : List Byte) : hexBytes s = s.flatMap hex2 := by
  induction s with
  | nil => rfl
  | cons b s ih => rw [hexBytes, ih, List.flatMap_cons]

/-- The digit of a value is its character in R104's row of digits. -/
theorem hexDigit_eq {k : Nat} (h : k < 16) :
    ([0x30, 0x31, 0x32, 0x33, 0x34, 0x35, 0x36, 0x37, 0x38, 0x39, 0x41, 0x42, 0x43, 0x44, 0x45,
      0x46] : Text)[k]? = some (hexDigit k) := by
  have hdigits : ∀ j : Fin 16, ([0x30, 0x31, 0x32, 0x33, 0x34, 0x35, 0x36, 0x37, 0x38, 0x39, 0x41,
      0x42, 0x43, 0x44, 0x45, 0x46] : Text)[j.val]? = some (hexDigit j.val) := by decide
  exact hdigits ⟨k, h⟩

/-- The checksum of a record is the only byte that brings its sum to 0 (R105). -/
theorem eq_recordChecksum {ty : Byte} {addr : Half} {data : List Byte} {c : Byte}
    (hlen : data.length ≤ 255)
    (h : (data.length + addr.toNat / 256 + addr.toNat % 256 + ty.toNat +
      (data.map BitVec.toNat).sum + c.toNat) % 256 = 0) : c = recordChecksum ty addr data := by
  have hsum := lineSum_eq (r := { rtype := ty, addr := addr, data := data, csum := c }) hlen
  rw [← hsum] at h
  exact eq_twosComplement h

/-- Settles O50: EMIT.ELA appends the line of a type-4 record, its fields and checksum written out.
-/
theorem emitElaWritesItsLine : Obligations.EmitElaWritesItsLine := by
  unfold Obligations.EmitElaWritesItsLine
  intro s v hh ll cc out hv hvn hsum hout
  obtain rfl := eq_be16_of_toNat hvn
  have hcc : cc = recordChecksum 0x04 0 [hh, ll] := by
    refine eq_recordChecksum (by simp) ?_
    have htype : (0x04 : Byte).toNat = 4 := rfl
    have haddr : (0 : Half).toNat = 0 := rfl
    simp only [List.length_cons, List.length_nil, List.map_cons, List.map_nil, List.sum_cons,
      List.sum_nil, htype, haddr]
    omega
  have hfields : hexBytes (recordBytes 0x04 0 [hh, ll]) =
      [0x30, 0x32, 0x30, 0x30, 0x30, 0x30, 0x30, 0x34] ++ hex2 hh ++ hex2 ll := by
    have hconst : hexBytes [0x02, 0x00, 0x00, 0x04] =
        [0x30, 0x32, 0x30, 0x30, 0x30, 0x30, 0x30, 0x34] := by decide
    rw [← hconst, List.append_assoc, ← List.append_nil (hex2 ll)]
    exact hexBytes_append [0x02, 0x00, 0x00, 0x04] [hh, ll]
  rw [exec_emitEla hv, hiByte_be16, loByte_be16, recordLine, hexBytes_append, hfields, ← hcc]
  exact emit_next.2 ⟨out, hout, by simp [hexBytes, State.withHic]⟩

/-- Settles O51: the row of digits, and EMIT.DATA's line as that of a type-0 record. -/
theorem emitDataWritesItsLine : Obligations.EmitDataWritesItsLine := by
  unfold Obligations.EmitDataWritesItsLine
  refine ⟨fun b => ⟨_, _, rfl, hexDigit_eq ?_, hexDigit_eq ?_⟩, ?_⟩
  · have := b.isLt
    omega
  · omega
  · intro s a16 d n ah al cc out hd hn ha hsum hout
    obtain rfl := eq_be16_of_toNat ha
    have hn0 : n.toNat ≠ 0 := fun h => hn (BitVec.eq_of_toNat_eq h)
    have hlt := n.isLt
    have hle : d.length ≤ 255 := by omega
    have hal := al.isLt
    have hcc : cc = recordChecksum 0x00 (be16 ah al) d := by
      refine eq_recordChecksum hle ?_
      have htype : (0x00 : Byte).toNat = 0 := rfl
      rw [be16_toNat, htype]
      omega
    have hbc : BitVec.ofNat 8 d.length = n := by rw [hd, BitVec.ofNat_toNat, BitVec.setWidth_eq]
    have hzero : hex2 0#8 = [0x30, 0x30] := by decide
    rw [exec_emitData (by omega) hle, recordLine, hexBytes_append, ← hcc]
    refine emit_next.2 ⟨out, hout, ?_⟩
    simp [State.withHic, recordBytes, hexBytes, hbc, hzero, hexBytes_eq_flatMap]

/-- Settles O52: EMIT.EOF is one append of the fixed line. -/
theorem emitEofWritesTheFixedLine : Obligations.EmitEofWritesTheFixedLine := by
  unfold Obligations.EmitEofWritesTheFixedLine
  exact fun s out hout => emit_next.2 ⟨out, hout, rfl⟩

end Sys2Proof.Machine

/-! # Firings of the receive machine (O15, O16, O18, O20, O24)

The equations of RX.START, RX.LEN and RX.PAYLOAD, by what the stream does next. With them every row
has its equations, and O24 is a case per waiting state: four states compare one byte, one takes two
bytes, one takes `LEN` bytes. -/

namespace Sys2Proof.Machine

/-! ## Reads -/

/-- Settles O15: `takeBytes_cases`, and that a read changes the stream only. -/
theorem streamReadConsumesInOrder : Obligations.StreamReadConsumesInOrder := by
  unfold Obligations.StreamReadConsumesInOrder
  intro n s t r h
  obtain ⟨rfl, rfl⟩ := Prod.mk.inj h
  exact ⟨rfl, takeBytes_cases n s.env.rx⟩

section
variable {s : State} {q : List RxItem}

/-- A stream that holds `bs` next gives `bs` (R42). -/
theorem streamRead_bytes {bs : List Byte} {n : Nat} (hn : bs.length = n)
    (h : s.env.rx = bs.map .byte ++ q) :
    streamRead n s = (bs, s.withEnv { s.env with rx := q }) := by
  rw [streamRead, h, ← hn, takeBytes_bytes]

/-- Bytes and then a timeout, fewer than asked: a short read that consumes them and the timeout. -/
theorem takeBytes_stall (bs : List Byte) {n : Nat} (h : bs.length < n) (q : List RxItem) :
    takeBytes n (bs.map .byte ++ .stall :: q) = (bs, q) := by
  induction bs generalizing n with
  | nil =>
    obtain ⟨m, rfl⟩ := Nat.exists_eq_add_of_lt h
    simp [takeBytes]
  | cons b bs ih =>
    cases n with
    | zero => cases h
    | succ m => simp [takeBytes, ih (Nat.lt_of_succ_lt_succ h)]

/-- Fewer bytes than asked and then nothing: a short read that empties the stream. -/
theorem takeBytes_dry (bs : List Byte) {n : Nat} (h : bs.length < n) :
    takeBytes n (bs.map .byte) = (bs, []) := by
  induction bs generalizing n with
  | nil =>
    obtain ⟨m, rfl⟩ := Nat.exists_eq_add_of_lt h
    simp [takeBytes]
  | cons b bs ih =>
    cases n with
    | zero => cases h
    | succ m => simp [takeBytes, ih (Nat.lt_of_succ_lt_succ h)]

end

/-! ## RX.START and RX.LEN -/

/-- Settles O16, by what the stream does next. -/
theorem rxStartAcceptsTheStartMarker : Obligations.RxStartAcceptsTheStartMarker := by
  unfold Obligations.RxStartAcceptsTheStartMarker
  intro s q
  refine ⟨fun h => ?accepted, fun b hb h => ?mismatch, exec_of_stall rfl, exec_of_dry rfl⟩
  case accepted =>
    simp only [exec, execRxStart, streamRead_one h, if_true]
    rfl
  case mismatch =>
    rw [exec_rxRestart (by decide)]
    simp only [exec, execRxStart, streamRead_one h, if_neg hb]
    rfl

/-- RX.LEN takes any two bytes as the length (R153). -/
theorem exec_rxLen_two {s : State} {q : List RxItem} {x hi lo : Byte} (hxacc : s.fte.xacc = some x)
    (h : s.env.rx = .byte hi :: .byte lo :: q) :
    exec .rxLen s = .next
      { s with fte := { s.fte with len := some (be16 hi lo), xacc := some (x ^^^ hi ^^^ lo),
                                   rxstate := .awaitToken },
               env := { s.env with rx := q } } := by
  have hread : streamRead 2 s = ([hi, lo], s.withEnv { s.env with rx := q }) :=
    streamRead_bytes (by simp) h
  simp [exec, execRxLen, hread, hxacc, State.withFte, State.withEnv]

/-- RX.LEN with fewer than two bytes is an RX.STALL (R153, D24). -/
theorem exec_rxLen_short {s u : State} {got : List Byte} (hread : streamRead 2 s = (got, u))
    (hshort : got.length < 2) : exec .rxLen s = exec (.rxStall 2 got.length) u := by
  rw [exec_rxStall hshort (by decide)]
  match got, hshort with
  | [], _ => simp [exec, execRxLen, hread]
  | [_], _ => simp [exec, execRxLen, hread]

/-- Settles O18, by what the stream does next. -/
theorem rxLenTakesTwoBytes : Obligations.RxLenTakesTwoBytes := by
  unfold Obligations.RxLenTakesTwoBytes
  intro s q x hxacc
  refine ⟨fun hi lo v hv h => ?_, fun hi h => ?_, fun hi h => ?_, fun h => ?_, fun h => ?_⟩
  · rw [eq_be16_of_toNat hv]
    exact exec_rxLen_two hxacc h
  · exact exec_rxLen_short (got := [hi]) (by rw [streamRead, h]; rfl) (by simp)
  · exact exec_rxLen_short (got := [hi]) (by rw [streamRead, h]; rfl) (by simp)
  · exact exec_rxLen_short (streamRead_stall 1 h) (by simp)
  · exact exec_rxLen_short (streamRead_dry 1 h) (by simp)

/-! ## RX.PAYLOAD -/

section
variable {s u : State} {q : List RxItem} {len : Half} {x : Byte} {p : List Byte}

/-- An empty payload issues no read (R155, D6). -/
theorem exec_rxPayload_empty (hlen : s.fte.len = some 0) :
    exec .rxPayload s =
      .next { s with fte := { s.fte with pay := some [], rxstate := .awaitChecksum } } := by
  simp only [exec, execRxPayload, hlen, need_some, if_true]
  rfl

theorem exec_rxPayload_full (hlen : s.fte.len = some len) (hxacc : s.fte.xacc = some x)
    (hne : len ≠ 0) (hp : p.length = len.toNat) (h : s.env.rx = p.map .byte ++ q) :
    exec .rxPayload s = .next
      { s with fte := { s.fte with pay := some p, xacc := some (x ^^^ xorBytes p),
                                   rxstate := .awaitChecksum },
               env := { s.env with rx := q } } := by
  have hnot : ¬ p.length < len.toNat := by omega
  simp only [exec, execRxPayload, hlen, need_some, if_neg hne, streamRead_bytes hp h, if_neg hnot,
    State.withEnv_fte, hxacc]
  rfl

/-- A payload read that ends early is an RX.STALL (R155, D24). -/
theorem exec_rxPayload_short (hlen : s.fte.len = some len)
    (hread : streamRead len.toNat s = (p, u)) (hshort : p.length < len.toNat) :
    exec .rxPayload s = exec (.rxStall len.toNat p.length) u := by
  have hne : len ≠ 0 := by
    rintro rfl
    exact absurd hshort (Nat.not_lt_zero _)
  rw [exec_rxStall hshort (Nat.le_of_lt_succ len.isLt)]
  simp only [exec, execRxPayload, hlen, need_some, if_neg hne, hread, if_pos hshort]

/-- Settles O20, by `LEN` and what the stream does next. -/
theorem rxPayloadReadsExactlyLenBytes : Obligations.RxPayloadReadsExactlyLenBytes := by
  unfold Obligations.RxPayloadReadsExactlyLenBytes
  intro s q len x p hlen hxacc
  refine ⟨fun h0 => ?_, fun hne hp h => ?_, fun hp h => ?_, fun hp h => ?_⟩
  · exact exec_rxPayload_empty (h0 ▸ hlen)
  · rw [foldl_xor_eq_xorBytes]
    exact exec_rxPayload_full hlen hxacc hne hp h
  · exact exec_rxPayload_short hlen (by rw [streamRead, h, takeBytes_stall p hp]; rfl) hp
  · exact exec_rxPayload_short hlen (by rw [streamRead, h, takeBytes_dry p hp]; rfl) hp

end

/-! ## The opcode table -/

/-- What O24 says of a firing of `rule` for which the byte `b` selects `row`. -/
def FollowsTable (s : State) (q : List RxItem) (b : Byte) (row rule : Instr) : Prop :=
  (∃ kind expected, row = .rxRestart kind b expected ∧ b ≠ expected ∧
      exec rule s = exec row { s with env := { s.env with rx := q } }) ∨
    (row = rule ∧ ∃ (got : List Byte) (t : State),
      got.length = bytesAsked s.fte ∧ s.env.rx = got.map .byte ++ t.env.rx ∧
      exec rule s = .next t ∧ t.fte.retry = s.fte.retry ∧
      acceptedNext s.fte.rxstate = some t.fte.rxstate) ∨
    (row = rule ∧ ∃ (got : List Byte) (u : State),
      streamRead (bytesAsked s.fte) s = (got, u) ∧ 0 < got.length ∧
      got.length < bytesAsked s.fte ∧
      exec rule s = exec (.rxStall (bytesAsked s.fte) got.length) u)

section
variable {s : State} {q : List RxItem} {b : Byte} {rule : Instr}

/-- A state that compares one byte takes it, or restarts. -/
theorem followsTable_compare {expected : Byte} {kind : EventKind} {t : State}
    (hrx : s.env.rx = .byte b :: q) (hasked : bytesAsked s.fte = 1)
    (hpass : s.env.rx = .byte expected :: q → exec rule s = .next t)
    (ht : t.env.rx = q ∧ t.fte.retry = s.fte.retry ∧
      acceptedNext s.fte.rxstate = some t.fte.rxstate)
    (hfail : ∀ b, b ≠ expected → s.env.rx = .byte b :: q → exec rule s =
      exec (.rxRestart kind b expected) { s with env := { s.env with rx := q } }) :
    FollowsTable s q b (if b = expected then rule else .rxRestart kind b expected) rule := by
  obtain ⟨hq, hretry, hnext⟩ := ht
  by_cases hb : b = expected
  · exact .inr (.inl ⟨if_pos hb, [b], t, hasked.symm, by rw [hrx, hq]; rfl, hpass (hb ▸ hrx),
      hretry, hnext⟩)
  · rw [if_neg hb]
    exact .inl ⟨kind, expected, rfl, hb, hfail b hb hrx⟩

/-- A state that takes whatever bytes come takes all it asks for, or stalls. -/
theorem followsTable_take (hrx : s.env.rx = .byte b :: q) (hpos : 0 < bytesAsked s.fte)
    (hfull : ∀ (got : List Byte) (q' : List RxItem), got.length = bytesAsked s.fte →
      s.env.rx = got.map .byte ++ q' →
        ∃ t, exec rule s = .next t ∧ t.env.rx = q' ∧ t.fte.retry = s.fte.retry ∧
          acceptedNext s.fte.rxstate = some t.fte.rxstate)
    (hshort : ∀ got u, streamRead (bytesAsked s.fte) s = (got, u) → got.length < bytesAsked s.fte →
      exec rule s = exec (.rxStall (bytesAsked s.fte) got.length) u) :
    FollowsTable s q b rule rule := by
  rcases takeBytes_cases (bytesAsked s.fte) s.env.rx with ⟨hlen, hq⟩ | ⟨hlen, -⟩
  · obtain ⟨t, hexec, hq', hretry, hnext⟩ := hfull _ _ hlen hq
    exact .inr (.inl ⟨rfl, _, t, hlen, by rw [hq']; exact hq, hexec, hretry, hnext⟩)
  · have hgot : 0 < (takeBytes (bytesAsked s.fte) s.env.rx).1.length := by
      obtain ⟨n, hn⟩ := Nat.exists_eq_succ_of_ne_zero hpos.ne'
      rw [hn, hrx, takeBytes]
      exact Nat.succ_pos _
    exact .inr (.inr ⟨rfl, _, _, rfl, hgot, hlen, hshort _ _ rfl hlen⟩)

/-- The registers of a legal machine in reception. -/
theorem Legal.receiveHolds (h : Legal s) (hact : s.act = .receive) : ReceiveHolds s.fte := by
  obtain ⟨-, -, -, hholds⟩ := h
  rwa [ActivityHolds, hact] at hholds

/-- The accumulators of a legal machine in reception fit its sequence byte. -/
theorem Legal.attemptHolds {c : Byte} (h : Legal s) (hact : s.act = .receive)
    (hseq : s.fte.seq = some c) : AttemptHolds s.fte c := by
  obtain ⟨⟨c', hseq', hattempt⟩, -⟩ := h.receiveHolds hact
  obtain rfl : c = c' := Option.some.inj (hseq.symm.trans hseq')
  exact hattempt

end

/-- Settles O24: a case per waiting state, each by the equations of its row. -/
theorem firingFollowsTheOpcodeTable : Obligations.FiringFollowsTheOpcodeTable := by
  unfold Obligations.FiringFollowsTheOpcodeTable
  intro s q b c x hlegal hact hwait hrx hseq hx
  have hattempt := hlegal.attemptHolds hact hseq
  suffices h : ∃ row rule, selectRx s.fte.rxstate c x b = some row ∧
      rxRule s.fte.rxstate = some rule ∧ FollowsTable s q b row rule from h
  cases hst : s.fte.rxstate with
  | awaitStart =>
    obtain ⟨hpass, hfail, -⟩ := rxStartAcceptsTheStartMarker s q
    exact ⟨_, _, rfl, rfl, followsTable_compare hrx (by rw [bytesAsked, hst]) hpass
      ⟨rfl, rfl, by rw [hst]; rfl⟩ hfail⟩
  | awaitSequence =>
    rw [AttemptHolds, hst] at hattempt
    obtain ⟨hpass, hfail, -⟩ := rxSeqAcceptsTheSequenceByte s q c _ hseq hattempt
    exact ⟨_, _, rfl, rfl, followsTable_compare hrx (by rw [bytesAsked, hst]) hpass
      ⟨rfl, rfl, by rw [hst]; rfl⟩ hfail⟩
  | awaitLength =>
    rw [AttemptHolds, hst] at hattempt
    have hasked : bytesAsked s.fte = 2 := by rw [bytesAsked, hst]
    refine ⟨_, _, rfl, rfl, followsTable_take hrx (by omega) ?_ ?_⟩
    · intro got q' hgot hq
      rw [hasked] at hgot
      obtain ⟨hi, lo, rfl⟩ := List.length_eq_two.1 hgot
      exact ⟨_, exec_rxLen_two hattempt hq, rfl, rfl, by rw [hst]; rfl⟩
    · rw [hasked]
      exact fun got u => exec_rxLen_short
  | awaitToken =>
    rw [AttemptHolds, hst] at hattempt
    obtain ⟨len, -, hxacc⟩ := hattempt
    obtain ⟨hpass, hfail, -⟩ := rxTokenAcceptsTheToken s q _ hxacc
    exact ⟨_, _, rfl, rfl, followsTable_compare hrx (by rw [bytesAsked, hst]) hpass
      ⟨rfl, rfl, by rw [hst]; rfl⟩ hfail⟩
  | awaitPayload =>
    rw [AttemptHolds, hst] at hattempt
    obtain ⟨len, hlen, hxacc⟩ := hattempt
    have hasked : bytesAsked s.fte = len.toNat := by rw [bytesAsked, hst, hlen]; rfl
    refine ⟨_, _, rfl, rfl, ?_⟩
    by_cases h0 : len = 0
    · subst h0
      exact .inr (.inl ⟨rfl, [], _, hasked.symm, by rfl, exec_rxPayload_empty hlen, rfl,
        by rw [hst]; rfl⟩)
    · have hpos : len.toNat ≠ 0 := fun h => h0 (BitVec.eq_of_toNat_eq h)
      refine followsTable_take hrx (by omega) ?_ ?_
      · intro got q' hgot hq
        exact ⟨_, exec_rxPayload_full hlen hxacc h0 (hgot.trans hasked) hq, rfl, rfl,
          by rw [hst]; rfl⟩
      · rw [hasked]
        exact fun got u => exec_rxPayload_short hlen
  | awaitChecksum =>
    rw [AttemptHolds, hst] at hattempt
    obtain ⟨len, p, -, hpay, -, -⟩ := hattempt
    obtain ⟨hpass, hfail, -⟩ := rxCsumAcceptsTheChecksum s q x p (hx hst) hpay
    exact ⟨_, _, rfl, rfl, followsTable_compare hrx (by rw [bytesAsked, hst]) hpass
      ⟨rfl, rfl, by rw [hst]; rfl⟩ hfail⟩
  | idle => simp [hst, isWaiting] at hwait
  | done => simp [hst, isWaiting] at hwait
  | failed => simp [hst, isWaiting] at hwait

end Sys2Proof.Machine

/-! # What a step can do

`step_move` is the one inversion of the step function: `Move` names every way a step can answer a
next state. The invariants and the safety statements below are case analyses of it. Its parts are
what a firing (`Firing`), a line of HEXDEC (`LineOutcome`) and a round of HEXENC's walk (`Round`)
can do. -/

namespace Sys2Proof.Machine

/-- The state with another rest of the RX stream. -/
abbrev State.withRx (s : State) (q : List RxItem) : State := s.withEnv { s.env with rx := q }

/-- The state with other host operations waiting. -/
abbrev State.withCmds (s : State) (cs : List HostOp) : State := s.withEnv { s.env with cmds := cs }

/-! ## A firing -/

/-- The registers after an accepted read of each waiting state (R151 to R156). -/
inductive Accepts (f : Fte) : Fte → Prop
  | start (hst : f.rxstate = .awaitStart) :
    Accepts f { f with xacc := some Config.START, rxstate := .awaitSequence }
  | seq {q x : Byte} (hst : f.rxstate = .awaitSequence) (hseq : f.seq = some q)
      (hxacc : f.xacc = some x) :
    Accepts f { f with xacc := some (x ^^^ q), rxstate := .awaitLength }
  | len {x : Byte} (hi lo : Byte) (hst : f.rxstate = .awaitLength) (hxacc : f.xacc = some x) :
    Accepts f { f with len := some (be16 hi lo), xacc := some (x ^^^ hi ^^^ lo),
                       rxstate := .awaitToken }
  | token {x : Byte} (hst : f.rxstate = .awaitToken) (hxacc : f.xacc = some x) :
    Accepts f { f with xacc := some (x ^^^ Config.TOKEN), rxstate := .awaitPayload }
  | noPayload (hst : f.rxstate = .awaitPayload) (hlen : f.len = some 0) :
    Accepts f { f with pay := some [], rxstate := .awaitChecksum }
  | payload {x : Byte} {n : Half} (p : List Byte) (hst : f.rxstate = .awaitPayload)
      (hlen : f.len = some n) (hp : p.length = n.toNat) (hxacc : f.xacc = some x) :
    Accepts f { f with pay := some p, xacc := some (x ^^^ xorBytes p), rxstate := .awaitChecksum }
  | csum {p : List Byte} (hst : f.rxstate = .awaitChecksum) (hpay : f.pay = some p) :
    Accepts f { f with result := some p, err := .none, rxstate := .done }

/-- What a firing does (R150): accept, forgive a mismatch, or fail with one of the two errors. -/
inductive Firing (s : State) : State → Prop
  | accepted (q : List RxItem) {f : Fte} (hf : Accepts s.fte f) :
    Firing s ((s.withRx q).withFte f)
  | forgiven (q : List RxItem) (info : FteInfo) {r : Nat} (hretry : s.fte.retry = some r)
      (hle : r + 1 ≤ Config.MAX_RETRY) :
    Firing s ((s.withRx q).withFte
      { s.fte with retry := some (r + 1), xacc := none, len := none, pay := none, info := some info,
                   rxstate := .awaitStart })
  | exhausted (q : List RxItem) (info : FteInfo) {r : Nat} (hretry : s.fte.retry = some r) :
    Firing s (((s.withRx q).withFte
      { s.fte with retry := some (r + 1), xacc := none, len := none, pay := none, info := some info,
                   rxstate := .failed, err := .retryExhausted }).withAct (.ret .fte))
  | timedOut (q : List RxItem) (info : FteInfo) :
    Firing s (((s.withRx q).withFte
      { s.fte with xacc := none, len := none, pay := none, info := some info, rxstate := .failed,
                   err := .timeout }).withAct (.ret .fte))

section
variable {s t : State}

theorem restart_firing {kind : EventKind} {b x : Byte} {q : List RxItem}
    (h : restart kind b x (s.withRx q) = .next t) : Firing s t := by
  obtain ⟨r, hretry, ⟨hle, rfl⟩ | ⟨-, rfl⟩⟩ := restart_next.1 h
  · exact .forgiven q _ hretry hle
  · exact .exhausted q _ hretry

theorem stall_firing {asked got : Nat} {q : List RxItem}
    (h : stall asked got (s.withRx q) = .next t) : Firing s t := by
  obtain ⟨r, -, rfl⟩ := stall_next.1 h
  exact .timedOut q _

/-- A read changes the rest of the stream, and nothing else (R42). -/
theorem streamRead_withRx {n : Nat} {got : List Byte} {s1 : State}
    (h : streamRead n s = (got, s1)) : ∃ q, s1 = s.withRx q :=
  ⟨_, (Prod.mk.inj h).2.symm⟩

theorem execRxStart_firing (hst : s.fte.rxstate = .awaitStart) (h : execRxStart s = .next t) :
    Firing s t := by
  unfold execRxStart at h
  rcases hread : streamRead 1 s with ⟨_ | ⟨b, _⟩, s1⟩ <;> rw [hread] at h <;>
    obtain ⟨q, rfl⟩ := streamRead_withRx hread
  · exact stall_firing h
  · dsimp only at h
    split_ifs at h
    · cases h
      exact .accepted q (.start hst)
    · exact restart_firing h

theorem execRxSeq_firing (hst : s.fte.rxstate = .awaitSequence) (h : execRxSeq s = .next t) :
    Firing s t := by
  unfold execRxSeq at h
  rcases hread : streamRead 1 s with ⟨_ | ⟨b, _⟩, s1⟩ <;> rw [hread] at h <;>
    obtain ⟨q, rfl⟩ := streamRead_withRx hread
  · exact stall_firing h
  · obtain ⟨c, hseq, h⟩ := need_next.1 h
    split_ifs at h with hb
    · obtain ⟨x, hxacc, h⟩ := need_next.1 h
      cases h
      exact .accepted q (hb ▸ .seq hst hseq hxacc)
    · exact restart_firing h

theorem execRxLen_firing (hst : s.fte.rxstate = .awaitLength) (h : execRxLen s = .next t) :
    Firing s t := by
  unfold execRxLen at h
  rcases hread : streamRead 2 s with ⟨_ | ⟨hi, _ | ⟨lo, _⟩⟩, s1⟩ <;> rw [hread] at h <;>
    obtain ⟨q, rfl⟩ := streamRead_withRx hread
  · exact stall_firing h
  · exact stall_firing h
  · obtain ⟨x, hxacc, h⟩ := need_next.1 h
    cases h
    exact .accepted q (.len hi lo hst hxacc)

theorem execRxToken_firing (hst : s.fte.rxstate = .awaitToken) (h : execRxToken s = .next t) :
    Firing s t := by
  unfold execRxToken at h
  rcases hread : streamRead 1 s with ⟨_ | ⟨b, _⟩, s1⟩ <;> rw [hread] at h <;>
    obtain ⟨q, rfl⟩ := streamRead_withRx hread
  · exact stall_firing h
  · dsimp only at h
    split_ifs at h
    · obtain ⟨x, hxacc, h⟩ := need_next.1 h
      cases h
      exact .accepted q (.token hst hxacc)
    · exact restart_firing h

theorem execRxPayload_firing (hst : s.fte.rxstate = .awaitPayload) (h : execRxPayload s = .next t) :
    Firing s t := by
  obtain ⟨n, hlen, h⟩ := need_next.1 h
  split_ifs at h with h0
  · cases h
    exact .accepted s.env.rx (.noPayload hst (h0 ▸ hlen))
  · rcases hread : streamRead n.toNat s with ⟨p, s1⟩
    have hle : p.length ≤ n.toNat := by
      have := takeBytes_length n.toNat s.env.rx
      rwa [show (takeBytes n.toNat s.env.rx).1 = p from (Prod.mk.inj hread).1] at this
    rw [hread] at h
    obtain ⟨q, rfl⟩ := streamRead_withRx hread
    dsimp only at h
    split_ifs at h with hshort
    · exact stall_firing h
    · obtain ⟨x, hxacc, h⟩ := need_next.1 h
      cases h
      exact .accepted q (.payload p hst hlen (hle.antisymm (Nat.not_lt.1 hshort)) hxacc)

theorem execRxCsum_firing (hst : s.fte.rxstate = .awaitChecksum) (h : execRxCsum s = .next t) :
    Firing s t := by
  unfold execRxCsum at h
  rcases hread : streamRead 1 s with ⟨_ | ⟨b, _⟩, s1⟩ <;> rw [hread] at h <;>
    obtain ⟨q, rfl⟩ := streamRead_withRx hread
  · exact stall_firing h
  · obtain ⟨x, -, h⟩ := need_next.1 h
    split_ifs at h
    · obtain ⟨p, hpay, h⟩ := need_next.1 h
      cases h
      exact .accepted q (.csum hst hpay)
    · exact restart_firing h

/-- Every rule of the receive machine is a firing (R150). -/
theorem exec_firing {i : Instr} (hrule : rxRule s.fte.rxstate = some i) (h : exec i s = .next t) :
    Firing s t := by
  cases hst : s.fte.rxstate <;> rw [hst] at hrule <;> cases hrule
  case awaitStart => exact execRxStart_firing hst h
  case awaitSequence => exact execRxSeq_firing hst h
  case awaitLength => exact execRxLen_firing hst h
  case awaitToken => exact execRxToken_firing hst h
  case awaitPayload => exact execRxPayload_firing hst h
  case awaitChecksum => exact execRxCsum_firing hst h

theorem rxRule_isSome (st : RxState) : (rxRule st).isSome = isWaiting st := by cases st <;> rfl

/-- A step in reception fires a waiting state, or returns (R150). -/
theorem step_receive (hreset : s.env.resetReq = false) (hact : s.act = .receive)
    (h : step s = .next t) :
    (isWaiting s.fte.rxstate = true ∧ Firing s t) ∨
      (isWaiting s.fte.rxstate = false ∧ t = finish .fte s) := by
  have hwait := rxRule_isSome s.fte.rxstate
  cases hrule : rxRule s.fte.rxstate with
  | some i =>
    rw [step_firing hreset hact hrule] at h
    rw [hrule] at hwait
    exact .inl ⟨hwait.symm, exec_firing hrule h⟩
  | none =>
    rw [step_of_outcome (fetch_received hreset hact hrule)] at h
    rw [hrule] at hwait
    cases h
    exact .inr ⟨hwait.symm, rfl⟩

end

/-! ## A line of HEXDEC -/

/-- The registers `h` may follow `g` in HEXDEC's line loop. -/
structure KeepsLoop (g h : Hic) : Prop where
  err : h.err = g.err
  lineNo : g.lineNo.isSome → h.lineNo.isSome
  offset : g.offset.isSome → h.offset.isSome
  len : g.img.len ≤ h.img.len
  wf : g.img.wf = true → h.img.wf = true

/-- The registers `h` hold the Image, `EAB` and `OFFSET` of `g` (R188). -/
structure KeepsImage (g h : Hic) : Prop where
  img : h.img = g.img
  eab : h.eab = g.eab
  offset : h.offset = g.offset

/-- What a line does: HEXDEC goes on, or the line raises an error and has no other effect (R188,
R250). -/
inductive LineOutcome (s : State) : State → Prop
  | goesOn {h : Hic} (hkeeps : KeepsLoop s.hic h) : LineOutcome s (s.withHic h)
  | raises {h : Hic} {e : ErrCode} (info : HicInfo) (hkeeps : KeepsImage s.hic h)
      (hunit : e.ofHic = true) (hne : e ≠ .none) :
    LineOutcome s ((s.withHic { h with err := e, info := some info }).withAct (.ret .hic))

section
variable {s t : State}

/-- Registers that differ in what no line depends on have the same outcomes. -/
theorem LineOutcome.of_withHic {h : Hic} (hloop : KeepsLoop s.hic h) (himage : KeepsImage s.hic h)
    (hline : LineOutcome (s.withHic h) t) : LineOutcome s t := by
  cases hline with
  | goesOn hk =>
    exact .goesOn ⟨hk.err.trans hloop.err, hk.lineNo ∘ hloop.lineNo, hk.offset ∘ hloop.offset,
      hloop.len.trans hk.len, hk.wf ∘ hloop.wf⟩
  | raises info hk hunit hne =>
    exact .raises info ⟨hk.img.trans himage.img, hk.eab.trans himage.eab,
      hk.offset.trans himage.offset⟩ hunit hne

theorem raiseLine_outcome {e : ErrCode} (hunit : e.ofHic = true) (hne : e ≠ .none)
    (h : raiseLine e s = .next t) : LineOutcome s t := by
  obtain ⟨n, l, -, -, rfl⟩ := raiseLine_next.1 h
  exact .raises _ ⟨rfl, rfl, rfl⟩ hunit hne

/-- Latching a record's fields is no effect a line depends on. -/
theorem LineOutcome.of_latchRecord {ty : Byte} {addr : Half} {data : List Byte}
    (h : LineOutcome (latchRecord ty addr data s) t) : LineOutcome s t :=
  .of_withHic (h := s.hic.latch (goodRecord ty addr data)) ⟨rfl, id, id, le_rfl, id⟩
    ⟨rfl, rfl, rfl⟩ h

theorem storeRecord_outcome {a n : Nat} {d : List Byte} (h : storeRecord a n d s = .next t) :
    LineOutcome s t := by
  rcases storeRecord_next.1 h with ⟨g, m, hgrow, hwrite, rfl⟩ | ⟨-, hraise⟩
  · refine .goesOn ⟨rfl, id, id, ?_, fun hw => memWrite_wf hwrite (imgGrow_wf hgrow hw)⟩
    obtain ⟨-, -, rfl⟩ := memWrite_cases hwrite
    exact (imgGrow_len hgrow).symm ▸ le_max_left _ _
  · exact raiseLine_outcome rfl (by decide) hraise

theorem execRecData_outcome {addr : Half} {data : List Byte}
    (h : execRecData addr data s = .next t) : LineOutcome s t := by
  simp only [execRecData, ifWellFormed_next, need_next] at h
  obtain ⟨-, a, -, n, -, d, -, h⟩ := h
  obtain ⟨abs, h⟩ := withRecordAddress_next h
  exact .of_latchRecord (storeRecord_outcome h)

theorem execRecEof_outcome {addr : Half} {data : List Byte} (h : execRecEof addr data s = .next t) :
    LineOutcome s t := by
  cases (ifWellFormed_next.1 h).2
  exact .goesOn ⟨rfl, id, id, le_rfl, id⟩

theorem execRecEsa_outcome {addr : Half} {data : List Byte} (h : execRecEsa addr data s = .next t) :
    LineOutcome s t := by
  rcases withTwoBytes_next (ifWellFormed_next.1 h).2 with ⟨d0, d1, h⟩ | h
  · obtain ⟨off, -, h⟩ := need_next.1 h
    cases h
    exact .goesOn ⟨rfl, id, fun _ => rfl, le_rfl, id⟩
  · exact .of_latchRecord (raiseLine_outcome rfl (by decide) h)

theorem execRecEla_outcome {addr : Half} {data : List Byte} (h : execRecEla addr data s = .next t) :
    LineOutcome s t := by
  rcases withTwoBytes_next (ifWellFormed_next.1 h).2 with ⟨d0, d1, h⟩ | h
  · cases h
    exact .goesOn ⟨rfl, id, id, le_rfl, id⟩
  · exact .of_latchRecord (raiseLine_outcome rfl (by decide) h)

theorem execRecUnk_outcome {ty : Byte} {addr : Half} {data : List Byte}
    (h : execRecUnk ty addr data s = .next t) : LineOutcome s t := by
  obtain ⟨-, h⟩ := ifWellFormed_next.1 h
  dsimp only at h
  split at h
  · cases h
    exact .goesOn ⟨rfl, id, id, le_rfl, id⟩
  · exact .of_latchRecord (raiseLine_outcome rfl (by decide) h)

theorem exec_record_outcome {r : Record} (h : exec r.toInstr s = .next t) : LineOutcome s t := by
  unfold Record.toInstr at h
  split_ifs at h
  · exact execRecData_outcome h
  · exact execRecEof_outcome h
  · exact execRecEsa_outcome h
  · exact execRecEla_outcome h
  · exact execRecUnk_outcome h

theorem needFor_next {α : Type} {r : Reg} {o : Option α} {k : α → Selected} :
    runSelected (needFor r o k) = .next t ↔ ∃ v, o = some v ∧ runSelected (k v) = .next t := by
  cases o <;> simp [needFor, runSelected]

theorem lineErrCode_ofHic (e : LineError) :
    (lineErrCode e).ofHic = true ∧ lineErrCode e ≠ .none := by
  cases e <;> exact ⟨rfl, nofun⟩

/-- A piece is skipped, rejected or run as its record; its outcome is a line's (R180 to R187). -/
theorem nextPiece_outcome {x : Text} (h : runSelected (nextPiece x s) = .next t) :
    LineOutcome (s.withAct (.decode (cutLine x).2)) t := by
  obtain ⟨n, -, h⟩ := needFor_next.1 h
  dsimp only at h
  refine .of_withHic (s := s.withAct (.decode (cutLine x).2))
    (h := { s.hic with lineNo := some (n + 1), line := some (cutLine x).1 })
    ⟨rfl, fun _ => rfl, id, le_rfl, id⟩ ⟨rfl, rfl, rfl⟩ ?_
  split_ifs at h
  · cases h
    exact .goesOn ⟨rfl, id, id, le_rfl, id⟩
  · cases hdecode : decodeLine (cutLine x).1 with
    | error e =>
      rw [hdecode] at h
      obtain ⟨hunit, hne⟩ := lineErrCode_ofHic e
      exact (raiseLine_outcome hunit hne h).of_withHic
        ⟨by simp, by simp, by simp, by simp, by simp⟩ ⟨by simp, by simp, by simp⟩
    | ok r =>
      rw [hdecode] at h
      exact exec_record_outcome ((andThen_plain _).symm.trans h)

/-- A step inside HEXDEC's line loop. -/
theorem step_lineOutcome {x : Text} (hreset : s.env.resetReq = false)
    (hact : s.act = .decode (some x)) (h : step s = .next t) :
    LineOutcome (s.withAct (.decode (cutLine x).2)) t := by
  rw [step, fetch_decode hreset hact] at h
  exact nextPiece_outcome h

end

/-! ## A round of HEXENC's walk -/

/-- What a round of the walk does (R221): it appends one of the three lines. -/
inductive Round (elaDone : Bool) (s : State) : State → Prop
  | ela {a ls : Nat} {out : Text} (line : Text) (ha : s.hic.encA = some a)
      (hls : s.hic.encLs = some ls) (hout : s.hic.txtOut = some out) (hlt : a < s.hic.img.len)
      (hbound : atBoundary a = true) (hdone : elaDone = false) :
    Round elaDone s ((s.withHic { s.hic with txtOut := some (out ++ line) }).withAct (.encode true))
  | data {a ls : Nat} {out : Text} (line : Text) (ha : s.hic.encA = some a)
      (hls : s.hic.encLs = some ls) (hout : s.hic.txtOut = some out) (hlt : a < s.hic.img.len) :
    Round elaDone s ((s.withHic { s.hic with
      txtOut := some (out ++ line), encA := some (a + ls) }).withAct (.encode false))
  | eof {out : Text} (line : Text) (hout : s.hic.txtOut = some out) :
    Round elaDone s ((s.withHic { s.hic with txtOut := some (out ++ line) }).withAct (.ret .hic))

theorem nextLine_round {s t : State} {elaDone : Bool}
    (h : runSelected (nextLine elaDone s) = .next t) : Round elaDone s t := by
  obtain ⟨a, ha, h⟩ := needFor_next.1 h
  obtain ⟨ls, hls, h⟩ := needFor_next.1 h
  split_ifs at h with hlt hbound
  · obtain ⟨s1, hexec, h⟩ := andThen_next.1 h
    obtain ⟨out, hout, rfl⟩ := emit_next.1 (ifWellFormed_next.1 hexec).2
    cases h
    simp only [Bool.and_eq_true, Bool.not_eq_true'] at hbound
    obtain ⟨hboundary, hdone⟩ := hbound
    exact .ela _ ha hls hout hlt hboundary hdone
  · cases hread : memRead a (encodeCount ls a s.hic.img.len) s.hic.img with
    | none =>
      rw [hread] at h
      cases h
    | some d =>
      rw [hread] at h
      obtain ⟨s1, hexec, h⟩ := andThen_next.1 h
      obtain ⟨out, hout, rfl⟩ := emit_next.1 (ifWellFormed_next.1 hexec).2
      obtain ⟨a', ha', h⟩ := need_next.1 h
      obtain ⟨ls', hls', h⟩ := need_next.1 h
      obtain rfl : a = a' := Option.some.inj (ha.symm.trans ha')
      obtain rfl : ls = ls' := Option.some.inj (hls.symm.trans hls')
      cases h
      exact .data _ ha hls hout hlt
  · obtain ⟨s1, hexec, h⟩ := andThen_next.1 h
    obtain ⟨out, hout, rfl⟩ := emit_next.1 hexec
    cases h
    exact .eof _ hout

/-- A step inside HEXENC's walk. -/
theorem step_round {s t : State} {elaDone : Bool} (hreset : s.env.resetReq = false)
    (hact : s.act = .encode elaDone) (h : step s = .next t) : Round elaDone s t := by
  rw [step, fetch_encode hreset hact] at h
  exact nextLine_round h

/-! ## A step -/

/-- Everything a step does that answers a next state. -/
inductive Move (s : State) : State → Prop
  | reset (hreset : s.env.resetReq = true) : Move s (resetBlock s)
  | quiet (hact : s.act = .idle) : Move s s
  | sendrecv (cs : List HostOp) (q : Byte) {p : List Byte} (x : Nat) (hact : s.act = .idle)
      (hlen : p.length ≤ Config.MAX_PAYLOAD) :
    Move s (((s.withCmds cs).withFte (s.fte.startCall.latchCall q x p)).withAct (.transmit p))
  | tooLong (cs : List HostOp) (n : Nat) (hact : s.act = .idle) :
    Move s (((s.withCmds cs).withFte
      { s.fte.startCall with rxstate := .failed, err := .payloadTooLong,
                             info := some (.payloadLength n) }).withAct (.ret .fte))
  | hexdec (cs : List HostOp) (x : Text) (n : Nat) (hact : s.act = .idle) :
    Move s (((s.withCmds cs).withHic
      { s.hic with err := .none, info := none, offset := some n, lineNo := some 0 }).withAct
        (.decode (some x)))
  | hexenc (cs : List HostOp) {ls : Nat} (hact : s.act = .idle)
      (hdomain : encodeRefused ls s.hic.img.len = false) :
    Move s (((s.withCmds cs).withHic
      { s.hic with err := .none, info := none, txtOut := some [], encLs := some ls,
                   encA := some 0 }).withAct (.encode false))
  | refused (cs : List HostOp) (hact : s.act = .idle) :
    Move s (((s.withCmds cs).withHic
      { s.hic with err := .encodeRefused, info := none, txtOut := none }).withAct (.ret .hic))
  | transmit {p frame : List Byte} {x : Nat} (hact : s.act = .transmit p)
      (htmo : s.fte.tmo = some x) :
    Move s ((((streamWrite frame s).withEnv
      { (streamWrite frame s).env with streamTmo := some x }).withFte
        { s.fte with retry := some 0, rxstate := .awaitStart }).withAct .receive)
  | firing {t : State} (hact : s.act = .receive) (hwait : isWaiting s.fte.rxstate = true)
      (hfiring : Firing s t) : Move s t
  | received (hact : s.act = .receive) (hwait : isWaiting s.fte.rxstate = false) :
    Move s (finish .fte s)
  | piece {x : Text} {t : State} (hact : s.act = .decode (some x))
      (hline : LineOutcome (s.withAct (.decode (cutLine x).2)) t) : Move s t
  | decoded (hact : s.act = .decode none) : Move s (finish .hic s)
  | round {elaDone : Bool} {t : State} (hact : s.act = .encode elaDone)
      (hround : Round elaDone s t) : Move s t
  | ret {u : UnitName} (hact : s.act = .ret u) : Move s (finish u s)

section
variable {s t : State}

theorem execSendrecv_move {q : Byte} {p : List Byte} {x : Nat} {cs : List HostOp}
    (hact : s.act = .idle) (h : execSendrecv q p x (s.withCmds cs) = .next t) : Move s t := by
  obtain ⟨-, h⟩ := ifIdle_next.1 h
  split_ifs at h with hlen
  · cases h
    exact .tooLong cs p.length hact
  · cases h
    exact .sendrecv cs q x hact (Nat.not_lt.1 hlen)

theorem execHexenc_move {ls : Nat} {cs : List HostOp} (hact : s.act = .idle)
    (h : execHexenc ls (s.withCmds cs) = .next t) : Move s t := by
  obtain ⟨-, h⟩ := ifIdle_next.1 h
  dsimp only at h
  split_ifs at h with hdomain
  · cases h
    exact .refused cs hact
  · cases h
    exact .hexenc cs hact (Bool.eq_false_iff.2 hdomain)

theorem nextCommand_move (hact : s.act = .idle) (h : runSelected (nextCommand s) = .next t) :
    Move s t := by
  unfold nextCommand at h
  cases hcmds : s.env.cmds with
  | nil =>
    rw [hcmds] at h
    cases h
    exact .quiet hact
  | cons c cs =>
    rw [hcmds] at h
    replace h : exec c.toInstr (s.withCmds cs) = .next t := (andThen_plain _).symm.trans h
    cases c with
    | sendrecv q p x => exact execSendrecv_move hact h
    | hexdec x n =>
      cases (ifIdle_next.1 h).2
      exact .hexdec cs x n hact
    | hexenc ls => exact execHexenc_move hact h

theorem nextFrame_move {p : List Byte} (hact : s.act = .transmit p)
    (h : runSelected (nextFrame p s) = .next t) : Move s t := by
  obtain ⟨q, -, h⟩ := needFor_next.1 h
  obtain ⟨n, -, h⟩ := needFor_next.1 h
  obtain ⟨s1, hexec, h⟩ := andThen_next.1 h
  cases (ifWellFormed_next.1 hexec).2
  obtain ⟨x, htmo, rfl⟩ := startReceive_next.1 h
  exact .transmit hact htmo

/-- The inversion of the step function. -/
theorem step_move (h : step s = .next t) : Move s t := by
  cases hreset : s.env.resetReq with
  | true =>
    rw [step_reset hreset] at h
    cases h
    exact .reset hreset
  | false =>
    cases hact : s.act with
    | idle =>
      rw [step, fetch_idle hreset hact] at h
      exact nextCommand_move hact h
    | transmit p =>
      rw [step, fetch_transmit hreset hact] at h
      exact nextFrame_move hact h
    | receive =>
      rcases step_receive hreset hact h with ⟨hwait, hfiring⟩ | ⟨hwait, rfl⟩
      · exact .firing hact hwait hfiring
      · exact .received hact hwait
    | decode rest =>
      cases rest with
      | some x => exact .piece hact (step_lineOutcome hreset hact h)
      | none =>
        rw [step_of_outcome (fetch_decoded hreset hact)] at h
        cases h
        exact .decoded hact
    | encode elaDone => exact .round hact (step_round hreset hact h)
    | ret u =>
      rw [step_of_outcome (fetch_ret hreset hact)] at h
      cases h
      exact .ret hact

end

end Sys2Proof.Machine

/-! # What every step keeps (O4, O14, O25 to O27, O47, O53, O57)

The frames of the parts of a step, and then each statement as a case analysis of `Move`. -/

namespace Sys2Proof.Machine

/-! ## Frames -/

section
variable {s t : State}

theorem Firing.hic (h : Firing s t) : t.hic = s.hic := by cases h <;> rfl

theorem Firing.tx (h : Firing s t) : t.env.tx = s.env.tx := by cases h <;> rfl

theorem Firing.resetReq (h : Firing s t) : t.env.resetReq = s.env.resetReq := by cases h <;> rfl

theorem Accepts.seq_eq {f g : Fte} (h : Accepts f g) : g.seq = f.seq := by cases h <;> rfl

theorem Accepts.retry_eq {f g : Fte} (h : Accepts f g) : g.retry = f.retry := by cases h <;> rfl

theorem Accepts.not_failed {f g : Fte} (h : Accepts f g) : g.rxstate ≠ .failed := by
  cases h <;> exact nofun

theorem Firing.seq_eq (h : Firing s t) : t.fte.seq = s.fte.seq := by
  cases h with
  | accepted q hf => exact hf.seq_eq
  | _ => rfl

theorem LineOutcome.fte (h : LineOutcome s t) : t.fte = s.fte := by cases h <;> rfl

theorem LineOutcome.env (h : LineOutcome s t) : t.env = s.env := by cases h <;> rfl

theorem Round.fte {d : Bool} (h : Round d s t) : t.fte = s.fte := by cases h <;> rfl

theorem Round.env {d : Bool} (h : Round d s t) : t.env = s.env := by cases h <;> rfl

/-- A round of the walk reads the Image and writes the output text (R220, R73). -/
theorem Round.image {d : Bool} (h : Round d s t) : KeepsImage s.hic t.hic := by
  cases h <;> exact ⟨rfl, rfl, rfl⟩

@[simp] theorem finish_env (u : UnitName) (s : State) : (finish u s).env = s.env := by
  cases u <;> rfl

@[simp] theorem finish_act (u : UnitName) (s : State) : (finish u s).act = .idle := by
  cases u <;> rfl

@[simp] theorem finish_img (u : UnitName) (s : State) : (finish u s).hic.img = s.hic.img := by
  cases u <;> rfl

@[simp] theorem finish_rxstate (u : UnitName) (s : State) :
    (finish u s).fte.rxstate = s.fte.rxstate := by cases u <;> rfl

end

/-! ## The Image -/

/-- The Image is no shorter, and canonical when it was. -/
def ImageGrows (m m' : Memory) : Prop := m.len ≤ m'.len ∧ (m.wf = true → m'.wf = true)

theorem ImageGrows.of_eq {m m' : Memory} (h : m' = m) : ImageGrows m m' := by
  subst h
  exact ⟨le_rfl, id⟩

theorem LineOutcome.image {s t : State} (h : LineOutcome s t) : ImageGrows s.hic.img t.hic.img := by
  cases h with
  | goesOn hkeeps => exact ⟨hkeeps.len, hkeeps.wf⟩
  | raises info hkeeps => exact .of_eq hkeeps.img

/-- Only a line of HEXDEC and the reset event change the Image. -/
theorem step_image {s t : State} (hreset : s.env.resetReq = false) (h : step s = .next t) :
    ImageGrows s.hic.img t.hic.img := by
  cases step_move h with
  | reset hreset' => simp [hreset] at hreset'
  | firing _ _ hfiring => exact .of_eq (congrArg Hic.img hfiring.hic)
  | received | decoded | ret => exact .of_eq (finish_img _ _)
  | piece _ hline => exact hline.image
  | round _ hround => exact .of_eq hround.image.img
  | _ => exact .of_eq rfl

/-- Settles O4: `step_image`. -/
theorem imageNeverShrinks : Obligations.ImageNeverShrinks := by
  unfold Obligations.ImageNeverShrinks
  exact fun s t hreset h => (step_image hreset h).1

/-- Settles O57: `step_image`, and the empty Image of a reset. -/
theorem everyStepKeepsTheImageCanonical : Obligations.EveryStepKeepsTheImageCanonical := by
  unfold Obligations.EveryStepKeepsTheImageCanonical
  intro s t hw h
  cases hreset : s.env.resetReq with
  | true =>
    rw [step_reset hreset] at h
    cases h
    exact Memory.empty_wf
  | false => exact (step_image hreset h).2 hw

/-- Settles O47: the two outcomes of a line; the return raises nothing. -/
theorem offendingLineHasNoEffect : Obligations.OffendingLineHasNoEffect := by
  unfold Obligations.OffendingLineHasNoEffect
  intro s t rest hreset hact herr h hraised
  cases rest with
  | none =>
    rw [step_of_outcome (fetch_decoded hreset hact)] at h
    cases h
    exact absurd herr hraised
  | some x =>
    cases step_lineOutcome hreset hact h with
    | goesOn hkeeps => exact absurd (hkeeps.err.trans herr) hraised
    | raises info hkeeps =>
      exact ⟨hkeeps.img, hkeeps.eab, hkeeps.offset, rfl, info.lineNo, info.line, rfl⟩

/-- Settles O53: `Round.image`. -/
theorem hexencLeavesTheImage : Obligations.HexencLeavesTheImage := by
  unfold Obligations.HexencLeavesTheImage
  intro s t elaDone hreset hact h
  obtain ⟨himg, heab, hoffset⟩ := (step_round hreset hact h).image
  exact ⟨himg, heab, hoffset⟩

/-! ## The streams -/

/-- Settles O14: FRAME.TX is the one move that writes, a firing the one that reads. -/
theorem streamsAreTouchedOnlyByTheirRules : Obligations.StreamsAreTouchedOnlyByTheirRules := by
  unfold Obligations.StreamsAreTouchedOnlyByTheirRules
  intro s t h
  cases step_move h with
  | transmit hact => exact ⟨fun hnot => absurd hact (hnot _), fun _ => rfl⟩
  | firing hact hwait hfiring =>
    exact ⟨fun _ => hfiring.tx, fun hnot => absurd hwait (by simp [hnot hact])⟩
  | received | decoded | ret => simp
  | piece _ hline => simp [hline.env]
  | round _ hround => simp [hround.env]
  | _ => exact ⟨fun _ => rfl, fun _ => rfl⟩

/-! ## The registers of SENDRECV -/

/-- Settles O25: a firing that forgives or fails adds one; everything else is a start, a return or a
frame. -/
theorem retryGrowsOnlyByRestart : Obligations.RetryGrowsOnlyByRestart := by
  unfold Obligations.RetryGrowsOnlyByRestart
  intro s t r hreset hretry h
  cases step_move h with
  | reset hreset' => simp [hreset] at hreset'
  | transmit hact => exact .inr (.inr (.inl ⟨rfl, _, hact⟩))
  | firing hact hwait hfiring =>
    cases hfiring with
    | accepted q hf => exact .inl (hf.retry_eq.trans hretry)
    | forgiven q info hretry' hle =>
      obtain rfl := Option.some.inj (hretry.symm.trans hretry')
      exact .inr (.inl ⟨rfl, hact, hwait, .inl rfl⟩)
    | exhausted q info hretry' =>
      obtain rfl := Option.some.inj (hretry.symm.trans hretry')
      exact .inr (.inl ⟨rfl, hact, hwait, .inr ⟨rfl, rfl⟩⟩)
    | timedOut q info => exact .inl hretry
  | received hact => exact .inr (.inr (.inr ⟨rfl, by rw [hact]; rfl, rfl⟩))
  | @ret u hact =>
    cases u with
    | fte => exact .inr (.inr (.inr ⟨rfl, by rw [hact]; rfl, rfl⟩))
    | hic => exact .inl hretry
  | piece _ hline => exact .inl (hline.fte ▸ hretry)
  | round _ hround => exact .inl (hround.fte ▸ hretry)
  | _ => exact .inl hretry

/-- Settles O26: no move of an operation in progress writes `SEQ` but the return. -/
theorem sequenceByteIsNeverAdvanced : Obligations.SequenceByteIsNeverAdvanced := by
  unfold Obligations.SequenceByteIsNeverAdvanced
  intro s t c hreset hbusy hseq h
  cases step_move h with
  | reset hreset' => simp [hreset] at hreset'
  | sendrecv _ _ _ hact => exact absurd hact hbusy
  | firing _ _ hfiring => exact .inl (hfiring.seq_eq.trans hseq)
  | received => exact .inr ⟨rfl, rfl⟩
  | @ret u _ =>
    cases u with
    | fte => exact .inr ⟨rfl, rfl⟩
    | hic => exact .inl hseq
  | piece _ hline => exact .inl (hline.fte ▸ hseq)
  | round _ hround => exact .inl (hround.fte ▸ hseq)
  | _ => exact .inl hseq

/-- Settles O27: a firing that fails and the refusal of a payload are the moves into `Failed`. -/
theorem failedIsEnteredOnlyByAnError : Obligations.FailedIsEnteredOnlyByAnError := by
  unfold Obligations.FailedIsEnteredOnlyByAnError
  intro s t h hbefore hafter
  cases step_move h with
  | tooLong _ _ hact => exact .inr ⟨hact, rfl⟩
  | firing hact _ hfiring =>
    cases hfiring with
    | accepted q hf => exact absurd hafter hf.not_failed
    | forgiven => cases hafter
    | exhausted => exact .inl ⟨hact, .inr rfl⟩
    | timedOut => exact .inl ⟨hact, .inl rfl⟩
  | reset | transmit => cases hafter
  | received | decoded | ret => exact absurd hafter (by rwa [finish_rxstate])
  | piece _ hline => exact absurd (hline.fte ▸ hafter) hbefore
  | round _ hround => exact absurd (hround.fte ▸ hafter) hbefore
  | _ => exact absurd hafter hbefore

end Sys2Proof.Machine

/-! # The invariant (O58)

`Legal` is split into a part for each unit, both read at the activity. A move of one unit leaves the
other unit's registers, and that unit is at rest before and after, so each move is a statement about
one unit. -/

namespace Sys2Proof.Machine

/-! ## The invariant by units -/

/-- What `ActivityHolds` says of the FTE. -/
def FteHolds (f : Fte) : Activity → Prop
  | .transmit payload => TransmitHolds f payload
  | .receive => ReceiveHolds f
  | .idle | .decode _ | .encode _ | .ret _ => FteSettled f

/-- What `ActivityHolds` says of the HIC. -/
def HicHolds (h : Hic) : Activity → Prop
  | .decode _ => DecodeHolds h
  | .encode elaDone => EncodeHolds h elaDone
  | .idle | .transmit _ | .receive | .ret _ => True

/-- The FTE's part of `Legal`. -/
structure FteLegal (f : Fte) (a : Activity) : Prop where
  err : f.err.ofFte = true
  transient : fteBusy a = false → f.clearTransient = f
  holds : FteHolds f a

/-- The HIC's part of `Legal`. -/
structure HicLegal (h : Hic) (a : Activity) : Prop where
  img : h.img.wf = true
  err : h.err.ofHic = true
  transient : hicBusy a = false → h.clearTransient = h
  holds : HicHolds h a

theorem activityHolds_iff (s : State) :
    ActivityHolds s ↔ FteHolds s.fte s.act ∧ HicHolds s.hic s.act := by
  unfold ActivityHolds
  cases s.act <;> simp [FteHolds, HicHolds]

theorem legal_iff (s : State) : Legal s ↔ FteLegal s.fte s.act ∧ HicLegal s.hic s.act := by
  rw [Legal, OwnErrorCodes, TransientOutside, activityHolds_iff]
  constructor
  · rintro ⟨hw, ⟨hfe, hhe⟩, ⟨hft, hht⟩, hf, hh⟩
    exact ⟨⟨hfe, hft, hf⟩, hw, hhe, hht, hh⟩
  · rintro ⟨⟨hfe, hft, hf⟩, hw, hhe, hht, hh⟩
    exact ⟨hw, ⟨hfe, hhe⟩, ⟨hft, hht⟩, hf, hh⟩

/-! ## A unit at rest -/

theorem FteHolds.settled {f : Fte} {a : Activity} (ha : fteBusy a = false) (h : FteHolds f a) :
    FteSettled f := by
  cases a with
  | transmit | receive => cases ha
  | _ => exact h

/-- At rest the FTE is legal whatever the HIC does. -/
theorem FteLegal.at_rest {f : Fte} {a a' : Activity} (ha : fteBusy a = false)
    (ha' : fteBusy a' = false) (h : FteLegal f a) : FteLegal f a' := by
  refine ⟨h.err, fun _ => h.transient ha, ?_⟩
  have hsettled := h.holds.settled ha
  cases a' with
  | transmit | receive => cases ha'
  | _ => exact hsettled

/-- At rest the HIC is legal whatever the FTE does. -/
theorem HicLegal.at_rest {h : Hic} {a a' : Activity} (ha : hicBusy a = false)
    (ha' : hicBusy a' = false) (hl : HicLegal h a) : HicLegal h a' := by
  refine ⟨hl.img, hl.err, fun _ => hl.transient ha, ?_⟩
  cases a' with
  | decode | encode => cases ha'
  | _ => trivial

/-- The transient registers that the FTE drops are none of those a settled FTE is about. -/
theorem FteLegal.returned {f : Fte} (herr : f.err.ofFte = true) (h : FteSettled f) :
    FteLegal f.clearTransient .idle :=
  ⟨herr, fun _ => rfl, h⟩

theorem HicLegal.returned {h : Hic} {a : Activity} (hl : HicLegal h a) :
    HicLegal h.clearTransient .idle :=
  ⟨hl.img, hl.err, fun _ => rfl, trivial⟩

/-! ## The moves of the FTE -/

section
variable {f g : Fte} {q : Byte}

/-- An accepted read extends what the accumulators hold by the bytes read (R93, R151 to R156). -/
theorem AttemptHolds.accept (h : AttemptHolds f q) (hseq : f.seq = some q) (hg : Accepts f g) :
    AttemptHolds g q := by
  cases hg with
  | start hst => rfl
  | seq hst hseq' hxacc =>
    simp only [AttemptHolds, hst] at h
    obtain rfl := Option.some.inj (hseq.symm.trans hseq')
    obtain rfl := Option.some.inj (h.symm.trans hxacc)
    simp [AttemptHolds]
  | len hi lo hst hxacc =>
    simp only [AttemptHolds, hst] at h
    obtain rfl := Option.some.inj (h.symm.trans hxacc)
    exact ⟨be16 hi lo, rfl, by simp [BitVec.xor_assoc]⟩
  | token hst hxacc =>
    simp only [AttemptHolds, hst] at h
    obtain ⟨n, hlen, hx⟩ := h
    obtain rfl := Option.some.inj (hx.symm.trans hxacc)
    exact ⟨n, hlen, by simp [frameHeader, BitVec.xor_assoc]⟩
  | noPayload hst hlen =>
    simp only [AttemptHolds, hst] at h
    obtain ⟨n, hn, hx⟩ := h
    obtain rfl := Option.some.inj (hn.symm.trans hlen)
    exact ⟨0, [], hlen, rfl, rfl, by rw [List.append_nil]; exact hx⟩
  | payload p hst hlen hp hxacc =>
    simp only [AttemptHolds, hst] at h
    obtain ⟨n, hn, hx⟩ := h
    obtain rfl := Option.some.inj (hn.symm.trans hlen)
    obtain rfl := Option.some.inj (hx.symm.trans hxacc)
    exact ⟨n, p, hlen, rfl, hp, by rw [xorBytes_append]⟩
  | csum hst hpay => exact ⟨_, rfl⟩

theorem ReceiveHolds.accept (h : ReceiveHolds f) (hg : Accepts f g) : ReceiveHolds g := by
  obtain ⟨⟨q, hseq, hattempt⟩, ⟨x, htmo⟩, ⟨r, hretry, hle⟩, herr⟩ := h
  have htmo' : g.tmo = f.tmo := by cases hg <;> rfl
  have herr' : g.err = .none := by
    cases hg with
    | csum => rfl
    | _ => exact herr
  exact ⟨⟨q, hg.seq_eq.trans hseq, hattempt.accept hseq hg⟩, ⟨x, htmo'.trans htmo⟩,
    ⟨r, hg.retry_eq.trans hretry, hle⟩, herr'⟩

/-- A failure settles the FTE: `Failed` with an error code (R33, R159). -/
theorem FteSettled.of_failed (hst : f.rxstate = .failed) (herr : f.err ≠ .none) : FteSettled f := by
  refine ⟨by rw [hst]; rfl, ⟨fun _ => herr, fun _ => hst⟩, fun hdone => ?_⟩
  rw [hst] at hdone
  cases hdone

/-- Reception that has left the waiting states is in `Done`, with a result and no error. -/
theorem ReceiveHolds.settled (h : ReceiveHolds f) (hwait : isWaiting f.rxstate = false) :
    f.rxstate = .done ∧ FteSettled f := by
  obtain ⟨⟨q, -, hattempt⟩, -, -, herr⟩ := h
  have hdone : f.rxstate = .done := by
    cases hst : f.rxstate <;> simp [hst, isWaiting, AttemptHolds] at hwait hattempt ⊢
  simp only [AttemptHolds, hdone] at hattempt
  exact ⟨hdone, hwait, by simp [hdone, herr], fun _ => hattempt⟩

end

section
variable {s t : State}

/-- A firing keeps the FTE legal, and leaves it in reception or returning. -/
theorem Firing.legal (h : Firing s t) (hact : s.act = .receive) (hs : ReceiveHolds s.fte) :
    FteLegal t.fte t.act ∧ hicBusy t.act = false := by
  cases h with
  | accepted q hf =>
    have hg := hs.accept hf
    have ⟨_, _, _, herr⟩ := hg
    refine ⟨⟨by simp [herr, ErrCode.ofFte], by simp [hact, fteBusy], ?_⟩, by simp [hact, hicBusy]⟩
    simp only [FteHolds, State.withFte_act, State.withEnv_act, hact]
    exact hg
  | forgiven q info hretry hle =>
    obtain ⟨⟨c, hseq, -⟩, htmo, -, herr⟩ := hs
    refine ⟨⟨by simp [herr, ErrCode.ofFte], by simp [hact, fteBusy], ?_⟩, by simp [hact, hicBusy]⟩
    simp only [FteHolds, State.withFte_act, State.withEnv_act, hact]
    exact ⟨⟨c, hseq, trivial⟩, htmo, ⟨_, rfl, hle⟩, herr⟩
  | exhausted => exact ⟨⟨rfl, nofun, FteSettled.of_failed rfl nofun⟩, rfl⟩
  | timedOut => exact ⟨⟨rfl, nofun, FteSettled.of_failed rfl nofun⟩, rfl⟩

/-! ## The moves of the HIC -/

/-- A line keeps the HIC legal, in the line loop or returning. -/
theorem LineOutcome.legal {rest : Option Text} (h : LineOutcome (s.withAct (.decode rest)) t)
    (hs : HicLegal s.hic (.decode rest)) : HicLegal t.hic t.act ∧ fteBusy t.act = false := by
  have hwf := h.image.2 hs.img
  cases h with
  | goesOn hkeeps =>
    obtain ⟨⟨n, hn⟩, off, hoff⟩ := hs.holds
    have hn' := hkeeps.lineNo (by simp [hn])
    have hoff' := hkeeps.offset (by simp [hoff])
    exact ⟨⟨hwf, hkeeps.err ▸ hs.err, nofun,
      Option.isSome_iff_exists.1 hn', Option.isSome_iff_exists.1 hoff'⟩, rfl⟩
  | raises info hkeeps hunit hne => exact ⟨⟨hwf, hunit, nofun, trivial⟩, rfl⟩

/-- A round keeps the walk in its domain (R70, R220, R221). -/
theorem Round.legal {elaDone : Bool} (h : Round elaDone s t)
    (hs : HicLegal s.hic (.encode elaDone)) : HicLegal t.hic t.act ∧ fteBusy t.act = false := by
  obtain ⟨ls, a, out, hls, ha, hout, hdomain, hdvd, -⟩ := hs.holds
  cases h with
  | ela line ha' _ _ hlt hbound =>
    obtain rfl := Option.some.inj (ha.symm.trans ha')
    exact ⟨⟨hs.img, hs.err, nofun, ls, a, _, hls, ha, rfl, hdomain, hdvd,
      fun _ => ⟨hlt, hbound⟩⟩, rfl⟩
  | data line ha' hls' =>
    obtain rfl := Option.some.inj (ha.symm.trans ha')
    obtain rfl := Option.some.inj (hls.symm.trans hls')
    exact ⟨⟨hs.img, hs.err, nofun, ls, a + ls, _, hls, rfl, rfl, hdomain,
      (Nat.dvd_add_left (dvd_refl ls)).2 hdvd, nofun⟩, rfl⟩
  | eof => exact ⟨⟨hs.img, hs.err, nofun, trivial⟩, rfl⟩

/-! ## A step -/

/-- Every step from a legal state leads to a legal state. -/
theorem Legal.step (hs : Legal s) (h : step s = .next t) : Legal t := by
  obtain ⟨hfte, hhic⟩ := (legal_iff s).1 hs
  cases step_move h with
  | reset => exact legal_resetBlock s
  | quiet => exact hs
  | sendrecv cs q x hact hlen =>
    rw [hact] at hfte hhic
    have ⟨hwait, _, _⟩ := hfte.holds
    exact (legal_iff _).2 ⟨⟨rfl, nofun, ⟨q, rfl⟩, ⟨x, rfl⟩, rfl, hlen, rfl, hwait⟩,
      hhic.at_rest rfl rfl⟩
  | tooLong cs n hact =>
    rw [hact] at hhic
    exact (legal_iff _).2 ⟨⟨rfl, nofun, FteSettled.of_failed rfl nofun⟩, hhic.at_rest rfl rfl⟩
  | hexdec cs x n hact =>
    rw [hact] at hfte
    exact (legal_iff _).2 ⟨hfte.at_rest rfl rfl, hhic.img, rfl, nofun, ⟨0, rfl⟩, n, rfl⟩
  | hexenc cs hact hdomain =>
    rw [hact] at hfte
    exact (legal_iff _).2 ⟨hfte.at_rest rfl rfl, hhic.img, rfl, nofun,
      _, 0, [], rfl, rfl, rfl, hdomain, dvd_zero _, nofun⟩
  | refused cs hact =>
    rw [hact] at hfte
    exact (legal_iff _).2 ⟨hfte.at_rest rfl rfl, hhic.img, rfl, nofun, trivial⟩
  | transmit hact htmo =>
    rw [hact] at hfte hhic
    obtain ⟨⟨q, hseq⟩, hx, -, -, herr, -⟩ := hfte.holds
    exact (legal_iff _).2 ⟨⟨hfte.err, nofun, ⟨q, hseq, trivial⟩, hx, ⟨0, rfl, Nat.zero_le _⟩, herr⟩,
      hhic.at_rest rfl rfl⟩
  | firing hact _ hfiring =>
    rw [hact] at hhic
    obtain ⟨hfte', hbusy⟩ := hfiring.legal hact (hs.receiveHolds hact)
    exact (legal_iff t).2 ⟨hfte', hfiring.hic ▸ hhic.at_rest rfl hbusy⟩
  | received hact hwait =>
    rw [hact] at hhic
    obtain ⟨-, hsettled⟩ := (hs.receiveHolds hact).settled hwait
    exact (legal_iff _).2 ⟨.returned hfte.err hsettled, hhic.at_rest rfl rfl⟩
  | piece hact hline =>
    rw [hact] at hfte hhic
    obtain ⟨hhic', hbusy⟩ := hline.legal ⟨hhic.img, hhic.err, nofun, hhic.holds⟩
    exact (legal_iff t).2 ⟨hline.fte ▸ hfte.at_rest rfl hbusy, hhic'⟩
  | decoded hact =>
    rw [hact] at hfte
    exact (legal_iff _).2 ⟨hfte.at_rest rfl rfl, hhic.returned⟩
  | round hact hround =>
    rw [hact] at hfte hhic
    obtain ⟨hhic', hbusy⟩ := hround.legal hhic
    exact (legal_iff t).2 ⟨hround.fte ▸ hfte.at_rest rfl hbusy, hhic'⟩
  | @ret u hact =>
    rw [hact] at hfte hhic
    cases u with
    | fte => exact (legal_iff _).2 ⟨.returned hfte.err hfte.holds, hhic.at_rest rfl rfl⟩
    | hic => exact (legal_iff _).2 ⟨hfte.at_rest rfl rfl, hhic.returned⟩

end

/-- Settles O58: `Legal.step`. -/
theorem everyStepKeepsTheStateLegal : Obligations.EveryStepKeepsTheStateLegal := by
  unfold Obligations.EveryStepKeepsTheStateLegal
  exact fun s t hs h => hs.step h

end Sys2Proof.Machine

/-! # Progress (O28, O59)

From a legal state every register that a rule reads holds a value and every operand lies in its
range, so each row answers a next state. The receive machine's rows are taken from the opcode table
(O24) when a byte comes, and are an RX.STALL when none does. -/

namespace Sys2Proof.Machine

/-! ## The receive machine -/

section
variable {s u : State} {i : Instr} {r : Nat}

theorem exists_restart {kind : EventKind} (hkind : kind ≠ .shortRead)
    (hretry : s.fte.retry = some r) (b x : Byte) : ∃ t, exec (.rxRestart kind b x) s = .next t := by
  rw [exec_rxRestart hkind]
  by_cases hr : r + 1 ≤ Config.MAX_RETRY
  · exact ⟨_, restart_next.2 ⟨r, hretry, .inl ⟨hr, rfl⟩⟩⟩
  · exact ⟨_, restart_next.2 ⟨r, hretry, .inr ⟨Nat.not_le.1 hr, rfl⟩⟩⟩

/-- A mismatch that the opcode table selects is a framing mismatch (R157). -/
theorem selectRx_restart_kind {st : RxState} {c x b b' y : Byte} {kind : EventKind}
    (h : selectRx st c x b = some (.rxRestart kind b' y)) : kind ≠ .shortRead := by
  cases st <;> simp only [selectRx, reduceCtorEq, Option.some.injEq] at h
  all_goals
    split_ifs at h
    cases h
    exact nofun

theorem bytesAsked_le (f : Fte) : bytesAsked f ≤ Config.MAX_PAYLOAD := by
  unfold bytesAsked
  cases f.rxstate with
  | awaitPayload => exact Nat.le_of_lt_succ (BitVec.isLt _)
  | _ => exact Nat.le_of_ble_eq_true rfl

/-- In every waiting state a read that returns nothing is an RX.STALL (R158). -/
theorem exec_of_nothing_read (hrule : rxRule s.fte.rxstate = some i) (hasked : 0 < bytesAsked s.fte)
    (hread : streamRead (bytesAsked s.fte) s = ([], u)) :
    exec i s = exec (.rxStall (bytesAsked s.fte) 0) u := by
  cases hst : s.fte.rxstate <;> rw [hst] at hrule <;> cases hrule
  case awaitLength =>
    have h2 : bytesAsked s.fte = 2 := by rw [bytesAsked, hst]
    rw [h2] at hread ⊢
    exact exec_rxLen_short hread (by decide)
  case awaitPayload =>
    have hn : bytesAsked s.fte = (s.fte.len.getD 0).toNat := by rw [bytesAsked, hst]
    cases hlen : s.fte.len with
    | none => simp [hn, hlen] at hasked
    | some n =>
      replace hn : bytesAsked s.fte = n.toNat := by rw [hn, hlen, Option.getD_some]
      rw [hn] at hread hasked ⊢
      exact exec_rxPayload_short hlen hread hasked
  all_goals
    have h1 : bytesAsked s.fte = 1 := by rw [bytesAsked, hst]
    rw [h1] at hread ⊢
    exact exec_of_read_nothing rfl hread

/-- A stall's whole next state (R158). -/
theorem exec_of_nothing_read_next (hrule : rxRule s.fte.rxstate = some i)
    (hasked : 0 < bytesAsked s.fte) (hread : streamRead (bytesAsked s.fte) s = ([], u))
    (hretry : u.fte.retry = some r) :
    exec i s = .next ((u.withFte
      { u.fte with xacc := none, len := none, pay := none, rxstate := .failed, err := .timeout,
                   info := some (.event { kind := .shortRead, actual := 0,
                                          expected := bytesAsked s.fte, state := u.fte.rxstate,
                                          retry := r }) }).withAct (.ret .fte)) := by
  rw [exec_of_nothing_read hrule hasked hread, exec_rxStall hasked (bytesAsked_le _)]
  exact stall_next.2 ⟨r, hretry, rfl⟩

/-- A waiting state that asks for no byte waits for an empty payload (R155, D6). -/
theorem awaitPayload_of_asks_nothing (hwait : isWaiting s.fte.rxstate = true)
    (hs : ReceiveHolds s.fte) (h : bytesAsked s.fte = 0) :
    s.fte.rxstate = .awaitPayload ∧ s.fte.len = some 0 := by
  obtain ⟨⟨q, -, hattempt⟩, -⟩ := hs
  cases hst : s.fte.rxstate <;> simp only [bytesAsked, hst, reduceCtorEq] at h
  case awaitPayload =>
    simp only [AttemptHolds, hst] at hattempt
    obtain ⟨n, hlen, -⟩ := hattempt
    rw [hlen, Option.getD_some] at h
    exact ⟨rfl, hlen.trans (congrArg some (BitVec.eq_of_toNat_eq h))⟩
  all_goals simp [hst, isWaiting] at hwait

/-- A legal waiting state fires, whatever the stream does. -/
theorem Legal.firing_runs (hs : Legal s) (hact : s.act = .receive)
    (hrule : rxRule s.fte.rxstate = some i) : ∃ t, exec i s = .next t := by
  have hholds := hs.receiveHolds hact
  have ⟨⟨c, hseq, hattempt⟩, _, ⟨r, hretry, _⟩, _⟩ := hholds
  have hwait : isWaiting s.fte.rxstate = true := by rw [← rxRule_isSome, hrule]; rfl
  have hxacc : s.fte.rxstate = .awaitChecksum → s.fte.xacc = some (s.fte.xacc.getD 0) := by
    intro hst
    simp only [AttemptHolds, hst] at hattempt
    obtain ⟨n, p, -, -, -, hx⟩ := hattempt
    rw [hx, Option.getD_some]
  rcases Nat.eq_zero_or_pos (bytesAsked s.fte) with h0 | hpos
  · obtain ⟨hst, hlen⟩ := awaitPayload_of_asks_nothing hwait hholds h0
    rw [hst] at hrule
    cases hrule
    exact ⟨_, exec_rxPayload_empty hlen⟩
  obtain ⟨n, hn⟩ := Nat.exists_eq_succ_of_ne_zero hpos.ne'
  rcases hrx : s.env.rx with _ | ⟨b | _, q⟩
  · exact ⟨_, exec_of_nothing_read_next hrule hpos (by rw [hn]; exact streamRead_dry n hrx) hretry⟩
  · obtain ⟨row, rule, hrow, hrule', hcases⟩ :=
      firingFollowsTheOpcodeTable s q b c _ hs hact hwait hrx hseq hxacc
    obtain rfl := Option.some.inj (hrule.symm.trans hrule')
    rcases hcases with ⟨kind, y, rfl, -, hexec⟩ | ⟨-, got, t, -, -, hexec, -⟩ |
      ⟨-, got, u, hread, -, hshort, hexec⟩
    · rw [hexec]
      exact exists_restart (s := s.withRx q) (selectRx_restart_kind hrow) hretry b y
    · exact ⟨t, hexec⟩
    · obtain ⟨q', rfl⟩ := streamRead_withRx hread
      rw [hexec, exec_rxStall hshort (bytesAsked_le _)]
      exact ⟨_, stall_next.2 ⟨r, hretry, rfl⟩⟩
  · have hread : streamRead (bytesAsked s.fte) s = ([], s.withRx q) := by
      rw [hn]
      exact streamRead_stall n hrx
    exact ⟨_, exec_of_nothing_read_next hrule hpos hread hretry⟩

end

/-- Settles O28: a read from a dry stream returns nothing. -/
theorem emptyStreamTimesOut : Obligations.EmptyStreamTimesOut := by
  unfold Obligations.EmptyStreamTimesOut
  intro s hs hreset hact hwait hrx hasks
  have hholds := hs.receiveHolds hact
  have ⟨_, _, ⟨r, hretry, _⟩, _⟩ := hholds
  have hpos : 0 < bytesAsked s.fte :=
    Nat.pos_of_ne_zero fun h0 => hasks (awaitPayload_of_asks_nothing hwait hholds h0)
  obtain ⟨n, hn⟩ := Nat.exists_eq_succ_of_ne_zero hpos.ne'
  obtain ⟨i, hrule⟩ := Option.isSome_iff_exists.1 ((rxRule_isSome s.fte.rxstate).trans hwait)
  have hexec := exec_of_nothing_read_next hrule hpos (by rw [hn]; exact streamRead_dry n hrx) hretry
  exact ⟨_, (step_firing hreset hact hrule).trans hexec, rfl, rfl, rfl, rfl⟩

/-! ## The lines of HEXDEC -/

section
variable {s : State} {n off : Nat} {line : Text}

theorem exists_raiseLine (hn : s.hic.lineNo = some n) (hline : s.hic.line = some line)
    (e : ErrCode) : ∃ t, raiseLine e s = .next t :=
  ⟨_, raiseLine_next.2 ⟨n, line, hn, hline, rfl⟩⟩

theorem exists_storeRecord (hn : s.hic.lineNo = some n) (hline : s.hic.line = some line)
    (a : Nat) (data : List Byte) : ∃ t, storeRecord a data.length data s = .next t := by
  cases hgrow : imgGrow s.params.imgCap (a + data.length) s.hic.img with
  | some g => exact ⟨_, storeRecord_writes hgrow⟩
  | none =>
    obtain ⟨t, ht⟩ := exists_raiseLine hn hline .capacityExceeded
    exact ⟨t, storeRecord_next.2 (.inr ⟨hgrow, ht⟩)⟩

/-- A type-2 or type-4 record goes on with its two bytes, or raises. -/
theorem exists_withTwoBytes {ty : Byte} {addr : Half} {data : List Byte} {k : Byte → Byte → Out}
    (hn : s.hic.lineNo = some n) (hline : s.hic.line = some line)
    (hk : ∀ d0 d1, ∃ t, k d0 d1 = .next t) :
    ∃ t, withTwoBytes (latchRecord ty addr data s) k = .next t := by
  by_cases h2 : data.length = 2
  · obtain ⟨d0, d1, rfl⟩ := List.length_eq_two.1 h2
    rw [withTwoBytes_latchRecord_two]
    exact hk d0 d1
  · rw [withTwoBytes_latchRecord h2]
    exact exists_raiseLine (s := latchRecord ty addr data s) hn hline _

theorem exists_exec_record {r : Record} (hlen : r.data.length ≤ 255) (hn : s.hic.lineNo = some n)
    (hline : s.hic.line = some line) (hoff : s.hic.offset = some off) :
    ∃ t, exec r.toInstr s = .next t := by
  have hwf := toInstr_wellFormed hlen
  unfold Record.toInstr at hwf ⊢
  split_ifs at hwf ⊢
  · rw [exec_recData hlen hoff]
    exact exists_storeRecord (s := latchRecord 0x00 r.addr r.data s) hn hline _ _
  · exact ⟨_, exec_recEof hlen _ _⟩
  · simp only [exec, execRecEsa, ifWellFormed, hwf, if_true]
    exact exists_withTwoBytes hn hline fun d0 d1 => ⟨_, need_next.2 ⟨off, hoff, rfl⟩⟩
  · simp only [exec, execRecEla, ifWellFormed, hwf, if_true]
    exact exists_withTwoBytes hn hline fun d0 d1 => ⟨_, rfl⟩
  · simp only [Instr.wellFormed, Bool.and_eq_true, Bool.not_eq_true'] at hwf
    obtain ⟨-, hty⟩ := hwf
    cases hpolicy : s.params.unknownPolicy with
    | ignore => exact ⟨_, exec_recUnk_ignore hlen hty hpolicy _⟩
    | reject =>
      rw [exec_recUnk_reject hlen hty hpolicy]
      exact exists_raiseLine (s := latchRecord r.rtype r.addr r.data s) hn hline _

/-- HEXDEC's line loop goes on at every piece of the text. -/
theorem exists_step_decode {x : Text} (hreset : s.env.resetReq = false)
    (hact : s.act = .decode (some x)) (hs : DecodeHolds s.hic) : ∃ t, step s = .next t := by
  obtain ⟨⟨n, hn⟩, off, hoff⟩ := hs
  rcases hcut : cutLine x with ⟨line, rest⟩
  by_cases hempty : line = []
  · subst hempty
    exact ⟨_, step_emptyPiece hreset hact hn hcut⟩
  · cases hdecode : decodeLine line with
    | error e => exact ⟨_, step_rejectedLine hreset hact hn hcut hempty hdecode⟩
    | ok r =>
      obtain ⟨-, hlen, -⟩ := decodeLine_ok hdecode
      rw [step_acceptedLine hreset hact hn hcut hempty hdecode]
      exact exists_exec_record hlen rfl rfl hoff

/-! ## The walk of HEXENC -/

/-- The data line at an address of the Image has bytes to hold (R64, R221). -/
theorem exists_lineData {m : Memory} {a : Nat} (ls : Nat) (hlt : a < m.len) :
    ∃ d : List Byte, d.length = min ls (m.len - a) ∧
      ∀ k, k < d.length → m.get (a + k) = some (d.getD k 0) := by
  have hcount : a + min ls (m.len - a) ≤ m.len := by omega
  obtain ⟨-, hlen, hget⟩ := memRead_cases (memRead_some hcount)
  exact ⟨_, hlen, fun k hk => hget k (hlen ▸ hk)⟩

/-- HEXENC's walk goes on at every address of its domain. -/
theorem exists_step_encode {elaDone : Bool} (hreset : s.env.resetReq = false)
    (hact : s.act = .encode elaDone) (hs : EncodeHolds s.hic elaDone) : ∃ t, step s = .next t := by
  obtain ⟨ls, a, out, hls, ha, hout, hdomain, -, -⟩ := hs
  obtain ⟨h1, h255, hlen, -⟩ := encodeRefused_eq_false_iff.1 hdomain
  obtain ⟨hela, hdata, heof⟩ := walkEmitsTheImageInOrder s a ls elaDone out hreset hact ha hls hout
  by_cases hend : s.hic.img.len ≤ a
  · obtain ⟨_, -, hstep⟩ := heof hend
    exact ⟨_, hstep⟩
  have hlt : a < s.hic.img.len := Nat.not_le.1 hend
  by_cases hbound : a = 0 ∨ a % 65536 ≠ 0 ∨ elaDone = true
  · obtain ⟨d, hdlen, hget⟩ := exists_lineData ls hlt
    obtain ⟨_, -, hstep⟩ := hdata (encodeLow a) d hlt hbound h1 h255 (BitVec.toNat_ofNat _ _)
      hdlen hget
    exact ⟨_, hstep⟩
  · push Not at hbound
    obtain ⟨hpos, hmod, hdone⟩ := hbound
    have hhigh : (encodeHigh a).toNat = a / 65536 := by
      rw [encodeHigh, BitVec.toNat_ofNat]
      omega
    obtain ⟨_, -, hstep⟩ := hela (encodeHigh a) hlt hlen (Nat.pos_of_ne_zero hpos) hmod
      (Bool.eq_false_iff.2 hdone) hhigh
    exact ⟨_, hstep⟩

end

/-! ## A step -/

section
variable {s : State}

theorem exists_exec_command (hact : s.act = .idle) (c : HostOp) :
    ∃ t, exec c.toInstr s = .next t := by
  cases c with
  | sendrecv q p x =>
    rcases Nat.lt_or_ge Config.MAX_PAYLOAD p.length with hlong | hlen
    · exact ⟨_, exec_sendrecv_tooLong hact hlong q x⟩
    · exact ⟨_, exec_sendrecv hact hlen q x⟩
  | hexdec x n => exact ⟨_, exec_hexdec hact x n⟩
  | hexenc ls =>
    cases hdomain : encodeRefused ls s.hic.img.len with
    | false => exact ⟨_, exec_hexenc hact hdomain⟩
    | true => exact ⟨_, exec_hexenc_refused hact hdomain⟩

/-- The request of a legal machine is sent (R130, R131). -/
theorem exists_step_transmit {p : List Byte} (hreset : s.env.resetReq = false)
    (hact : s.act = .transmit p) (hs : TransmitHolds s.fte p) : ∃ t, step s = .next t := by
  obtain ⟨⟨q, hseq⟩, ⟨x, htmo⟩, hlen, hmax, -⟩ := hs
  have hp : p.length = (BitVec.ofNat 16 p.length).toNat := by
    rw [BitVec.toNat_ofNat]
    exact (Nat.mod_eq_of_lt (Nat.lt_succ_of_le hmax)).symm
  exact ⟨_, requestIsSentAndReceptionStarts s q _ p x hreset hact hseq hlen htmo hp⟩

/-- A legal machine has a next state. -/
theorem Legal.stepsOn (hs : Legal s) : StepsOn s := by
  unfold StepsOn
  have ⟨_, _, _, hholds⟩ := hs
  cases hreset : s.env.resetReq with
  | true => exact ⟨_, step_reset hreset⟩
  | false =>
    unfold ActivityHolds at hholds
    cases hact : s.act with
    | idle =>
      cases hcmds : s.env.cmds with
      | nil => exact ⟨s, step_of_outcome (by rw [fetch_idle hreset hact, nextCommand, hcmds])⟩
      | cons c cs =>
        rw [step_command hreset hact hcmds]
        exact exists_exec_command (s := s.withCmds cs) hact c
    | transmit p =>
      rw [hact] at hholds
      exact exists_step_transmit hreset hact hholds
    | receive =>
      cases hrule : rxRule s.fte.rxstate with
      | some i =>
        rw [step_firing hreset hact hrule]
        exact hs.firing_runs hact hrule
      | none => exact ⟨_, step_of_outcome (fetch_received hreset hact hrule)⟩
    | decode rest =>
      rw [hact] at hholds
      cases rest with
      | some x => exact exists_step_decode hreset hact hholds.2
      | none => exact ⟨_, step_of_outcome (fetch_decoded hreset hact)⟩
    | encode elaDone =>
      rw [hact] at hholds
      exact exists_step_encode hreset hact hholds.2
    | ret u => exact ⟨_, step_of_outcome (fetch_ret hreset hact)⟩

end

/-- Settles O59: `Legal.stepsOn`. -/
theorem legalMachineNeverStops : Obligations.LegalMachineNeverStops := by
  unfold Obligations.LegalMachineNeverStops
  exact fun s hs => hs.stepsOn

end Sys2Proof.Machine

/-! # Runs (O29 to O31, O60)

A run of known steps is composed from `Reaches`. That an operation ends is one measure, `work`,
which every step of a legal machine in an operation lowers. -/

namespace Sys2Proof.Machine

/-! ## Composing runs -/

section
variable {s t u : State}

theorem Reaches.trans {j k : Nat} (h : Reaches j s t) (h' : Reaches k t u) :
    Reaches (j + k) s u := by
  induction j generalizing s with
  | zero =>
    obtain rfl : s = t := h
    rwa [Nat.zero_add]
  | succ j ih =>
    obtain ⟨v, hv, h⟩ := h
    rw [Nat.succ_add]
    exact ⟨v, hv, ih h⟩

theorem Reaches.step {k : Nat} (h : step s = .next t) (h' : Reaches k t u) : Reaches (k + 1) s u :=
  ⟨t, h, h'⟩

theorem reaches_one (h : Machine.step s = .next t) : Reaches 1 s t := ⟨t, h, rfl⟩

end

/-! ## Noise -/

section
variable {s : State} {q : List RxItem} {r : Nat}

theorem step_noise (hreset : s.env.resetReq = false) (hact : s.act = .receive)
    (hst : s.fte.rxstate = .awaitStart) {b : Byte}
    (hb : b ≠ Config.START) (hrx : s.env.rx = .byte b :: q) :
    step s = exec (.rxRestart .badStart b Config.START) (s.withRx q) := by
  obtain ⟨-, hmismatch, -⟩ := rxStartAcceptsTheStartMarker s q
  rw [step_firing hreset hact (by rw [hst]; rfl)]
  exact hmismatch b hb hrx

/-- Within the budget a noise byte is consumed and costs one retry (R151, R157). -/
theorem step_noise_forgiven (hreset : s.env.resetReq = false) (hact : s.act = .receive)
    (hst : s.fte.rxstate = .awaitStart) (hretry : s.fte.retry = some r) {b : Byte}
    (hb : b ≠ Config.START) (hrx : s.env.rx = .byte b :: q) (hr : r < 10) :
    ∃ info, step s = .next ((s.withRx q).withFte
      { s.fte with retry := some (r + 1), xacc := none, len := none, pay := none,
                   rxstate := .awaitStart, info := info }) := by
  obtain ⟨hforgiven, -⟩ := rxRestartForgivesTenMismatches (s.withRx q) .badStart b Config.START r
    (by decide) hretry
  exact ⟨_, (step_noise hreset hact hst hb hrx).trans (hforgiven hr)⟩

/-- Noise within the budget of ten leaves the machine in `AwaitStart` again, with what follows it
(R162). -/
theorem noise_reaches {noise : List Byte} (hreset : s.env.resetReq = false)
    (hact : s.act = .receive) (hst : s.fte.rxstate = .awaitStart) (hretry : s.fte.retry = some r)
    (hnoise : ∀ b ∈ noise, b ≠ Config.START) (hrx : s.env.rx = noise.map .byte ++ q)
    (hr : r + noise.length ≤ 10) :
    ∃ t, Reaches noise.length s t ∧ t.act = .receive ∧ t.fte.rxstate = .awaitStart ∧
      t.fte.retry = some (r + noise.length) ∧ t.fte.seq = s.fte.seq ∧
      t.env = { s.env with rx := q } ∧ t.hic = s.hic := by
  induction noise generalizing s r with
  | nil => exact ⟨s, rfl, hact, hst, hretry, rfl, by rw [← show s.env.rx = q from hrx], rfl⟩
  | cons b noise ih =>
    obtain ⟨hb, hnoise⟩ := List.forall_mem_cons.1 hnoise
    rw [List.length_cons] at hr
    obtain ⟨info, hstep⟩ := step_noise_forgiven hreset hact hst hretry hb hrx (by omega)
    obtain ⟨t, hreach, htact, htst, htretry, htseq, htenv, hthic⟩ :=
      ih (s := (s.withRx (noise.map .byte ++ q)).withFte
        { s.fte with retry := some (r + 1), xacc := none, len := none, pay := none,
                     rxstate := .awaitStart, info := info })
        (r := r + 1) hreset hact rfl rfl hnoise rfl (by omega)
    refine ⟨t, hreach.step hstep, htact, htst, ?_, htseq, htenv, hthic⟩
    rw [htretry, List.length_cons, Nat.add_right_comm, Nat.add_assoc]

/-- Settles O29: `noise_reaches`, and for the eleventh mismatch one more step. -/
theorem noiseBytesSpendTheRetryBudget : Obligations.NoiseBytesSpendTheRetryBudget := by
  unfold Obligations.NoiseBytesSpendTheRetryBudget
  intro s noise q r hreset hact hst hretry hnoise hrx
  constructor
  · intro hr
    obtain ⟨t, hreach, htact, htst, htretry, htseq, htenv, hthic⟩ :=
      noise_reaches hreset hact hst hretry hnoise hrx hr
    exact ⟨t, hreach, htact, htst, htretry, htseq, by rw [htenv], hthic⟩
  · intro hr h11
    obtain ⟨init, b, rfl⟩ := (List.eq_nil_or_concat' noise).resolve_left
      (by rintro rfl; simp only [List.length_nil] at h11; omega)
    rw [List.length_append, List.length_singleton] at h11
    obtain ⟨u, hreach, huact, hust, huretry, -, huenv, huhic⟩ :=
      noise_reaches (q := .byte b :: q) hreset hact hst hretry
        (fun c hc => hnoise c (List.mem_append_left _ hc)) (by rw [hrx]; simp) (by omega)
    obtain ⟨-, hexhausted⟩ := rxRestartForgivesTenMismatches (u.withRx q) .badStart b Config.START
      (r + init.length) (by decide) huretry
    have hstep := (step_noise (by rw [huenv]; exact hreset) huact hust (hnoise b (by simp))
      (by rw [huenv])).trans (hexhausted (by omega))
    rw [List.length_append]
    refine ⟨_, hreach.trans (reaches_one hstep), rfl, rfl, ?_, rfl, rfl, huhic⟩
    show some (r + init.length + 1) = some 11
    rw [show r + init.length + 1 = 11 by omega]

end

/-! ## One good frame -/

/-- RX.PAYLOAD with its `LEN` bytes next in the stream, none among them (R155). -/
theorem exec_rxPayload_whole {s : State} {q : List RxItem} {n : Half} {x : Byte} {p : List Byte}
    (hlen : s.fte.len = some n) (hxacc : s.fte.xacc = some x) (hp : p.length = n.toNat)
    (hrx : s.env.rx = p.map .byte ++ q) :
    exec .rxPayload s = .next
      { s with fte := { s.fte with pay := some p, xacc := some (x ^^^ xorBytes p),
                                   rxstate := .awaitChecksum },
               env := { s.env with rx := q } } := by
  by_cases h0 : n = 0
  · subst h0
    obtain rfl := List.length_eq_zero_iff.1 hp
    obtain rfl : s.env.rx = q := hrx
    have hsame : x ^^^ xorBytes [] = x := BitVec.xor_zero
    rw [exec_rxPayload_empty hlen, hsame, ← hxacc]
  · exact exec_rxPayload_full hlen hxacc h0 hp hrx

/-- The state `s` with the registers `f` of the FTE and the rest `q` of the stream. -/
def State.receiving (s : State) (f : Fte) (q : List RxItem) : State := (s.withRx q).withFte f

section
variable {s : State} {f : Fte} {q : List RxItem} (hreset : s.env.resetReq = false)
  (hact : s.act = .receive)
include hreset hact

theorem step_receiving {i : Instr} (hrule : rxRule f.rxstate = some i) :
    step (s.receiving f q) = exec i (s.receiving f q) :=
  step_firing (s := s.receiving f q) hreset hact hrule

theorem step_receiving_start (hst : f.rxstate = .awaitStart) :
    step (s.receiving f (.byte Config.START :: q)) = .next (s.receiving
      { f with xacc := some Config.START, rxstate := .awaitSequence } q) := by
  obtain ⟨hpass, -⟩ := rxStartAcceptsTheStartMarker (s.receiving f (.byte Config.START :: q)) q
  exact (step_receiving hreset hact (congrArg rxRule hst)).trans (hpass rfl)

theorem step_receiving_seq {c x : Byte} (hst : f.rxstate = .awaitSequence) (hseq : f.seq = some c)
    (hxacc : f.xacc = some x) :
    step (s.receiving f (.byte c :: q)) = .next (s.receiving
      { f with xacc := some (x ^^^ c), rxstate := .awaitLength } q) := by
  obtain ⟨hpass, -⟩ := rxSeqAcceptsTheSequenceByte (s.receiving f (.byte c :: q)) q c x hseq hxacc
  exact (step_receiving hreset hact (congrArg rxRule hst)).trans (hpass rfl)

theorem step_receiving_len {x : Byte} (n : Half) (hst : f.rxstate = .awaitLength)
    (hxacc : f.xacc = some x) :
    step (s.receiving f (.byte (hiByte n) :: .byte (loByte n) :: q)) = .next (s.receiving
      { f with len := some n, xacc := some (x ^^^ hiByte n ^^^ loByte n), rxstate := .awaitToken }
      q) := by
  have hexec := exec_rxLen_two (s := s.receiving f (.byte (hiByte n) :: .byte (loByte n) :: q))
    hxacc rfl
  rw [be16_hi_lo] at hexec
  exact (step_receiving hreset hact (congrArg rxRule hst)).trans hexec

theorem step_receiving_token {x : Byte} (hst : f.rxstate = .awaitToken) (hxacc : f.xacc = some x) :
    step (s.receiving f (.byte Config.TOKEN :: q)) = .next (s.receiving
      { f with xacc := some (x ^^^ Config.TOKEN), rxstate := .awaitPayload } q) := by
  obtain ⟨hpass, -⟩ := rxTokenAcceptsTheToken (s.receiving f (.byte Config.TOKEN :: q)) q x hxacc
  exact (step_receiving hreset hact (congrArg rxRule hst)).trans (hpass rfl)

theorem step_receiving_payload {x : Byte} {n : Half} {p : List Byte}
    (hst : f.rxstate = .awaitPayload) (hlen : f.len = some n) (hxacc : f.xacc = some x)
    (hp : p.length = n.toNat) :
    step (s.receiving f (p.map .byte ++ q)) = .next (s.receiving
      { f with pay := some p, xacc := some (x ^^^ xorBytes p), rxstate := .awaitChecksum } q) := by
  have hexec := exec_rxPayload_whole (s := s.receiving f (p.map .byte ++ q)) hlen hxacc hp rfl
  exact (step_receiving hreset hact (congrArg rxRule hst)).trans hexec

theorem step_receiving_csum {x : Byte} {p : List Byte} (hst : f.rxstate = .awaitChecksum)
    (hxacc : f.xacc = some x) (hpay : f.pay = some p) :
    step (s.receiving f (.byte x :: q)) = .next (s.receiving
      { f with result := some p, err := .none, rxstate := .done } q) := by
  obtain ⟨hpass, -⟩ := rxCsumAcceptsTheChecksum (s.receiving f (.byte x :: q)) q x p hxacc hpay
  exact (step_receiving hreset hact (congrArg rxRule hst)).trans (hpass rfl)

/-- Six firings take a whole frame with the sequence byte of the operation, from `AwaitStart` to
`Done`. -/
theorem frame_reaches {c : Byte} {n : Half} {p : List Byte} (hst : s.fte.rxstate = .awaitStart)
    (hseq : s.fte.seq = some c) (hp : p.length = n.toNat)
    (hrx : s.env.rx = (frameBytes c n p).map .byte ++ q) :
    ∃ t, Reaches 6 s t ∧ t.act = .receive ∧ t.fte.rxstate = .done ∧ t.fte.err = .none ∧
      t.fte.result = some p ∧ t.env = { s.env with rx := q } ∧ t.hic = s.hic := by
  have hsum : xorBytes (frameHeader c n ++ p) =
      Config.START ^^^ c ^^^ hiByte n ^^^ loByte n ^^^ Config.TOKEN ^^^ xorBytes p := by
    simp [frameHeader, BitVec.xor_assoc]
  have hs : s = s.receiving s.fte (.byte Config.START :: .byte c :: .byte (hiByte n) ::
      .byte (loByte n) :: .byte Config.TOKEN :: (p.map .byte ++ .byte
        (Config.START ^^^ c ^^^ hiByte n ^^^ loByte n ^^^ Config.TOKEN ^^^ xorBytes p) :: q)) := by
    rw [frameBytes_eq, hsum] at hrx
    simp only [frameHeader, List.cons_append, List.nil_append, List.map_cons, List.map_append,
      List.map_nil, List.append_assoc] at hrx
    rw [← hrx]
    rfl
  have hrun := Reaches.step ((congrArg step hs).trans (step_receiving_start hreset hact hst)) <|
    .step (step_receiving_seq hreset hact rfl hseq rfl) <|
    .step (step_receiving_len hreset hact n rfl rfl) <|
    .step (step_receiving_token hreset hact rfl rfl) <|
    .step (step_receiving_payload hreset hact rfl rfl rfl hp) <|
    reaches_one (step_receiving_csum hreset hact rfl rfl rfl)
  exact ⟨_, hrun, hact, rfl, rfl, rfl, rfl, rfl⟩

end

/-- Two steps send the request of a SENDRECV and start its reception (R130, R131). -/
theorem request_reaches {s : State} {c : Byte} {p : List Byte} {n : Half} {x : Nat}
    (hreset : s.env.resetReq = false) (hact : s.act = .idle)
    (hcmds : s.env.cmds = [.sendrecv c p x]) (hp : p.length = n.toNat) :
    ∃ t, Reaches 2 s t ∧ t.act = .receive ∧ t.fte.rxstate = .awaitStart ∧ t.fte.retry = some 0 ∧
      t.fte.seq = some c ∧ t.hic = s.hic ∧
      t.env = { s.env with cmds := [], tx := s.env.tx ++ [frameBytes c n p],
                           streamTmo := some x } := by
  have hstart := (step_command hreset hact hcmds).trans
    (exec_sendrecv (s := s.withCmds []) hact (hp ▸ Nat.le_of_lt_succ n.isLt) c x)
  have hsend := requestIsSentAndReceptionStarts
    (((s.withCmds []).withFte (s.fte.startCall.latchCall c x p)).withAct (.transmit p))
    c n p x hreset rfl rfl (congrArg some (ofNat_length_eq hp)) rfl hp
  exact ⟨_, .step hstart (reaches_one hsend), rfl, rfl, rfl, rfl, rfl, rfl⟩

/-- Settles O30: the request, the noise, the frame, and the return. -/
theorem sendrecvReturnsTheResponsePayload : Obligations.SendrecvReturnsTheResponsePayload := by
  unfold Obligations.SendrecvReturnsTheResponsePayload
  intro s seq request response noise lenQ lenR x q hreset hact hcmds hreq hresp hnoise hten hrx
  obtain ⟨w, hsent, hwact, hwst, hwretry, hwseq, hwhic, hwenv⟩ :=
    request_reaches hreset hact hcmds hreq
  rw [List.map_append, List.append_assoc] at hrx
  obtain ⟨u, hnoisy, huact, hust, -, huseq, huenv, huhic⟩ :=
    noise_reaches (by rw [hwenv]; exact hreset) hwact hwst hwretry hnoise (by rw [hwenv]; exact hrx)
      (by omega)
  obtain ⟨v, hframe, hvact, hvst, hverr, hvresult, hvenv, hvhic⟩ :=
    frame_reaches (by rw [huenv, hwenv]; exact hreset) huact hust (huseq.trans hwseq) hresp
      (by rw [huenv])
  have hret := step_of_outcome (fetch_received (s := v) (by rw [hvenv, huenv, hwenv]; exact hreset)
    hvact (by rw [hvst]; rfl))
  have hrun := hsent.trans (hnoisy.trans (hframe.trans (reaches_one hret)))
  rw [show 2 + (noise.length + (6 + 1)) = noise.length + 9 by omega] at hrun
  refine ⟨_, hrun, rfl, hvst, hverr, hvresult, ?_, ?_, hvhic.trans (huhic.trans hwhic)⟩
  · rw [finish_env, hvenv, huenv, hwenv]
  · rw [finish_env, hvenv]

/-! ## Every operation ends -/

/-- The firings a frame still needs from a state of the receive machine (R150). -/
def firingsLeft : RxState → Nat
  | .awaitStart => 6
  | .awaitSequence => 5
  | .awaitLength => 4
  | .awaitToken => 3
  | .awaitPayload => 2
  | .awaitChecksum => 1
  | .idle | .done | .failed => 0

theorem firingsLeft_le (st : RxState) : firingsLeft st ≤ 6 := by cases st <;> decide

theorem firingsLeft_pos {st : RxState} (h : isWaiting st = true) : 0 < firingsLeft st := by
  revert h
  cases st <;> decide

/-- A bound on the steps until the operation in progress is over: ten forgiven frames and one more
in reception (R164), a step for each character of the text, two rounds for each byte of the Image.
-/
def work (s : State) : Nat :=
  match s.act with
  | .idle => 0
  | .ret _ => 1
  | .receive => 6 * (Config.MAX_RETRY - s.fte.retry.getD 0) + firingsLeft s.fte.rxstate + 1
  | .transmit _ => 68
  | .decode none => 1
  | .decode (some x) => x.length + 2
  | .encode elaDone => 2 * (s.hic.img.len - s.hic.encA.getD 0) + (if elaDone then 0 else 1) + 2

section
variable {s t : State}

theorem work_receive (h : s.act = .receive) :
    work s = 6 * (Config.MAX_RETRY - s.fte.retry.getD 0) + firingsLeft s.fte.rxstate + 1 := by
  rw [work, h]

/-- An accepted read brings the frame one firing closer to its end. -/
theorem Accepts.firingsLeft {f g : Fte} (h : Accepts f g) :
    Machine.firingsLeft f.rxstate = Machine.firingsLeft g.rxstate + 1 := by
  cases h <;> simp only [Machine.firingsLeft, *]

/-- A firing ends the attempt, forgives a mismatch, or brings the frame closer to its end. -/
theorem Firing.work_lt (h : Firing s t) (hact : s.act = .receive)
    (hwait : isWaiting s.fte.rxstate = true) : work t < work s := by
  have hpos := firingsLeft_pos hwait
  rw [work_receive hact]
  cases h with
  | accepted q hf =>
    rw [work_receive (s := (s.withRx q).withFte _) hact, hf.firingsLeft]
    simp only [State.withFte_fte, hf.retry_eq]
    omega
  | forgiven q info hretry hle =>
    rw [work_receive (s := (s.withRx q).withFte _) hact, hretry]
    have hstart : firingsLeft .awaitStart = 6 := rfl
    simp only [State.withFte_fte, Option.getD_some, hstart, Config.MAX_RETRY] at hle ⊢
    omega
  | exhausted | timedOut =>
    show 1 < _
    omega

/-- What is left of a text after a cut is shorter. -/
theorem cutLine_rest_length {x y : Text} (h : (cutLine x).2 = some y) : y.length < x.length := by
  induction x with
  | nil => cases h
  | cons c x ih =>
    unfold cutLine at h
    split_ifs at h
    · cases h
      exact Nat.lt_succ_self _
    · exact Nat.lt_succ_of_lt (ih h)

theorem LineOutcome.work_lt {x : Text} (h : LineOutcome (s.withAct (.decode (cutLine x).2)) t)
    (hact : s.act = .decode (some x)) : work t < work s := by
  have hs : work s = x.length + 2 := by rw [work, hact]
  rw [hs]
  cases h with
  | goesOn =>
    cases hrest : (cutLine x).2 with
    | none =>
      show 1 < _
      omega
    | some y =>
      have := cutLine_rest_length hrest
      show y.length + 2 < _
      omega
  | raises =>
    show 1 < _
    omega

theorem Round.work_lt {elaDone : Bool} (h : Round elaDone s t) (hact : s.act = .encode elaDone)
    (hs : EncodeHolds s.hic elaDone) : work t < work s := by
  obtain ⟨ls, a, out, hls, ha, -, hdomain, -⟩ := hs
  obtain ⟨hpos, -⟩ := encodeRefused_eq_false_iff.1 hdomain
  have hws : work s = 2 * (s.hic.img.len - a) + (if elaDone then 0 else 1) + 2 := by
    rw [work, hact, ha, Option.getD_some]
  rw [hws]
  cases h with
  | ela line ha' _ _ hlt _ hdone =>
    subst hdone
    show 2 * (s.hic.img.len - s.hic.encA.getD 0) + 0 + 2 < _
    rw [ha, Option.getD_some]
    simp
  | data line ha' hls' _ hlt =>
    obtain rfl := Option.some.inj (ha.symm.trans ha')
    obtain rfl := Option.some.inj (hls.symm.trans hls')
    show 2 * (s.hic.img.len - (a + ls)) + 1 + 2 < _
    omega
  | eof =>
    show 1 < _
    omega

/-- Every step of a legal machine in an operation lowers `work`. -/
theorem step_work_lt (hs : Legal s) (hreset : s.env.resetReq = false) (hbusy : s.act ≠ .idle)
    (h : step s = .next t) : work t < work s := by
  have hreturn : ∀ u, 0 < work s → work (finish u s) < work s := fun u hpos => by
    rw [work, finish_act]
    exact hpos
  cases step_move h with
  | reset hreset' => simp [hreset] at hreset'
  | transmit hact =>
    have hws : work s = 68 := by rw [work, hact]
    rw [hws]
    show 6 * (Config.MAX_RETRY - 0) + 6 + 1 < 68
    decide
  | firing hact hwait hfiring => exact hfiring.work_lt hact hwait
  | received hact => exact hreturn _ (by rw [work_receive hact]; exact Nat.succ_pos _)
  | piece hact hline => exact hline.work_lt hact
  | decoded hact => exact hreturn _ (by rw [work, hact]; exact Nat.one_pos)
  | round hact hround =>
    obtain ⟨-, -, -, hholds⟩ := hs
    rw [ActivityHolds, hact] at hholds
    exact hround.work_lt hact hholds.2
  | ret hact => exact hreturn _ (by rw [work, hact]; exact Nat.one_pos)
  | quiet hact | sendrecv _ _ _ hact | tooLong _ _ hact | hexdec _ _ _ hact | hexenc _ hact
  | refused _ hact => exact absurd hact hbusy

/-- No step requests a reset (R280: the request is the environment's). -/
theorem step_resetReq (hreset : s.env.resetReq = false) (h : step s = .next t) :
    t.env.resetReq = false := by
  cases step_move h with
  | reset => rfl
  | firing _ _ hfiring => exact hfiring.resetReq.trans hreset
  | received | decoded | ret => rwa [finish_env]
  | piece _ hline => rw [hline.env]; exact hreset
  | round _ hround => rw [hround.env]; exact hreset
  | _ => exact hreset

/-- Where every step of a busy state with the property `P` lowers `work` and keeps `P`, the machine
is idle within `work` steps. -/
theorem reaches_idle_of {P : State → Prop}
    (hP : ∀ u, P u → u.act ≠ .idle → ∃ v, step u = .next v ∧ work v < work u ∧ P v) (hs : P s) :
    ∃ k t, k ≤ work s ∧ Reaches k s t ∧ t.act = .idle ∧ P t := by
  induction hn : work s using Nat.strong_induction_on generalizing s with
  | _ n ih =>
    by_cases hidle : s.act = .idle
    · exact ⟨0, s, Nat.zero_le _, rfl, hidle, hs⟩
    · obtain ⟨u, hstep, hlt, hu⟩ := hP s hs hidle
      obtain ⟨k, t, hk, hreach, htidle, ht⟩ := ih (work u) (hn ▸ hlt) hu rfl
      exact ⟨k + 1, t, by omega, hreach.step hstep, htidle, ht⟩

/-- A legal machine without a reset request is idle within `work` steps, with any property its steps
keep. -/
theorem reaches_idle {P : State → Prop}
    (hP : ∀ u v, Legal u → u.env.resetReq = false → u.act ≠ .idle → P u → step u = .next v → P v)
    (hs : Legal s) (hreset : s.env.resetReq = false) (hPs : P s) :
    ∃ k t, k ≤ work s ∧ Reaches k s t ∧ t.act = .idle ∧ P t := by
  have hstep : ∀ u, (Legal u ∧ u.env.resetReq = false ∧ P u) → u.act ≠ .idle →
      ∃ v, step u = .next v ∧ work v < work u ∧ Legal v ∧ v.env.resetReq = false ∧ P v := by
    rintro u ⟨hu, hur, hPu⟩ hbusy
    obtain ⟨v, hv⟩ := hu.stepsOn
    exact ⟨v, hv, step_work_lt hu hur hbusy hv, hu.step hv, step_resetReq hur hv,
      hP u v hu hur hbusy hPu hv⟩
  obtain ⟨k, t, hk, hreach, hidle, -, -, ht⟩ := reaches_idle_of hstep ⟨hs, hreset, hPs⟩
  exact ⟨k, t, hk, hreach, hidle, ht⟩

end

/-- Settles O60: `reaches_idle`. -/
theorem everyOperationEnds : Obligations.EveryOperationEnds := by
  unfold Obligations.EveryOperationEnds
  intro s hs hreset
  obtain ⟨k, t, -, hreach, hidle, -⟩ := reaches_idle (P := fun _ => True)
    (fun _ _ _ _ _ _ _ => trivial) hs hreset trivial
  exact ⟨k, t, hreach, hidle⟩

/-- Reception is in progress, or its attempt is over. -/
def AttemptInProgressOrOver (s : State) : Prop :=
  s.act = .receive ∨
    ((s.act = .ret .fte ∨ s.act = .idle) ∧ (s.fte.rxstate = .done ∨ s.fte.rxstate = .failed))

theorem step_attempt {s t : State} (hs : Legal s) (hreset : s.env.resetReq = false)
    (hbusy : s.act ≠ .idle) (hin : AttemptInProgressOrOver s) (h : step s = .next t) :
    AttemptInProgressOrOver t := by
  rcases hin with hact | ⟨hact | hact, hover⟩
  · rcases step_receive hreset hact h with ⟨-, hfiring⟩ | ⟨hwait, rfl⟩
    · cases hfiring with
      | accepted | forgiven => exact .inl hact
      | exhausted | timedOut => exact .inr ⟨.inl rfl, .inr rfl⟩
    · obtain ⟨hdone, -⟩ := (hs.receiveHolds hact).settled hwait
      exact .inr ⟨.inr rfl, .inl hdone⟩
  · rw [step_of_outcome (fetch_ret hreset hact)] at h
    cases h
    exact .inr ⟨.inr rfl, hover⟩
  · exact absurd hact hbusy

/-- Settles O31: `reaches_idle` for reception, whose `work` is at most 67. -/
theorem receiveAttemptEnds : Obligations.ReceiveAttemptEnds := by
  unfold Obligations.ReceiveAttemptEnds
  intro s hs hreset hact
  have hwork : work s ≤ 67 := by
    have hleft := firingsLeft_le s.fte.rxstate
    have hretry : Config.MAX_RETRY - s.fte.retry.getD 0 ≤ 10 := Nat.sub_le _ _
    rw [work_receive hact]
    omega
  obtain ⟨k, t, hk, hreach, hidle, hin⟩ := reaches_idle
    (fun u v hu hur hub hPu huv => step_attempt hu hur hub hPu huv) hs hreset (.inl hact)
  refine ⟨k, t, hk.trans hwork, hreach, hidle, ?_⟩
  rcases hin with hbusy | ⟨-, hover⟩
  · rw [hidle] at hbusy
    cases hbusy
  · exact hover

end Sys2Proof.Machine

/-! # The round trip (O54)

What the walk has written so far is read back, whatever text follows it, as the part of the Image
that the walk has passed: `ReadsBack`. Each line of the walk keeps that, for decoding the line
stores what encoding it read, at the address the walk stood at. -/

namespace Sys2Proof.Machine

/-! ## Reading a line back -/

/-- No line of a record holds LF, so it is one piece of the text (R108). -/
theorem recordLine_no_lf (ty : Byte) (addr : Half) (data : List Byte) :
    ∀ c ∈ recordLine ty addr data, c ≠ Config.LF := by
  rintro c hc rfl
  rcases List.mem_cons.1 hc with hmark | hdigit
  · exact absurd hmark (by decide)
  · have hnone := nibbles_of_notHex ⟨Config.LF, hdigit, rfl⟩
    rw [nibbles_hexBytes] at hnone
    cases hnone

/-- The block that starts to decode a text right after reset. -/
def decodeStart (p : Params) (x : Text) : State :=
  { State.reset with env := { State.reset.env with cmds := [.hexdec x 0] }, params := p }

/-- HEXDEC in its line loop with `rest` still to read, the first `a` bytes of the Image `m` stored,
and the upper address `page` in `EAB`. -/
structure Decoding (p : Params) (m : Memory) (a page : Nat) (rest : Text) (u : State) : Prop where
  act : u.act = .decode (some rest)
  resetReq : u.env.resetReq = false
  cmds : u.env.cmds = []
  params : u.params = p
  lineNo : ∃ n, u.hic.lineNo = some n
  offset : u.hic.offset = some 0
  err : u.hic.err = .none
  eab : u.hic.eab.toNat = page
  wf : u.hic.img.wf = true
  len : u.hic.img.len = min a m.len
  get : ∀ x, x < min a m.len → u.hic.img.get x = m.get x

section
variable {p : Params} {m : Memory} {a page : Nat} {rest : Text} {u : State}

/-- The record of the next line is run at a state that has taken the line (R180, R187). -/
theorem Decoding.step_line {ty : Byte} {addr : Half} {data : List Byte} (hdata : data.length ≤ 255)
    (h : Decoding p m a page (recordLine ty addr data ++ Config.LF :: rest) u) :
    ∃ n, Decoding p m a page rest
        { u with hic := { u.hic with lineNo := some n, line := some (recordLine ty addr data) },
                 act := .decode (some rest) } ∧
      step u = exec (goodRecord ty addr data).toInstr
        { u with hic := { u.hic with lineNo := some n, line := some (recordLine ty addr data) },
                 act := .decode (some rest) } := by
  obtain ⟨n, hn⟩ := h.lineNo
  exact ⟨n + 1, ⟨rfl, h.resetReq, h.cmds, h.params, ⟨_, rfl⟩, h.offset, h.err, h.eab, h.wf, h.len,
      h.get⟩,
    step_acceptedLine h.resetReq h.act hn (cutLine_append_lf (recordLine_no_lf ty addr data) rest)
      (List.cons_ne_nil _ _) (decodeLine_recordLine ty addr hdata)⟩

/-- An extended-linear-address line sets the upper address (R196). -/
theorem Decoding.ela {v : Half}
    (h : Decoding p m a page (recordLine 0x04 0 [hiByte v, loByte v] ++ Config.LF :: rest) u) :
    ∃ t, step u = .next t ∧ Decoding p m a v.toNat rest t := by
  obtain ⟨n, hd, hstep⟩ := h.step_line (by simp)
  refine ⟨_, hstep.trans (exec_recEla _ _ _ _), ?_⟩
  exact ⟨rfl, hd.resetReq, hd.cmds, hd.params, hd.lineNo, hd.offset, hd.err,
    congrArg BitVec.toNat (be16_hi_lo v), hd.wf, hd.len, hd.get⟩

/-- A data line at the address the upper address and its own field give stores its bytes there
(R192). -/
theorem Decoding.data {a16 : Half} {d : List Byte} {a' : Nat}
    (h : Decoding p m a (a / 65536) (recordLine 0x00 a16 d ++ Config.LF :: rest) u)
    (hcap : p.imgCap = none) (hd : d.length ≤ 255) (ha : a ≤ m.len) (ha16 : a16.toNat = a % 65536)
    (hlen : a + d.length = min a' m.len)
    (hget : ∀ k, k < d.length → m.get (a + k) = some (d.getD k 0)) :
    ∃ t, step u = .next t ∧ Decoding p m a' (a / 65536) rest t := by
  obtain ⟨n, hu, hstep⟩ := h.step_line hd
  have haddr : a = u.hic.eab.toNat * 65536 + a16.toNat +
      (if u.params.offsetApplied then 0 else 0) := by
    rw [h.eab, ha16, ite_self]
    omega
  obtain ⟨w, hexec, hw, hwlen, hwget⟩ := recDataWritesTheImage _ a16 d 0 a hd hu.wf hu.offset haddr
    (fun c hc => by rw [hu.params, hcap] at hc; cases hc)
  rw [hu.len, min_eq_left ha] at hwlen hwget
  refine ⟨_, hstep.trans hexec, rfl, hu.resetReq, hu.cmds, hu.params, hu.lineNo, hu.offset, hu.err,
    hu.eab, hw, hwlen.trans (by omega), fun x hx => (hwget x).trans ?_⟩
  rw [← hlen] at hx
  by_cases hold : x < a
  · rw [if_neg (by omega), if_pos hold]
    exact hu.get x (by rwa [min_eq_left ha])
  · have hk : x - a < d.length := by omega
    rw [if_pos (by omega), List.getElem?_eq_getElem hk, ← List.getD_eq_getElem _ 0 hk, ← hget _ hk,
      Nat.add_sub_cancel' (Nat.not_lt.1 hold)]

/-- The end-of-file line stores nothing and does not end HEXDEC (R193). -/
theorem Decoding.eof (h : Decoding p m a page (Config.EOF_LINE ++ Config.LF :: rest) u) :
    ∃ t, step u = .next t ∧ Decoding p m a page rest t := by
  rw [eofLine_eq] at h
  obtain ⟨n, hd, hstep⟩ := h.step_line (by simp)
  refine ⟨_, hstep.trans (exec_recEof (data := []) (Nat.zero_le 255) _ _), ?_⟩
  exact ⟨rfl, hd.resetReq, hd.cmds, hd.params, hd.lineNo, hd.offset, hd.err, hd.eab, hd.wf, hd.len,
    hd.get⟩

/-- Once the text is used up and the whole Image is stored, HEXDEC returns with it. -/
theorem Decoding.return (h : Decoding p m a page [] u) (hw : m.wf = true) (ha : m.len ≤ a) :
    ∃ t, Reaches 2 u t ∧ t.act = .idle ∧ t.env.cmds = [] ∧ t.hic.err = .none ∧ t.hic.img = m ∧
      t.hic.eab.toNat = page := by
  obtain ⟨n, hn⟩ := h.lineNo
  have himg : u.hic.img = m := by
    have hlen := h.len.trans (min_eq_right ha)
    refine Memory.ext_get h.wf hw hlen fun x => ?_
    by_cases hx : x < m.len
    · exact h.get x (by rwa [min_eq_right ha])
    · rw [Memory.get_none (by omega), Memory.get_none (by omega)]
  have hlast := step_emptyPiece (rest := none) h.resetReq h.act hn rfl
  have hreturn := step_of_outcome (fetch_decoded
    (s := { u with hic := { u.hic with lineNo := some (n + 1), line := some [] },
                   act := .decode none }) h.resetReq rfl)
  exact ⟨_, .step hlast (reaches_one hreturn), rfl, h.cmds, h.err, himg, h.eab⟩

end

/-! ## What the walk has written -/

/-- The upper address of the line before the walk's present line: of the present address once its
line is emitted, and else of the last byte that was passed. -/
def pageAt (m : Memory) (a : Nat) (elaDone : Bool) : Nat :=
  if elaDone then a / 65536 else (min a m.len - 1) / 65536

/-- The text `out` is read back as the first `a` bytes of the Image, whatever follows it. -/
def ReadsBack (p : Params) (m : Memory) (a : Nat) (elaDone : Bool) (out : Text) : Prop :=
  ∀ rest, ∃ k u, Reaches k (decodeStart p (out ++ rest)) u ∧
    Decoding p m a (pageAt m a elaDone) rest u

/-- The text `out` is read back as the whole Image. -/
def ReadsBackWhole (p : Params) (m : Memory) (out : Text) : Prop :=
  ∃ k u, Reaches k (decodeStart p out) u ∧ u.act = .idle ∧ u.env.cmds = [] ∧ u.hic.err = .none ∧
    u.hic.img = m ∧ u.hic.eab.toNat = (m.len - 1) / 65536

section
variable {p : Params} {m : Memory} {a : Nat} {elaDone : Bool} {out : Text}

/-- At the start of the walk nothing is written, and nothing is stored. -/
theorem readsBack_nil (p : Params) (m : Memory) : ReadsBack p m 0 false [] := by
  intro rest
  have hstart := (step_command (s := decodeStart p rest) rfl rfl rfl).trans
    (exec_hexdec (s := (decodeStart p rest).withCmds []) rfl rest 0)
  refine ⟨1, _, reaches_one hstart, rfl, rfl, rfl, rfl, ⟨0, rfl⟩, rfl, rfl, ?_, rfl, ?_,
    fun x hx => ?_⟩
  · show 0 = pageAt m 0 false
    simp [pageAt]
  · show 0 = min 0 m.len
    simp
  · omega

/-- A line whose reading leads to the next address and upper address extends what is read back. -/
theorem ReadsBack.append {line : Text} {a' : Nat} {elaDone' : Bool}
    (h : ReadsBack p m a elaDone out)
    (hline : ∀ rest u, Decoding p m a (pageAt m a elaDone) (line ++ Config.LF :: rest) u →
      ∃ t, step u = .next t ∧ Decoding p m a' (pageAt m a' elaDone') rest t) :
    ReadsBack p m a' elaDone' (out ++ (line ++ [Config.LF])) := by
  intro rest
  obtain ⟨k, u, hreach, hu⟩ := h (line ++ Config.LF :: rest)
  obtain ⟨t, hstep, ht⟩ := hline rest u hu
  refine ⟨k + 1, t, ?_, ht⟩
  simpa using hreach.trans (reaches_one hstep)

theorem ReadsBack.ela {v : Half} (h : ReadsBack p m a false out) (hv : v.toNat = a / 65536) :
    ReadsBack p m a true (out ++ (recordLine 0x04 0 [hiByte v, loByte v] ++ [Config.LF])) :=
  h.append fun rest u hu => by
    obtain ⟨t, hstep, ht⟩ := hu.ela
    rw [hv] at ht
    exact ⟨t, hstep, ht⟩

/-- A data line inside one 64 KiB page (R70). -/
theorem ReadsBack.data {a16 : Half} {d : List Byte} {ls : Nat} (h : ReadsBack p m a elaDone out)
    (hcap : p.imgCap = none) (hlt : a < m.len) (hpage : pageAt m a elaDone = a / 65536)
    (hls : 1 ≤ ls) (hls' : ls ≤ 255) (hinside : a % 65536 + min ls (m.len - a) ≤ 65536)
    (ha16 : a16.toNat = a % 65536) (hlen : d.length = min ls (m.len - a))
    (hget : ∀ k, k < d.length → m.get (a + k) = some (d.getD k 0)) :
    ReadsBack p m (a + ls) false (out ++ (recordLine 0x00 a16 d ++ [Config.LF])) := by
  have hnext : pageAt m (a + ls) false = a / 65536 := by
    simp only [pageAt, Bool.false_eq_true, if_false]
    omega
  refine h.append fun rest u hu => ?_
  rw [hpage] at hu
  rw [hnext]
  exact hu.data hcap (by omega) hlt.le ha16 (by omega) hget

theorem ReadsBack.eof (h : ReadsBack p m a false out) (hw : m.wf = true) (ha : m.len ≤ a) :
    ReadsBackWhole p m (out ++ (Config.EOF_LINE ++ [Config.LF])) := by
  obtain ⟨k, u, hreach, hu⟩ := h.append (fun rest u hu => hu.eof) []
  obtain ⟨t, hreturn, hidle, hcmds, herr, himg, heab⟩ := hu.return hw ha
  rw [List.append_nil] at hreach
  refine ⟨_, t, hreach.trans hreturn, hidle, hcmds, herr, himg, heab.trans ?_⟩
  simp only [pageAt, Bool.false_eq_true, if_false, min_eq_right ha]

end

/-! ## The walk -/

/-- HEXENC in its walk, or returning or over with its text; the text is read back so far. -/
inductive Writing (p : Params) (m : Memory) (ls : Nat) (s : State) : Prop
  | walks {a : Nat} {elaDone : Bool} {out : Text} (hact : s.act = .encode elaDone)
      (ha : s.hic.encA = some a) (hls : s.hic.encLs = some ls) (hout : s.hic.txtOut = some out)
      (hdvd : ls ∣ a) (hela : elaDone = true → a < m.len ∧ atBoundary a = true)
      (hback : ReadsBack p m a elaDone out)
  | written {out : Text} (hact : s.act = .ret .hic ∨ s.act = .idle) (hout : s.hic.txtOut = some out)
      (hback : ReadsBackWhole p m out)

/-- What HEXENC leaves as it is until it returns. -/
structure EncodeFrame (m : Memory) (s : State) : Prop where
  resetReq : s.env.resetReq = false
  cmds : s.env.cmds = []
  err : s.hic.err = .none
  img : s.hic.img = m

section
variable {p : Params} {m : Memory} {ls : Nat} {s : State}

/-- An address of the walk is followed by a whole line in its 64 KiB page, or by the end of the
Image (R70, R225). -/
theorem line_inside_page {a : Nat} (hdvd : ls ∣ a) (hdomain : ls ∣ 65536 ∨ m.len ≤ 65536)
    (hlt : a < m.len) : a % 65536 + min ls (m.len - a) ≤ 65536 := by
  rcases hdomain with hdiv | hsmall
  · have hmod : ls ∣ a % 65536 := (Nat.dvd_mod_iff hdiv).2 hdvd
    have hle : ls ≤ 65536 - a % 65536 := Nat.le_of_dvd (by omega) (Nat.dvd_sub hdiv hmod)
    omega
  · omega

/-- Every step of the walk writes a line that is read back. -/
theorem writing_step (hw : m.wf = true) (hcap : p.imgCap = none)
    (hdomain : encodeRefused ls m.len = false) (hframe : EncodeFrame m s)
    (hs : Writing p m ls s) (hbusy : s.act ≠ .idle) :
    ∃ t, step s = .next t ∧ work t < work s ∧ EncodeFrame m t ∧ Writing p m ls t := by
  obtain ⟨hreset, hcmds, herr, rfl⟩ := hframe
  obtain ⟨h1, h255, hmax, hdiv⟩ := encodeRefused_eq_false_iff.1 hdomain
  cases hs with
  | @walks a elaDone out hact ha hls hout hdvd hela hback =>
    have hholds : EncodeHolds s.hic elaDone := ⟨ls, a, out, hls, ha, hout, hdomain, hdvd, hela⟩
    have hlower : ∀ {t}, step s = .next t → work t < work s := fun h =>
      (step_round hreset hact h).work_lt hact hholds
    obtain ⟨hstepEla, hstepData, hstepEof⟩ :=
      walkEmitsTheImageInOrder s a ls elaDone out hreset hact ha hls hout
    by_cases hend : s.hic.img.len ≤ a
    · obtain rfl : elaDone = false := Bool.eq_false_iff.2 fun h => Nat.not_lt.2 hend (hela h).1
      obtain ⟨line, hemit, hstep⟩ := hstepEof hend
      obtain rfl := Option.some.inj hemit
      exact ⟨_, hstep, hlower hstep, ⟨hreset, hcmds, herr, rfl⟩,
        .written (.inl rfl) rfl (hback.eof hw hend)⟩
    have hlt : a < s.hic.img.len := Nat.not_le.1 hend
    by_cases hline : a = 0 ∨ a % 65536 ≠ 0 ∨ elaDone = true
    · have hpage : pageAt s.hic.img a elaDone = a / 65536 := by
        unfold pageAt
        split_ifs with hdone
        · rfl
        · have := (or_assoc.2 hline).resolve_right hdone
          omega
      obtain ⟨d, hdlen, hget⟩ := exists_lineData ls hlt
      obtain ⟨line, hemit, hstep⟩ := hstepData (encodeLow a) d hlt hline h1 h255
        (BitVec.toNat_ofNat _ _) hdlen hget
      obtain rfl := Option.some.inj hemit
      exact ⟨_, hstep, hlower hstep, ⟨hreset, hcmds, herr, rfl⟩, .walks rfl rfl hls rfl
        ((Nat.dvd_add_left (dvd_refl ls)).2 hdvd) nofun (hback.data hcap hlt hpage h1 h255
          (line_inside_page hdvd hdiv hlt) (BitVec.toNat_ofNat _ _) hdlen hget)⟩
    · push Not at hline
      obtain ⟨hpos, hmod, hdone⟩ := hline
      obtain rfl : elaDone = false := Bool.eq_false_iff.2 hdone
      have hhigh : (encodeHigh a).toNat = a / 65536 := by
        rw [encodeHigh, BitVec.toNat_ofNat]
        omega
      obtain ⟨line, hemit, hstep⟩ :=
        hstepEla (encodeHigh a) hlt hmax (Nat.pos_of_ne_zero hpos) hmod rfl hhigh
      obtain rfl := Option.some.inj hemit
      exact ⟨_, hstep, hlower hstep, ⟨hreset, hcmds, herr, rfl⟩, .walks rfl ha hls rfl hdvd
        (fun _ => ⟨hlt, atBoundary_iff.2 ⟨Nat.pos_of_ne_zero hpos, hmod⟩⟩) (hback.ela hhigh)⟩
  | written hact hout hback =>
    have hact := hact.resolve_right hbusy
    have hstep := step_of_outcome (fetch_ret hreset hact)
    refine ⟨_, hstep, ?_, ⟨hreset, hcmds, herr, rfl⟩, .written (.inr rfl) hout hback⟩
    rw [work, work, hact]
    exact Nat.one_pos

/-- HEXENC starts its walk with nothing written (R220). -/
theorem writing_start (p : Params) (hreset : s.env.resetReq = false) (hact : s.act = .idle)
    (hcmds : s.env.cmds = [.hexenc ls]) (hdomain : encodeRefused ls s.hic.img.len = false) :
    ∃ t, step s = .next t ∧ EncodeFrame s.hic.img t ∧ Writing p s.hic.img ls t :=
  have hexec := exec_hexenc (s := s.withCmds []) hact hdomain
  ⟨_, (step_command hreset hact hcmds).trans hexec, ⟨hreset, rfl, rfl, rfl⟩,
    .walks rfl rfl rfl rfl (dvd_zero ls) nofun (readsBack_nil p s.hic.img)⟩

end

/-- Settles O54: `writing_step` from the start of the walk to its end. -/
theorem encodedImageDecodesToItself : Obligations.EncodedImageDecodesToItself := by
  unfold Obligations.EncodedImageDecodesToItself
  intro s ls p hreset hact hcmds hw h1 h255 hmax hdiv hcap
  have hdomain := encodeRefused_eq_false_iff.2 ⟨h1, h255, hmax, hdiv⟩
  obtain ⟨u, hstart, hwriting⟩ := writing_start p hreset hact hcmds hdomain
  obtain ⟨k, t, -, hreach, hidle, hframe, hwriting⟩ := reaches_idle_of
    (P := fun v => EncodeFrame s.hic.img v ∧ Writing p s.hic.img ls v)
    (fun v hv => writing_step hw hcap hdomain hv.1 hv.2) hwriting
  cases hwriting with
  | walks hbusy =>
    rw [hidle] at hbusy
    cases hbusy
  | written _ hout hback =>
    exact ⟨_, t, _, hreach.step hstart, hidle, hframe.cmds, hframe.err, hout, hframe.img, hback⟩

end Sys2Proof.Machine
